-- ==== Sys2Proof/Word.lean ====
section
/-! DEFINITION. The two word types of the hardware: the byte of the frame buffer and the 32-bit word of a descriptor. -/
namespace Sys2Proof

/-- One byte of the frame buffer, or one row of a glyph (R40, R81). -/
abbrev Byte := BitVec 8

/-- One word of a descriptor, or one word of a Packed10 block (R60, R160). -/
abbrev Word := BitVec 32

end Sys2Proof
end

