-- ==== Sys2Proof/Syntax.lean ====
section
/-! DEFINITION. The syntax of the hardware: the descriptor as the host presents it, the four commands it encodes, and the
arguments of the host's own operations. -/
namespace Sys2Proof

/-- A command as it is presented to the block, by value: eight 32-bit words, format `D8` (R60, R61). -/
structure Descriptor where
  d0 : Word
  d1 : Word
  d2 : Word
  d3 : Word
  d4 : Word
  d5 : Word
  d6 : Word
  d7 : Word
deriving DecidableEq, Repr

/-- The operands of `RASTER g, cw, ch, px, py` (R84, R68). The words `BASE`, `WIDTH`, `HEIGHT` are ignored by the command
(R61) and are no operands of it. -/
structure RasterArgs where
  /-- glyph index, `D[0][7:4]` (R64) -/
  glyph : BitVec 4
  /-- cell width in pixels -/
  cw : Word
  /-- cell height in pixels -/
  ch : Word
  /-- target column inside the cell, unsigned -/
  px : Word
  /-- target row inside the cell, unsigned -/
  py : Word
deriving DecidableEq, Repr

/-- The operands the three writers share, `g, x0, y0, cw, ch, W, H, base` (R100, R123, R68). -/
structure DrawArgs where
  /-- glyph index, `D[0][7:4]` (R64) -/
  glyph : BitVec 4
  /-- screen column of the cell's left edge, two's complement -/
  x0 : Word
  /-- screen row of the cell's top edge, two's complement -/
  y0 : Word
  /-- cell width in pixels -/
  cw : Word
  /-- cell height in pixels -/
  ch : Word
  /-- frame width `W` in pixels -/
  width : Word
  /-- frame height `H` in pixels -/
  height : Word
  /-- byte address of offset 0 of the destination buffer -/
  base : Word
deriving DecidableEq, Repr

/-- The four commands of the block, one constructor per row of the opcode table (R63). -/
inductive Instr where
  /-- `RASTER`, opcode 0 (R84) -/
  | raster (a : RasterArgs)
  /-- `DRAW.I8`, opcode 1 (R123) -/
  | drawI8 (a : DrawArgs)
  /-- `DRAW.P8`, opcode 2 (R144) -/
  | drawP8 (a : DrawArgs)
  /-- `DRAW.P10`, opcode 3 (R165) -/
  | drawP10 (a : DrawArgs)
deriving DecidableEq, Repr

/-- The closed enumeration of buffer formats, in the source's order (R24, R13). -/
inductive PixelFormat where
  | interleaved8
  | planar8
  | packed10
deriving DecidableEq, Repr

/-- The statuses of the host operations (R221). -/
inductive Status where
  | success
  /-- a null buffer pointer (R193) -/
  | invalidArgument
  /-- zero width or height (R194) -/
  | notConfigured
  /-- declared length below the expected size (R195) -/
  | bufferTooSmall
deriving DecidableEq, Repr

/-- The four unsigned integers of a timecode, not range-checked (R192, R197; their width `TC_BITS` is open, D28). -/
structure TimeCode where
  hour : Nat
  minute : Nat
  second : Nat
  decimal : Nat
deriving DecidableEq, Repr

/-- The arguments of the two-buffer `burn` (R192). A null pointer is `none` (R193). -/
structure BurnArgs where
  src : Option Word
  /-- the source's declared length in bytes -/
  srcLen : Nat
  dst : Option Word
  /-- the true length of the destination, which no one declares to `burn`: it is the window of the commands (R244, U25) -/
  dstLen : Nat
  time : TimeCode
  x : Int
  y : Int
deriving DecidableEq, Repr

end Sys2Proof
end

