-- ==== Sys2Proof/WellFormed.lean ====
section
/-! DEFINITION. Which descriptors and commands the spec gives a meaning: the checks of R65, each with a name. -/
namespace Sys2Proof

/-- `D[0][31:8]` is zero, as R61 and R65 require. -/
def Descriptor.reservedClear (d : Descriptor) : Bool := d.d0.toNat / 256 == 0

/-- `OP = D[0][3:0]` is one of the four operations of R63. -/
def Descriptor.opDefined (d : Descriptor) : Bool := d.d0.toNat % 16 < 4

/-- The descriptor is no reserved encoding (R65). -/
def Descriptor.wellFormed (d : Descriptor) : Bool := d.reservedClear && d.opDefined

/-- The rasterizer's contract, "both ≥ 1": outside it a `RASTER` ends with `Refused(BadCell)` (R65, R84). -/
def RasterArgs.cellNonempty (a : RasterArgs) : Bool := a.cw != 0 && a.ch != 0

/-- A command the block completes or draws: every `DRAW`, whatever its operands (R65), and a `RASTER` inside the
rasterizer's contract. -/
def Instr.wellFormed : Instr → Bool
  | .raster a => a.cellNonempty
  | .drawI8 _ => true
  | .drawP8 _ => true
  | .drawP10 _ => true

end Sys2Proof
end

