-- ==== Sys2Proof/Decode.lean ====
section
/-! DEFINITION. The descriptor format `D8` read and written: operand fields (R61, R62), the opcode map (R63), the reserved
encodings (R65), and the encoder over the same fields. A descriptor is presented whole and by value, as words (R60, R66):
it has no byte order and no address. -/
namespace Sys2Proof

/-- Why the decoder turns a descriptor away (R65, R222). -/
inductive DecodeError where
  /-- `OP` in 4 to 15 -/
  | reservedOp
  /-- `D[0][31:8]` not zero -/
  | reservedBits
deriving DecidableEq, Repr

/-- `OP = D[0][3:0]` (R61). -/
def Descriptor.op (d : Descriptor) : BitVec 4 := d.d0.extractLsb' 0 4

/-- `GLYPH = D[0][7:4]` (R61). -/
def Descriptor.glyph (d : Descriptor) : BitVec 4 := d.d0.extractLsb' 4 4

/-- `D[0][31:8]`, which must be zero (R61, R65). -/
def Descriptor.reserved (d : Descriptor) : BitVec 24 := d.d0.extractLsb' 8 24

/-- The operands of a `RASTER` descriptor (R61, R62). -/
def Descriptor.rasterArgs (d : Descriptor) : RasterArgs :=
  { glyph := d.glyph, cw := d.d6, ch := d.d7, px := d.d4, py := d.d5 }

/-- The operands of a `DRAW` descriptor (R61, R62). -/
def Descriptor.drawArgs (d : Descriptor) : DrawArgs :=
  { glyph := d.glyph, x0 := d.d4, y0 := d.d5, cw := d.d6, ch := d.d7,
    width := d.d2, height := d.d3, base := d.d1 }

/-- The command a descriptor encodes (R63), or the reserved part that has no meaning (R65). The reserved bits are checked
first (R225). -/
def decode (d : Descriptor) : Except DecodeError Instr :=
  if d.reserved = 0 then
    match d.op.toNat with
    | 0 => .ok (.raster d.rasterArgs)
    | 1 => .ok (.drawI8 d.drawArgs)
    | 2 => .ok (.drawP8 d.drawArgs)
    | 3 => .ok (.drawP10 d.drawArgs)
    | _ => .error .reservedOp
  else .error .reservedBits

/-- `D[0]` from its fields: 24 reserved zero bits, `GLYPH`, `OP` (R61). -/
def headerWord (op glyph : BitVec 4) : Word := 0#24 ++ (glyph ++ op)

/-- The descriptor of a `DRAW` command with opcode `op` (R61). -/
def encodeDraw (op : BitVec 4) (a : DrawArgs) : Descriptor :=
  { d0 := headerWord op a.glyph, d1 := a.base, d2 := a.width, d3 := a.height,
    d4 := a.x0, d5 := a.y0, d6 := a.cw, d7 := a.ch }

/-- The descriptor of a command (R61, R63). The words `RASTER` ignores are zero, as its assembler syntax leaves them
(R68; log 29). -/
def encode : Instr → Descriptor
  | .raster a =>
    { d0 := headerWord 0 a.glyph, d1 := 0, d2 := 0, d3 := 0, d4 := a.px, d5 := a.py, d6 := a.cw, d7 := a.ch }
  | .drawI8 a => encodeDraw 1 a
  | .drawP8 a => encodeDraw 2 a
  | .drawP10 a => encodeDraw 3 a

/-- The descriptor whose word `k` is bits `32k+31 .. 32k` of `w`. -/
def Descriptor.ofNat (w : Nat) : Descriptor :=
  { d0 := .ofNat 32 w, d1 := .ofNat 32 (w / 2 ^ 32), d2 := .ofNat 32 (w / 2 ^ 64),
    d3 := .ofNat 32 (w / 2 ^ 96), d4 := .ofNat 32 (w / 2 ^ 128), d5 := .ofNat 32 (w / 2 ^ 160),
    d6 := .ofNat 32 (w / 2 ^ 192), d7 := .ofNat 32 (w / 2 ^ 224) }

/-- The descriptor whose low `nbits` bits are those of `w` and whose other bits are 0. -/
def tableDescriptor (nbits w : Nat) : Descriptor := .ofNat (w % 2 ^ nbits)

/-- The command the decoder reads from the descriptor whose low `nbits` bits are those of `w`, the other bits being 0. -/
def decodeTableWord (nbits w : Nat) : Option Instr := (decode (tableDescriptor nbits w)).toOption

end Sys2Proof
end

