-- ==== Sys2Proof/Machine/Constants.lean ====
section
/-! DEFINITION. The constants the source fixes (R6), each under its own name so that an audit of the source's unaudited
literals (U12; log 26) can change one without touching a rule. -/
namespace Sys2Proof.Machine

/-- `N_GLYPHS` (R6): symbols in the Glyph Table. -/
def nGlyphs : Nat := 12

/-- `GLYPH_W` (R6): columns of a source glyph. -/
def glyphW : Nat := 8

/-- `GLYPH_H` (R6): rows of a source glyph. -/
def glyphH : Nat := 16

/-- `Y8_FG` (R6, R103): 8-bit luma of ink. -/
def y8Fg : Byte := 235

/-- `Y8_BG` (R6, R103): 8-bit luma of background. -/
def y8Bg : Byte := 16

/-- `C8_NEUTRAL` (R6, R103): 8-bit neutral chroma. -/
def c8Neutral : Byte := 128

/-- `Y10_FG` (R6, R103): 10-bit luma of ink. -/
def y10Fg : BitVec 10 := 940

/-- `Y10_BG` (R6, R103): 10-bit luma of background. -/
def y10Bg : BitVec 10 := 64

/-- `C10_NEUTRAL` (R6, R103): 10-bit neutral chroma. -/
def c10Neutral : BitVec 10 := 512

/-- `I8_GROUP_BYTES` (R6): bytes of an Interleaved8 group of two pixels. -/
def i8GroupBytes : Nat := 4

/-- `P10_BLOCK_PIXELS` (R6): pixels of a Packed10 block. -/
def p10BlockPixels : Nat := 6

/-- `P10_BLOCK_WORDS` (R6): 32-bit words of a Packed10 block. -/
def p10BlockWords : Nat := 4

/-- Bytes of a 32-bit word (R6: a block of four words is 16 bytes). -/
def p10WordBytes : Nat := 4

/-- `P10_SLOT_BITS` (R6): bits of a Packed10 slot. -/
def p10SlotBits : Nat := 10

/-- `DEFAULT_CELL_SIZE` (R6, R190): the default last argument of `configure`. -/
def defaultCellSize : Word := 64

end Sys2Proof.Machine
end

