-- ==== Sys2Proof/Config.lean ====
section
/-! DEFINITION. What an implementation fixes and the spec leaves open (R7): the address width at the spec's default, and
the free values, which have no body. -/
namespace Sys2Proof

/-- `ADDR_BITS`, the width of a byte address: open, default 32 (R7, D7). DESIGN CHOICE: the default is taken (log 5). -/
def Config.addrBits : Nat := 32

/-- `GLYPH_ROM`: the bitmaps of the twelve glyphs, which no source lists (R7, R86, D6). A free value (log 6). -/
opaque Config.glyphRom : Fin 12 → Fin 16 → Byte

/-- The open `VISIT_ORDER` of R104: the rank at which a command with these operands visits the pixel `(x, y)` of its
cell. Every order of a set of pixels is the order of some rank. A free value (logs 2, 3). -/
opaque Config.visitRank : DrawArgs → Nat → Nat → Nat

/-- `STATUS_CODES`: a free renumbering of the numbers. The statuses' codes are its values at four distinct arguments, so they
are distinct, and every injective choice of four numbers is one it may make (R200, R221, D20; log 7). -/
opaque Config.statusNumbering : Equiv.Perm Nat

end Sys2Proof
end

