-- ==== Sys2Proof/Machine/State.lean ====
section
/-! DEFINITION. The state as plain data: the frame-buffer memory, the Glyph Table, the host's configuration, the window
lent for the current command, the last answer, and what the host will do next; the reasons a step can stop; the state after
reset. -/
namespace Sys2Proof.Machine

/-- The frame-buffer space (R40): the bytes that hold a value, addresses strictly rising. An address that is not listed
holds no value (log 1). -/
abbrev Memory := List Host.Cell

/-- The canonical form of a memory: addresses strictly rising. -/
def Memory.wf (m : Memory) : Bool := decide (m.Pairwise fun p q => p.1 < q.1)

/-- Every listed address exists in the address space of `ADDR_BITS` bits (R40, R7). -/
def Memory.inSpace (m : Memory) : Bool := m.all fun c => c.1 < 2 ^ Config.addrBits

/-- A glyph: sixteen rows of eight bits, row 0 the top row (R25, R81). -/
abbrev Glyph := Vector Byte 16

/-- The Glyph Table: twelve glyphs, indexes 0 to 9 the digits, 10 the colon, 11 the period (R25, R64). -/
abbrev GlyphTable := Vector Glyph 12

/-- The configuration record of the Burn Engine (R24, R190). -/
structure HostConfig where
  /-- any unsigned value; 0 makes `burn` fail with `NotConfigured` -/
  width : Nat
  height : Nat
  format : PixelFormat
  /-- unsigned, `FIELD_BITS` wide (D24) -/
  cellSize : Word
deriving DecidableEq, Repr

/-- What a command or a host operation that ran to its end answers (R66, R221). -/
inductive Reply where
  /-- a `DRAW` command ran to its end -/
  | done
  /-- the ink bit of a `RASTER` -/
  | respond (ink : Bool)
  /-- the status of `configure` or `burn` -/
  | status (st : Status)
deriving DecidableEq, Repr

/-- One thing the host does between commands (R204). The list of them in `State.inputs` is the outside world's, not the
block's: the block has no queue (R247; log 9). -/
inductive HostAction where
  /-- present descriptor `d` with the window `[BASE, BASE+len)` lent (R41, R66) -/
  | command (d : Descriptor) (len : Nat)
  /-- `configure(width, height, format, glyphCellSize)`, the last argument absent for its default (R190) -/
  | configure (width height : Nat) (format : PixelFormat) (cellSize : Option Word)
  /-- the two-buffer `burn` (R192) -/
  | burn (a : BurnArgs)
  /-- the in-place `burn(buf, len, timecode, x, y)` (R201) -/
  | burnInPlace (buf : Option Word) (len : Nat) (time : TimeCode) (x y : Int)
  /-- the caller writes `bytes` into its own buffer at `addr` (R26, R29; log 25) -/
  | fill (addr : Word) (bytes : List Byte)
  /-- a reset while the block is idle (R240; log 24) -/
  | reset
deriving DecidableEq, Repr

/-- The whole state. `mem` and `rom` are the architectural state of the block (R20), `cfg` the Burn Engine's (R24),
`window` the length of the window lent for the current command (R41, D25). `reply` and `inputs` are the model's own
(logs 9, 11). The block is idle in every state: a command is one step (R29, R254; log 12). -/
structure State where
  mem : Memory
  rom : GlyphTable
  cfg : HostConfig
  window : Nat
  reply : Option Reply
  inputs : List HostAction
deriving DecidableEq, Repr

/-- Why a command ends at an access. -/
inductive Fault where
  /-- `Fault(OutOfWindow)`: raised by an access a byte of which lies outside the lent window or outside the address space
  (R41, R223, D7), in a `DRAW` command, the host's copy or the caller's fill. Safe: the real block would go on. -/
  | outOfWindow
  /-- Raised by `Set10` of `DRAW.P10` when a byte of the word it reads holds no value (R48, U10; log 1). Safe: a premise of
  the command is broken. -/
  | uninitialised
deriving DecidableEq, Repr

/-- Why the spec gives a descriptor or a host call no meaning. -/
inductive Refusal where
  /-- raised by `exec` for an instruction that has no meaning in this model; no instruction is left so. Safe. -/
  | notModelled (mnemonic : String)
  /-- `Refused(ReservedEncoding)`: raised by the decoder's user for `OP` 4 to 15 or `D[0][31:8]` not zero (R65, R222). Safe. -/
  | reservedEncoding
  /-- `Refused(BadCell)`: raised by `RASTER` with `CW = 0` or `CH = 0` (R84, R222). Safe. -/
  | badCell
  /-- raised by `burn` when `src` and `dst` are distinct and overlap (R245, D29; log 16). Safe. -/
  | overlappingBuffers
  /-- raised by `burn` when a cell that may be on the frame has no descriptor (R199, U24; log 17). Safe. -/
  | notEncodable
deriving DecidableEq, Repr

/-- The sixteen rows of glyph `g` as the implementation has them (R7, R86). -/
def resetGlyph (g : Fin 12) : Glyph :=
  #v[Config.glyphRom g 0, Config.glyphRom g 1, Config.glyphRom g 2, Config.glyphRom g 3,
     Config.glyphRom g 4, Config.glyphRom g 5, Config.glyphRom g 6, Config.glyphRom g 7,
     Config.glyphRom g 8, Config.glyphRom g 9, Config.glyphRom g 10, Config.glyphRom g 11,
     Config.glyphRom g 12, Config.glyphRom g 13, Config.glyphRom g 14, Config.glyphRom g 15]

/-- The Glyph Table after reset: `GLYPH_ROM` (R29). -/
def resetRom : GlyphTable :=
  #v[resetGlyph 0, resetGlyph 1, resetGlyph 2, resetGlyph 3, resetGlyph 4, resetGlyph 5,
     resetGlyph 6, resetGlyph 7, resetGlyph 8, resetGlyph 9, resetGlyph 10, resetGlyph 11]

/-- The Burn Engine's record after reset: zero geometry (R29). `format` and `cellSize` are unspecified there.
DESIGN CHOICE: `Interleaved8` and 0 (log 8). -/
def HostConfig.reset : HostConfig := { width := 0, height := 0, format := .interleaved8, cellSize := 0 }

/-- The state right after reset (R29, R240): idle, no memory touched, the Glyph Table as always, the host unconfigured, no
window lent, nothing answered yet, nothing to do until the host issues something. -/
def State.reset : State :=
  { mem := [], rom := resetRom, cfg := HostConfig.reset, window := 0, reply := none, inputs := [] }

end Sys2Proof.Machine
end

