-- ==== Sys2Proof/Machine/Ops.lean ====
section
/-! DEFINITION. The operations everything else is made of: reading and writing one byte of memory, the lent window,
`MemRead` and `MemWrite` (R44), `Set10` (R162), the accesses of a command one after another (R49), and how a command ends
(R66, R222, R223, R226). The hardware has no trap entry and no return from one (R226, R227): ending a command is all. -/
namespace Sys2Proof.Machine

/-! ### Bytes of memory -/

/-- The value the byte at `a` holds, if any. -/
def Memory.read? : Memory → Nat → Option Byte
  | [], _ => none
  | c :: m, a => if c.1 = a then some c.2 else Memory.read? m a

/-- Store `b` at `a`, keeping addresses rising. -/
def Memory.write : Memory → Nat → Byte → Memory
  | [], a, b => [(a, b)]
  | c :: m, a, b =>
    if a < c.1 then (a, b) :: c :: m
    else if c.1 = a then (a, b) :: m
    else c :: Memory.write m a b

/-- Make the byte at `a` hold no value. -/
def Memory.erase (m : Memory) (a : Nat) : Memory := m.filter fun c => c.1 != a

/-- Make the byte at `a` hold what `v` says: a value, or none. -/
def Memory.put (m : Memory) (a : Nat) (v : Option Byte) : Memory :=
  match v with
  | some b => m.write a b
  | none => m.erase a

/-! ### The window -/

/-- A window `[base, base+len)` of the frame-buffer space (R41). -/
structure Window where
  base : Nat
  len : Nat
deriving DecidableEq, Repr

/-- All `n` bytes from `a` lie inside the window and inside the address space (R41, D7). -/
def Window.covers (w : Window) (a n : Nat) : Bool :=
  w.base ≤ a && a + n ≤ w.base + w.len && a + n ≤ 2 ^ Config.addrBits

/-! ### `MemRead` and `MemWrite` -/

/-- `MemWrite(a, 1, v)` (R44), inside the window or not at all (R41). -/
def memWrite8 (w : Window) (a : Nat) (v : Byte) (m : Memory) : Except Fault Memory :=
  if w.covers a 1 then .ok (m.write a v) else .error .outOfWindow

/-- The word of four bytes, the first the least significant. Little-endian is D8's decision, kept in this function and
`wordByte` alone (R44; log 13). -/
def wordOfBytes (b0 b1 b2 b3 : Byte) : Word := b3 ++ (b2 ++ (b1 ++ b0))

/-- Byte `i` of a word in address order (R44). -/
def wordByte (v : Word) (i : Nat) : Byte := v.extractLsb' (8 * i) 8

/-- `MemRead(a, 4)` without the window: the four bytes at `a .. a+3`, if each holds a value (R44, R45, R48). -/
def Memory.readWord? (m : Memory) (a : Nat) : Option Word :=
  match m.read? a, m.read? (a + 1), m.read? (a + 2), m.read? (a + 3) with
  | some b0, some b1, some b2, some b3 => some (wordOfBytes b0 b1 b2 b3)
  | _, _, _, _ => none

/-- `MemWrite(a, 4, v)` without the window (R44, R45). -/
def Memory.writeWord (m : Memory) (a : Nat) (v : Word) : Memory :=
  (((m.write a (wordByte v 0)).write (a + 1) (wordByte v 1)).write (a + 2) (wordByte v 2)).write (a + 3) (wordByte v 3)

/-- `MemRead(a, 4)` (R44): out of the window a fault (R41); a byte that holds no value breaks the launch premise of R48. -/
def memRead32 (w : Window) (a : Nat) (m : Memory) : Except Fault Word :=
  if w.covers a 4 then
    match m.readWord? a with
    | some v => .ok v
    | none => .error .uninitialised
  else .error .outOfWindow

/-- `MemWrite(a, 4, v)` (R44), inside the window or not at all (R41). -/
def memWrite32 (w : Window) (a : Nat) (v : Word) (m : Memory) : Except Fault Memory :=
  if w.covers a 4 then .ok (m.writeWord a v) else .error .outOfWindow

/-! ### The 10-bit field of a word -/

/-- Slot `s` of a word: bits `10*s+9 .. 10*s` (R162). -/
def slotOf (v : Word) (s : Fin 3) : BitVec 10 := v.extractLsb' (p10SlotBits * s) 10

/-- The word with slot `s` replaced by `x`: the other slots and bits 31:30 stay (R162, D19). -/
def withSlot (old : Word) (s : Fin 3) (x : BitVec 10) : Word :=
  (old &&& ~~~(0x3FF#32 <<< (p10SlotBits * s.val))) ||| (x.setWidth 32 <<< (p10SlotBits * s.val))

/-- `Set10(a, s, v)` (R162): a load, then a store. -/
def set10 (w : Window) (a : Nat) (s : Fin 3) (x : BitVec 10) (m : Memory) : Except Fault Memory :=
  match memRead32 w a m with
  | .ok old => memWrite32 w a (withSlot old s x) m
  | .error f => .error f

/-- `Get10(a, s)` (R170): what a checker reads back. -/
def Memory.get10? (m : Memory) (a : Nat) (s : Fin 3) : Option (BitVec 10) :=
  (m.readWord? a).map fun v => slotOf v s

/-! ### The accesses of a command -/

/-- One access of a `DRAW` command, as the writers' rules list them (R122, R143, R164). -/
inductive Access where
  /-- `MemWrite(addr, 1, v)` -/
  | store (addr : Nat) (v : Byte)
  /-- `Set10(addr, slot, v)`: `MemRead(addr, 4)` then `MemWrite(addr, 4, _)` -/
  | setField (addr : Nat) (slot : Fin 3) (v : BitVec 10)
deriving DecidableEq, Repr

/-- The first byte an access touches. -/
def Access.addr : Access → Nat
  | .store a _ => a
  | .setField a _ _ => a

/-- How many bytes an access touches (R46). -/
def Access.size : Access → Nat
  | .store _ _ => 1
  | .setField _ _ _ => 4

/-- Perform one access in a window. -/
def Access.perform (w : Window) (m : Memory) : Access → Except Fault Memory
  | .store a v => memWrite8 w a v m
  | .setField a s v => set10 w a s v m

/-- The four ways a command ends (R66). -/
inductive Ending where
  | done
  | respond (ink : Bool)
  | refused (r : Refusal)
  | fault (f : Fault)
deriving DecidableEq, Repr

/-- What a command leaves: the memory and its ending. Nothing else of the block can change (R20). A faulted command leaves
the stores before the offending access and none after, a refused one leaves everything (R226). -/
structure Transaction where
  mem : Memory
  ending : Ending
deriving DecidableEq, Repr

/-- The accesses of a command one after another, ending at the first that cannot be performed (R41, R49, R225). -/
def runAccesses (w : Window) : List Access → Memory → Transaction
  | [], m => { mem := m, ending := .done }
  | x :: xs, m =>
    match x.perform w m with
    | .ok m' => runAccesses w xs m'
    | .error f => { mem := m, ending := .fault f }

/-- A command's transaction as an outcome of the machine: an answer is the next state's reply (R66); a refusal or a fault
ends the run (R222, R223; log 23). -/
def conclude (s : State) (t : Transaction) : Host.Outcome State Fault Refusal :=
  match t.ending with
  | .done => .next { s with mem := t.mem, reply := some .done }
  | .respond b => .next { s with mem := t.mem, reply := some (.respond b) }
  | .refused r => .refused r
  | .fault f => .fault f

end Sys2Proof.Machine
end

