-- ==== Sys2Proof/Machine/Operands.lean ====
section
/-! DEFINITION. Operand assembly (R62): every operand as a mathematical integer, the glyph a command names (R64), the cell,
its screen coordinates and the pixels a writer visits (R11, R101, R102), and the window a command may touch (R41). -/
namespace Sys2Proof.Machine

/-- A target pixel of a cell: `x` columns from the left, `y` rows from the top (R11). -/
structure Pixel where
  x : Nat
  y : Nat
deriving DecidableEq, Repr

/-- The glyph an index names: 0 to 11 a bitmap of the table, 12 to 15 "no glyph" (R64, R80). -/
def glyph? (g : BitVec 4) : Option (Fin 12) :=
  if h : g.toNat < 12 then some ⟨g.toNat, h⟩ else none

end Sys2Proof.Machine

namespace Sys2Proof

/-- `d.X0`, signed (R62). -/
def DrawArgs.X0 (a : DrawArgs) : Int := a.x0.toInt

/-- `d.Y0`, signed (R62). -/
def DrawArgs.Y0 (a : DrawArgs) : Int := a.y0.toInt

/-- `d.CW`, unsigned (R62). -/
def DrawArgs.CW (a : DrawArgs) : Nat := a.cw.toNat

/-- `d.CH`, unsigned (R62). -/
def DrawArgs.CH (a : DrawArgs) : Nat := a.ch.toNat

/-- `d.WIDTH`, unsigned (R62). -/
def DrawArgs.W (a : DrawArgs) : Nat := a.width.toNat

/-- `d.HEIGHT`, unsigned (R62). -/
def DrawArgs.H (a : DrawArgs) : Nat := a.height.toNat

/-- `B = d.BASE`, unsigned (R62). -/
def DrawArgs.B (a : DrawArgs) : Nat := a.base.toNat

/-- `[lo, hi)` as naturals, empty when `hi ≤ lo`. -/
def intRange (lo hi : Int) : List Nat := List.range' lo.toNat (hi.toNat - lo.toNat)

/-- The visited columns of the cell: `max(0, -X0) <= x < min(cw, W - X0)` (R101). -/
def DrawArgs.cols (a : DrawArgs) : List Nat := intRange (max 0 (-a.X0)) (min a.CW (a.W - a.X0))

/-- The visited rows of the cell: `max(0, -Y0) <= y < min(ch, H - Y0)` (R101). -/
def DrawArgs.rows (a : DrawArgs) : List Nat := intRange (max 0 (-a.Y0)) (min a.CH (a.H - a.Y0))

/-- `Visits(d)` in the reference order: rows from the top, in each row columns from the left (R101, R104). -/
def DrawArgs.visits (a : DrawArgs) : List Machine.Pixel :=
  a.rows.flatMap fun y => a.cols.map fun x => { x := x, y := y }

/-- `sx = X0 + x`, for a visited pixel a natural number (R11, R101). -/
def DrawArgs.sx (a : DrawArgs) (p : Machine.Pixel) : Nat := (a.X0 + p.x).toNat

/-- `sy = Y0 + y`, for a visited pixel a natural number (R11, R101). -/
def DrawArgs.sy (a : DrawArgs) (p : Machine.Pixel) : Nat := (a.Y0 + p.y).toNat

/-- The screen pixel `(sx, sy)` is on the frame and in the cell (R101, R102). -/
def DrawArgs.shows (a : DrawArgs) (sx sy : Nat) : Bool :=
  sx < a.W && sy < a.H && a.X0 ≤ sx && sx < a.X0 + a.CW && a.Y0 ≤ sy && sy < a.Y0 + a.CH

/-- The window of a `DRAW` command: `[BASE, BASE+LEN)`, `LEN` being the host's (R41, D25). -/
def DrawArgs.windowIn (a : DrawArgs) (s : Machine.State) : Machine.Window := { base := a.B, len := s.window }

end Sys2Proof
end

