-- ==== Sys2Proof/Machine/Rasterizer.lean ====
section
/-! DEFINITION. The glyph_rasterizer: the Glyph Table read, the nearest-neighbour mapping, the ink of a target pixel, and
the command `RASTER` (R80 to R84). -/
namespace Sys2Proof.Machine

/-- `Rom(g, r)`, row `r` of glyph `g` (R25, R81). -/
def romRow (rom : GlyphTable) (g : Fin 12) (r : Fin 16) : Byte := rom[g][r]

/-- `SrcRow(y, ch) = min(15, floor(y * 16 / ch))` (R82). -/
def srcRow (y ch : Nat) : Nat := min (glyphH - 1) (y * glyphH / ch)

/-- `SrcCol(x, cw) = min(7, floor(x * 8 / cw))` (R82). -/
def srcCol (x cw : Nat) : Nat := min (glyphW - 1) (x * glyphW / cw)

/-- The source row names a row of the table: the clamp of R82. -/
theorem srcRow_lt (y ch : Nat) : srcRow y ch < 16 := by
  unfold srcRow glyphH; omega

/-- `Ink(g, cw, ch, x, y) = Rom(g, SrcRow(y, ch))[7 - SrcCol(x, cw)]`: bit 7 is the leftmost pixel, a set bit is ink
(R83, R81). -/
def ink (rom : GlyphTable) (g : Fin 12) (cw ch x y : Nat) : Bool :=
  (romRow rom g ⟨srcRow y ch, srcRow_lt y ch⟩).getLsbD (7 - srcCol x cw)

/-- The transaction of `RASTER` after its encoding check (R84, R225): the contract "both ≥ 1", then "no glyph" has no ink,
then the ink value. No memory is touched. -/
def rasterTransaction (a : RasterArgs) (s : State) : Transaction :=
  if a.cw.toNat = 0 ∨ a.ch.toNat = 0 then { mem := s.mem, ending := .refused .badCell }
  else
    match glyph? a.glyph with
    | none => { mem := s.mem, ending := .respond false }
    | some g => { mem := s.mem, ending := .respond (ink s.rom g a.cw.toNat a.ch.toNat a.px.toNat a.py.toNat) }

/-- `RASTER g, cw, ch, px, py`: return one ink value (R84). -/
def execRaster (a : RasterArgs) (s : State) : Host.Outcome State Fault Refusal := conclude s (rasterTransaction a s)

end Sys2Proof.Machine
end

