-- ==== Sys2Proof/Machine/WriterCommon.lean ====
section
/-! DEFINITION. What the three format plane writers share: the sample values (R103), `DrawCell` (R108) over any visit order
(R104), and the order the model gives a command. -/
namespace Sys2Proof.Machine

/-- `Luma8(k)` (R103). -/
def luma8 (k : Bool) : Byte := if k then y8Fg else y8Bg

/-- `Luma10(k)` (R103). -/
def luma10 (k : Bool) : BitVec 10 := if k then y10Fg else y10Bg

/-- The ink of a pixel of the cell of `a`, for glyph `g` (R83, R108). -/
def cellInk (rom : GlyphTable) (g : Fin 12) (a : DrawArgs) (p : Pixel) : Bool := ink rom g a.CW a.CH p.x p.y

/-- `WritePixel(sx, sy, k)` of a format, as the accesses of one visit in order (R122, R143, R164). -/
abbrev WritePixel := DrawArgs → Nat → Nat → Bool → List Access

/-- The accesses of the visits of `order`, one visit after another (R49, R108). -/
def cellAccesses (writePixel : WritePixel) (rom : GlyphTable) (g : Fin 12) (a : DrawArgs) (order : List Pixel) : List Access :=
  order.flatMap fun p => writePixel a (a.sx p) (a.sy p) (cellInk rom g a p)

/-- `DrawCell` after its encoding check, visiting the pixels of `order` (R108): with no glyph nothing is drawn (R64). -/
def drawCell (writePixel : WritePixel) (order : List Pixel) (a : DrawArgs) (s : State) : Transaction :=
  match glyph? a.glyph with
  | none => { mem := s.mem, ending := .done }
  | some g => runAccesses (a.windowIn s) (cellAccesses writePixel s.rom g a order) s.mem

/-- `VISIT_ORDER` left open (R104): the visits sorted by the implementation's free rank, equal ranks in the reference order
(logs 2, 3). -/
def freeOrder (a : DrawArgs) : List Pixel :=
  a.visits.insertionSort fun p q => Config.visitRank a p.x p.y ≤ Config.visitRank a q.x q.y

end Sys2Proof.Machine
end

