-- ==== Sys2Proof/Machine/Interleaved8.lean ====
section
/-! DEFINITION. The interleaved_8bit_writer and its command `DRAW.I8` (R120 to R127). -/
namespace Sys2Proof.Machine

/-- `grp`: the offset of the 4-byte group of the pixel, chosen by its linear index (R121, C1). -/
def i8Group (a : DrawArgs) (sx sy : Nat) : Nat := (sy * a.W + sx) / 2 * i8GroupBytes

/-- `LumaOff`: the byte in the group is chosen by the parity of the column alone (R121, C1). -/
def i8LumaOff (a : DrawArgs) (sx sy : Nat) : Nat := i8Group a sx sy + (if sx % 2 = 0 then 1 else 3)

/-- `Chroma1` (R121). -/
def i8Chroma1 (a : DrawArgs) (sx sy : Nat) : Nat := i8Group a sx sy

/-- `Chroma2` (R121). -/
def i8Chroma2 (a : DrawArgs) (sx sy : Nat) : Nat := i8Group a sx sy + 2

/-- `WritePixel_I8` (R122): three byte stores, no load. -/
def writePixelI8 : WritePixel := fun a sx sy k =>
  [ .store (a.B + i8LumaOff a sx sy) (luma8 k),
    .store (a.B + i8Chroma1 a sx sy) c8Neutral,
    .store (a.B + i8Chroma2 a sx sy) c8Neutral ]

/-- The one case in which the visit order shows in the memory left (R109, R125 item 3): the width is odd and the cell shows
both the last pixel of an even frame row and the first pixel of the next row. -/
def i8Collides (a : DrawArgs) : Bool :=
  a.W % 2 == 1 && a.rows.any fun y =>
    let sy := (a.Y0 + y).toNat
    sy % 2 == 0 && a.shows (a.W - 1) sy && a.shows 0 (sy + 1)

/-- The visit order of a `DRAW.I8`: free where it can show; elsewhere the reference order stands for every order, as R109
allows (R104; log 2). -/
def i8Order (a : DrawArgs) : List Pixel := if i8Collides a then freeOrder a else a.visits

/-- The transaction of `DRAW.I8` (R123). -/
def drawI8Transaction (a : DrawArgs) (s : State) : Transaction := drawCell writePixelI8 (i8Order a) a s

/-- `DRAW.I8 g, x0, y0, cw, ch, W, H, base`: draw one glyph cell into an Interleaved8 buffer (R123). -/
def execDrawI8 (a : DrawArgs) (s : State) : Host.Outcome State Fault Refusal := conclude s (drawI8Transaction a s)

end Sys2Proof.Machine
end

