-- ==== Sys2Proof/Machine/Packed10.lean ====
section
/-! DEFINITION. The packed_10bit_writer and its command `DRAW.P10` (R160 to R171). -/
namespace Sys2Proof.Machine

/-- `ceil(W / 6)`: blocks of a scan line (R160, R161). -/
def p10Blocks (width : Nat) : Nat := (width + 5) / p10BlockPixels

/-- `S`: the scan-line stride in bytes (R161). -/
def p10Stride (width : Nat) : Nat := p10Blocks width * (p10BlockWords * p10WordBytes)

/-- `WordOff(w)`: the offset of word `w` of the pixel's block (R161). -/
def p10WordOff (a : DrawArgs) (sx sy : Nat) (w : Fin 4) : Nat :=
  sy * p10Stride a.W + sx / p10BlockPixels * (p10BlockWords * p10WordBytes) + w * p10WordBytes

/-- `pos`: the position of the pixel within its block (R161). -/
def p10Pos (sx : Nat) : Fin 6 := ⟨sx % 6, Nat.mod_lt _ (by decide)⟩

/-- A (word, slot) pair of the packing table (R163). -/
structure WordSlot where
  word : Fin 4
  slot : Fin 3
deriving DecidableEq, Repr

/-- `LumaWS`, the luma column of the table (R163). -/
def lumaTable : Vector WordSlot 6 := #v[⟨0, 1⟩, ⟨1, 0⟩, ⟨1, 2⟩, ⟨2, 1⟩, ⟨3, 0⟩, ⟨3, 2⟩]

/-- `C1WS`, the chroma sample 1 column: pairs A, B, C for positions 0/1, 2/3, 4/5 (R163). -/
def chroma1Table : Vector WordSlot 6 := #v[⟨0, 0⟩, ⟨0, 0⟩, ⟨1, 1⟩, ⟨1, 1⟩, ⟨2, 2⟩, ⟨2, 2⟩]

/-- `C2WS`, the chroma sample 2 column (R163). -/
def chroma2Table : Vector WordSlot 6 := #v[⟨0, 2⟩, ⟨0, 2⟩, ⟨2, 0⟩, ⟨2, 0⟩, ⟨3, 1⟩, ⟨3, 1⟩]

/-- `LumaWS(pos)` of the pixel in column `sx` (R163). -/
def lumaWS (sx : Nat) : WordSlot := lumaTable[p10Pos sx]

/-- `C1WS(pos)` of the pixel in column `sx` (R163). -/
def chroma1WS (sx : Nat) : WordSlot := chroma1Table[p10Pos sx]

/-- `C2WS(pos)` of the pixel in column `sx` (R163). -/
def chroma2WS (sx : Nat) : WordSlot := chroma2Table[p10Pos sx]

/-- The address of the word a (word, slot) pair of the pixel's block names (R164). -/
def p10Addr (a : DrawArgs) (sx sy : Nat) (ws : WordSlot) : Nat := a.B + p10WordOff a sx sy ws.word

/-- `WritePixel_P10` (R164): three read-modify-writes, one field each. -/
def writePixelP10 : WritePixel := fun a sx sy k =>
  [ .setField (p10Addr a sx sy (lumaWS sx)) (lumaWS sx).slot (luma10 k),
    .setField (p10Addr a sx sy (chroma1WS sx)) (chroma1WS sx).slot c10Neutral,
    .setField (p10Addr a sx sy (chroma2WS sx)) (chroma2WS sx).slot c10Neutral ]

/-- The transaction of `DRAW.P10` (R165): the reference order stands for every order (R109 case (b); log 2). -/
def drawP10Transaction (a : DrawArgs) (s : State) : Transaction := drawCell writePixelP10 a.visits a s

/-- `DRAW.P10 g, x0, y0, cw, ch, W, H, base`: draw one glyph cell into a Packed10 buffer (R165). -/
def execDrawP10 (a : DrawArgs) (s : State) : Host.Outcome State Fault Refusal := conclude s (drawP10Transaction a s)

end Sys2Proof.Machine
end

