-- ==== Sys2Proof/Machine/Planar8.lean ====
section
/-! DEFINITION. The planar_8bit_writer and its command `DRAW.P8` (R140 to R149). -/
namespace Sys2Proof.Machine

/-- `LumaIdx`: the offset inside the luma plane, which starts at offset 0 (R141, R142). -/
def p8LumaIdx (a : DrawArgs) (sx sy : Nat) : Nat := sy * a.W + sx

/-- `ChromaIdx`: the offset inside each chroma plane, whose row stride is `floor(W / 2)` (R141). -/
def p8ChromaIdx (a : DrawArgs) (sx sy : Nat) : Nat := sy * (a.W / 2) + sx / 2

/-- `C1`: the start of chroma plane 1 (R142, D10; log 14). -/
def p8C1 (a : DrawArgs) : Nat := a.W * a.H

/-- `C2`: the start of chroma plane 2 (R142, D10; log 14). -/
def p8C2 (a : DrawArgs) : Nat := a.W * a.H + a.W * a.H / 2

/-- `WritePixel_P8` (R143): three byte stores, no load. -/
def writePixelP8 : WritePixel := fun a sx sy k =>
  [ .store (a.B + p8LumaIdx a sx sy) (luma8 k),
    .store (a.B + p8C1 a + p8ChromaIdx a sx sy) c8Neutral,
    .store (a.B + p8C2 a + p8ChromaIdx a sx sy) c8Neutral ]

/-- The transaction of `DRAW.P8` (R144): the reference order stands for every order (R109 case (a); log 2). -/
def drawP8Transaction (a : DrawArgs) (s : State) : Transaction := drawCell writePixelP8 a.visits a s

/-- `DRAW.P8 g, x0, y0, cw, ch, W, H, base`: draw one glyph cell into a Planar8 buffer (R144). -/
def execDrawP8 (a : DrawArgs) (s : State) : Host.Outcome State Fault Refusal := conclude s (drawP8Transaction a s)

end Sys2Proof.Machine
end

