-- ==== Sys2Proof/Machine/Dispatch.lean ====
section
/-! DEFINITION. One arm per command of the block (R63). -/
namespace Sys2Proof.Machine

def exec (i : Instr) (s : State) : Host.Outcome State Fault Refusal :=
  match i with
  | .raster a => Sys2Proof.Machine.execRaster a s
  | .drawI8 a => Sys2Proof.Machine.execDrawI8 a s
  | .drawP8 a => Sys2Proof.Machine.execDrawP8 a s
  | .drawP10 a => Sys2Proof.Machine.execDrawP10 a s

end Sys2Proof.Machine
end

