-- ==== Sys2Proof/Machine/BurnEngine.lean ====
section
/-! DEFINITION. The host of the block, the Burn Engine: `configure`, `burn` and the in-place `burn` (R190 to R202), with the
sizes, the label and the command sequence they compute. -/
namespace Sys2Proof.Machine

/-! ### Sizes -/

/-- `ExpectedSize(fmt, W, H)` in bytes (R42). -/
def expectedSize (fmt : PixelFormat) (w h : Nat) : Nat :=
  match fmt with
  | .interleaved8 => w * h * 2
  | .planar8 => w * h * 2
  | .packed10 => p10Stride w * h

/-- `ch`: the cell height is the font size (R191). -/
def HostConfig.cellHeight (c : HostConfig) : Nat := c.cellSize.toNat

/-- `cw`: half the font size, at least 1 (R191). -/
def HostConfig.cellWidth (c : HostConfig) : Nat := max 1 (c.cellSize.toNat / 2)

/-- `E`: the expected size of the configured geometry and format (R195). -/
def HostConfig.frameSize (c : HostConfig) : Nat := expectedSize c.format c.width c.height

/-! ### The label -/

/-- `Dec(n)`: decimal digits without leading zeros, `Dec(0) = "0"` (R197). -/
def dec (n : Nat) : List Char := Nat.toDigits 10 n

/-- `Pad2(n)` (R197). -/
def pad2 (n : Nat) : List Char := if n < 10 then '0' :: dec n else dec n

/-- The label `HH:MM:SS.D` (R197). -/
def label (t : TimeCode) : List Char :=
  pad2 t.hour ++ ':' :: (pad2 t.minute ++ ':' :: (pad2 t.second ++ '.' :: dec t.decimal))

/-- The symbols that have a glyph, in index order (R64, R198). -/
def glyphSymbols : List Char := ['0', '1', '2', '3', '4', '5', '6', '7', '8', '9', ':', '.']

/-- `GlyphIndex(c)`, none for an unrecognised character (R198). -/
def glyphIndex (c : Char) : Option (BitVec 4) := (glyphSymbols.idxOf? c).map (BitVec.ofNat 4)

/-! ### The commands of a burn -/

/-- `DRAW.<format>` (R199). -/
def formatCommand (fmt : PixelFormat) (a : DrawArgs) : Instr :=
  match fmt with
  | .interleaved8 => .drawI8 a
  | .planar8 => .drawP8 a
  | .packed10 => .drawP10 a

/-- The value fits a signed 32-bit field (R199). -/
def fitsSigned (v : Int) : Bool := -2 ^ 31 ≤ v && v < 2 ^ 31

/-- No pixel of the cell at `(cx, y)` is on the frame, so its command would write nothing (R199, R101). -/
def cellOffFrame (c : HostConfig) (cx y : Int) : Bool :=
  cx + c.cellWidth ≤ 0 || c.width ≤ cx || y + c.cellHeight ≤ 0 || c.height ≤ y

/-- The position and the geometry fit the fields of a descriptor (R199, R61). -/
def cellEncodable (c : HostConfig) (cx y : Int) : Bool :=
  fitsSigned cx && fitsSigned y && c.width < 2 ^ 32 && c.height < 2 ^ 32

/-- The command for glyph `g` at `(cx, y)`: omitted where no descriptor expresses it and the cell is off the frame, refused
where the cell may show (R199, D7, U24; log 17). -/
def cellCommand (c : HostConfig) (dst : Word) (y cx : Int) (g : BitVec 4) : Except Refusal (List Instr) :=
  if cellEncodable c cx y then
    .ok [formatCommand c.format
      { glyph := g, x0 := .ofInt 32 cx, y0 := .ofInt 32 y, cw := .ofNat 32 c.cellWidth, ch := .ofNat 32 c.cellHeight,
        width := .ofNat 32 c.width, height := .ofNat 32 c.height, base := dst }]
  else if cellOffFrame c cx y then .ok []
  else .error .notEncodable

/-- The glyph-cell loop from the cursor `cx` on: one command for each recognised character, the cursor advancing one cell
width for every character (R199). -/
def labelCommands (c : HostConfig) (dst : Word) (y : Int) : Int → List Char → Except Refusal (List Instr)
  | _, [] => .ok []
  | cx, ch :: rest =>
    match labelCommands c dst y (cx + c.cellWidth) rest with
    | .error r => .error r
    | .ok later =>
      match glyphIndex ch with
      | none => .ok later
      | some g =>
        match cellCommand c dst y cx g with
        | .ok now => .ok (now ++ later)
        | .error r => .error r

/-- Issue commands one after another, waiting for each to end (R199, R247). -/
def runCommands : List Instr → State → Host.Outcome State Fault Refusal
  | [], s => .next s
  | i :: rest, s =>
    match exec i s with
    | .next t => runCommands rest t
    | .fault f => .fault f
    | .refused r => .refused r

/-! ### The copy step -/

/-- `MEM[dst + i] <- MEM[src + i]` (R196), inside both buffers (R244, U25). A byte that holds no value is copied as one that
holds none (log 19). -/
def copyByte (src dst : Window) (i : Nat) (m : Memory) : Except Fault Memory :=
  if src.covers (src.base + i) 1 && dst.covers (dst.base + i) 1 then
    .ok (m.put (dst.base + i) (m.read? (src.base + i)))
  else .error .outOfWindow

/-- The copy of the first `n` bytes, in rising order (R196). -/
def copyBytes (src dst : Window) : Nat → Memory → Except Fault Memory
  | 0, m => .ok m
  | n + 1, m =>
    match copyBytes src dst n m with
    | .ok m' => copyByte src dst n m'
    | .error f => .error f

/-! ### The operations -/

/-- The state in which the host has been answered a status. -/
def State.answer (s : State) (st : Status) : State := { s with reply := some (.status st) }

/-- The place of a status in the spec's list of them (R200). It is no code. -/
def statusPlace : Status → Nat
  | .success => 0
  | .invalidArgument => 1
  | .notConfigured => 2
  | .bufferTooSmall => 3

/-- `STATUS_CODES`, the number of a status: an open injective map (R200, R221, D20; log 7). -/
def statusCode (st : Status) : Nat := Config.statusNumbering (statusPlace st)

/-- The number the host's software reads when the last answer is a status (R192, R221). -/
def State.codeSeen (s : State) : Option Nat :=
  match s.reply with
  | some (.status st) => some (statusCode st)
  | _ => none

/-- `configure`: replaces the whole record at once, always succeeds, touches no buffer (R190). -/
def configure (width height : Nat) (format : PixelFormat) (cellSize : Option Word) (s : State) : State :=
  State.answer
    { s with cfg := { width := width, height := height, format := format, cellSize := cellSize.getD defaultCellSize } }
    .success

/-- Two distinct buffers share a byte (R204, R245). -/
def Window.overlaps (v w : Window) : Bool := max v.base w.base < min (v.base + v.len) (w.base + w.len)

/-- Steps 4 to 7 of `burn`, past validation: copy, label, commands, success (R196 to R200). -/
def burnValidated (src dst : Window) (dstAddr : Word) (a : BurnArgs) (s : State) : Host.Outcome State Fault Refusal :=
  if src.base ≠ dst.base ∧ src.overlaps dst then .refused .overlappingBuffers
  else
    match labelCommands s.cfg dstAddr a.y a.x (label a.time) with
    | .error r => .refused r
    | .ok commands =>
      match (if src.base = dst.base then .ok s.mem else copyBytes src dst s.cfg.frameSize s.mem) with
      | .error f => .fault f
      | .ok m =>
        match runCommands commands { s with mem := m, window := dst.len } with
        | .next t => .next (t.answer .success)
        | .fault f => .fault f
        | .refused r => .refused r

/-- `burn(src, srcLen, dst, timecode, x, y)` (R192): pointers, geometry, size, each checked before anything is written
(R193, R194, R195, R202, R225), then the burn itself. -/
def burn (a : BurnArgs) (s : State) : Host.Outcome State Fault Refusal :=
  match a.src, a.dst with
  | some src, some dst =>
    if s.cfg.width = 0 ∨ s.cfg.height = 0 then .next (s.answer .notConfigured)
    else if a.srcLen < s.cfg.frameSize then .next (s.answer .bufferTooSmall)
    else burnValidated { base := src.toNat, len := a.srcLen } { base := dst.toNat, len := a.dstLen } dst a s
  | _, _ => .next (s.answer .invalidArgument)

/-- The in-place form: `src = dst = buf`, no copy, the declared length being the buffer's own (R201). -/
def burnInPlace (buf : Option Word) (len : Nat) (time : TimeCode) (x y : Int) (s : State) : Host.Outcome State Fault Refusal :=
  burn { src := buf, srcLen := len, dst := buf, dstLen := len, time := time, x := x, y := y } s

end Sys2Proof.Machine
end

