-- ==== Sys2Proof/Machine/HostPort.lean ====
section
/-! DEFINITION. What the outside world does to the machine between commands (R204): it presents a descriptor with a window,
calls an operation of the Burn Engine, writes its own buffer, or resets the idle block. -/
namespace Sys2Proof.Machine

/-- The block takes a descriptor by value, with the window the host lends (R41, R53, R66), and runs the command it encodes;
a reserved encoding is refused with no access (R65, R222). -/
def issue (d : Descriptor) (len : Nat) (s : State) : Host.Outcome State Fault Refusal :=
  match decode d with
  | .ok i => exec i { s with window := len }
  | .error _ => .refused .reservedEncoding

/-- The transaction of a command under a given visit order for the `DRAW` commands: what it leaves in memory in every one
of its four endings (R66, R226), with the order a parameter (R104). -/
def transaction (order : List Pixel) (i : Instr) (s : State) : Transaction :=
  match i with
  | .raster a => rasterTransaction a s
  | .drawI8 a => drawCell writePixelI8 order a s
  | .drawP8 a => drawCell writePixelP8 order a s
  | .drawP10 a => drawCell writePixelP10 order a s

/-- The transaction of a presented descriptor: a reserved encoding is refused with no access, first of all checks
(R65, R225, R226). -/
def commandTransaction (order : List Pixel) (d : Descriptor) (s : State) : Transaction :=
  match decode d with
  | .ok i => transaction order i s
  | .error _ => { mem := s.mem, ending := .refused .reservedEncoding }

/-- The block after any of the four endings: idle, holding nothing of the command but the stores it performed, ready for
the next one (R226, R66). An ending that is no answer latches no reply. -/
def State.afterEnding (s : State) (t : Transaction) : State :=
  match t.ending with
  | .done => { s with mem := t.mem, reply := some .done }
  | .respond b => { s with mem := t.mem, reply := some (.respond b) }
  | .refused _ => { s with mem := t.mem, reply := none }
  | .fault _ => { s with mem := t.mem, reply := none }

/-- The caller writes bytes one after another into its own buffer `[addr, addr + n)` (R26, R29; log 25). -/
def fillBytes (w : Window) : Nat → List Byte → Memory → Except Fault Memory
  | _, [], m => .ok m
  | a, b :: rest, m =>
    match memWrite8 w a b m with
    | .ok m' => fillBytes w (a + 1) rest m'
    | .error f => .error f

/-- The caller's fill of a buffer. -/
def fill (addr : Word) (bytes : List Byte) (s : State) : Host.Outcome State Fault Refusal :=
  match fillBytes { base := addr.toNat, len := bytes.length } addr.toNat bytes s.mem with
  | .ok m => .next { s with mem := m }
  | .error f => .fault f

/-- A reset while the block is idle: memory and the Glyph Table stay, the block holds nothing, the host is unconfigured
(R29, R240, D16; log 24). -/
def resetIdle (s : State) : State := { s with cfg := HostConfig.reset, window := 0, reply := none }

/-- One thing the host does. -/
def perform (x : HostAction) (s : State) : Host.Outcome State Fault Refusal :=
  match x with
  | .command d len => issue d len s
  | .configure w h f c => .next (configure w h f c s)
  | .burn a => burn a s
  | .burnInPlace buf len t x y => burnInPlace buf len t x y s
  | .fill a bs => fill a bs s
  | .reset => .next (resetIdle s)

/-- The state in which the host presents descriptor `d` next, with the window the state already lends. -/
def State.present (s : State) (d : Descriptor) : State := { s with inputs := .command d s.window :: s.inputs }

end Sys2Proof.Machine
end

