-- ==== Sys2Proof/Machine/Step.lean ====
section
/-! DEFINITION. One step: the next thing the host does, to completion (R22, R247, R254). -/
namespace Sys2Proof.Machine

/-- One step. With nothing to do the block stays idle (R240). -/
def step (s : State) : Host.Outcome State Fault Refusal :=
  match s.inputs with
  | [] => .next s
  | x :: rest => perform x { s with inputs := rest }

/-- The state in which the next step takes the descriptor whose low `nbits` bits are those of `w` (the others 0), with the
window the state already lends (log 9). -/
def State.withFetchWord (s : State) (nbits w : Nat) : State := s.present (tableDescriptor nbits w)

end Sys2Proof.Machine
end

