-- ==== Sys2Proof/Safety.lean ====
section
/-! DEFINITION. What a safe state and a safe command are, in the terms the statements use. -/
namespace Sys2Proof.Machine

/-- The invariant of the machine: memory is in canonical form and lists only addresses that exist (R40). -/
abbrev Inv (s : State) : Prop := s.mem.wf = true ∧ s.mem.inSpace = true

/-- A command left the Glyph Table, the host's record, the lent window and the host's script as they were (R20). -/
abbrev sameContext (s t : State) : Prop :=
  t.rom = s.rom ∧ t.cfg = s.cfg ∧ t.window = s.window ∧ t.inputs = s.inputs

/-- The command ran to its end. -/
def Completes (o : Host.Outcome State Fault Refusal) : Prop := ∃ t, o = .next t

/-- Every byte from `a` on, `n` of them, holds a value (R48). -/
def Memory.initialised (m : Memory) (a n : Nat) : Prop := ∀ i, i < n → (m.read? (a + i)).isSome = true

/-- The launch premises of a `DRAW` command into a buffer of `n` bytes, as a conforming host sets them up (R243): the
buffer lies in the window and in the address space, and every byte of it holds a value. -/
def LaunchPremise (n : Nat) (a : DrawArgs) (s : State) : Prop :=
  n ≤ s.window ∧ a.B + n ≤ 2 ^ Config.addrBits ∧ s.mem.initialised a.B n

/-- A visit order: each visited pixel exactly once (R104). -/
abbrev VisitOrder (a : DrawArgs) (order : List Pixel) : Prop := order.Perm a.visits

/-- The number a list of decimal digits stands for. -/
def decimalValue (cs : List Char) : Nat := cs.foldl (fun v c => 10 * v + (c.toNat - '0'.toNat)) 0

/-- `cs` is the decimal representation of `n` without leading zeros, "0" for 0 (R197). -/
def IsDecimal (n : Nat) (cs : List Char) : Prop :=
  cs.all Char.isDigit = true ∧ decimalValue cs = n ∧ (cs = ['0'] ∨ (cs ≠ [] ∧ cs.head? ≠ some '0'))

/-- The character cells of a label of `n` characters at `(x, y)` are each one a descriptor can express, or off the frame,
where the host may leave the command out (R199, D7; log 17). -/
def LabelExpressible (c : HostConfig) (x y : Int) (n : Nat) : Prop :=
  ∀ i, i < n → cellEncodable c (x + i * c.cellWidth) y = true ∨ cellOffFrame c (x + i * c.cellWidth) y = true

/-- The screen pixel `(sx, sy)` is on the frame and in the rectangle of a label of `n` characters at `(x, y)` (R205). -/
def OnLabel (c : HostConfig) (x y : Int) (n sx sy : Nat) : Prop :=
  sx < c.width ∧ sy < c.height ∧ x ≤ sx ∧ (sx : Int) < x + n * c.cellWidth ∧ y ≤ sy ∧ (sy : Int) < y + c.cellHeight

/-- The glyph and the pixel `(px, py)` of its cell that a label shows at the screen pixel `(sx, sy)`: the cell of character
`i` begins `i` cell widths right of `x` (R198, R199). -/
def LabelShows (c : HostConfig) (x y : Int) (time : TimeCode) (sx sy : Nat) (g : Fin 12) (px py : Nat) : Prop :=
  ∃ (i : Nat) (ch : Char) (index : BitVec 4), (label time)[i]? = some ch ∧ glyphIndex ch = some index ∧ glyph? index = some g ∧
    px < c.cellWidth ∧ py < c.cellHeight ∧ sx < c.width ∧ sy < c.height ∧
    (sx : Int) = x + i * c.cellWidth + px ∧ (sy : Int) = y + py

/-- The address of a word of the packed block of screen pixel `(sx, sy)`, in a frame of width `w` at `buf` (R161). -/
def packedWordAddr (buf w sx sy : Nat) (ws : WordSlot) : Nat := buf + (sy * p10Stride w + sx / 6 * 16 + 4 * ws.word)

/-- The machine never faults or refuses in the next `k` steps. -/
def SafeFor : Nat → State → Prop
  | 0, _ => True
  | k + 1, s => ∃ t, step s = .next t ∧ SafeFor k t

end Sys2Proof.Machine
end

