-- ==== Sys2Proof/Certificates/Slice0/Obligations.lean ====
section
/-! DEFINITION. The statements about the model, each a definition of a proposition. `a.B`, `a.W`, `a.H`, `a.X0`, `a.Y0`,
`a.CW`, `a.CH` are the operands of a `DRAW` as integers (R62); `a.visits` its visited pixels; `a.sx p`, `a.sy p` the screen
coordinates of a visited pixel. -/

open Sys2Proof Sys2Proof.Machine

/-! ### Encoding -/

/-- Descriptors written out word by word in the spec (30_encoding.md section 3, 95_test_vectors.md V29 and P2) decode to the
commands they stand for. The encoding is the spec's decision D3, D4. -/
def Obligations.SpecDescriptorsDecode : Prop :=
  decode { d0 := 0x00000011, d1 := 0x10000000, d2 := 0x00000780, d3 := 0x00000438, d4 := 0x00000064, d5 := 0x00000064,
           d6 := 0x00000020, d7 := 0x00000040 } =
    .ok (.drawI8 { glyph := 1, x0 := 100, y0 := 100, cw := 32, ch := 64, width := 1920, height := 1080,
                   base := 0x10000000 }) ∧
  decode { d0 := 0x000000A3, d1 := 0, d2 := 0x00000780, d3 := 0x00000438, d4 := 0xFFFFFC18, d5 := 0xFFFFFFFD,
           d6 := 0x20, d7 := 0x40 } =
    .ok (.drawP10 { glyph := 10, x0 := BitVec.ofInt 32 (-1000), y0 := BitVec.ofInt 32 (-3), cw := 32, ch := 64,
                    width := 1920, height := 1080, base := 0 }) ∧
  decode { d0 := 0x000000A0, d1 := 0, d2 := 0, d3 := 0, d4 := 3, d5 := 1, d6 := 4, d7 := 2 } =
    .ok (.raster { glyph := 10, cw := 4, ch := 2, px := 3, py := 1 }) ∧
  decode { d0 := 0x00000012, d1 := 0, d2 := 4, d3 := 2, d4 := 1, d5 := 0, d6 := 2, d7 := 2 } =
    .ok (.drawP8 { glyph := 1, x0 := 1, y0 := 0, cw := 2, ch := 2, width := 4, height := 2, base := 0 })

/-- Decoding an encoded command gives the command back, with every operand at every value. The encoding is the spec's
decision D3, D4. -/
def Obligations.DecodeInvertsEncode : Prop := ∀ i : Instr, decode (encode i) = .ok i

/-- A descriptor that decodes is the encoding of what it decodes to; only the three words `RASTER` ignores are
lost, and they are encoded as zeros (log 29). The encoding is the spec's decision D3, D4. -/
def Obligations.EncodeInvertsDecode : Prop :=
  ∀ (d : Descriptor) (i : Instr), decode d = .ok i →
    encode i = if d.op = 0 then { d with d1 := 0, d2 := 0, d3 := 0 } else d

/-- A descriptor with `OP` in 4 to 15 or with any of `D[0][31:8]` non-zero is refused; every other one decodes. This is the
spec's decision D15. -/
def Obligations.ReservedDescriptorsAreRefused : Prop :=
  ∀ (d : Descriptor) (len : Nat) (rest : List HostAction) (s : State), s.inputs = .command d len :: rest →
    ((4 ≤ d.d0.toNat % 16 ∨ d.d0.toNat / 256 ≠ 0) → step s = .refused .reservedEncoding) ∧
    ((d.d0.toNat % 16 < 4 ∧ d.d0.toNat / 256 = 0) → ∃ i, decode d = .ok i)

/-! ### The step, reset, the invariant -/

/-- When the host presents a descriptor that decodes to `i`, the step takes it by value with the window the
host lends, and is `exec` of `i`. One command, one step, is the spec's decision D1, D17; the script is the model's (log 9). -/
def Obligations.StepRunsTheDecodedCommand : Prop :=
  ∀ (s : State) (d : Descriptor) (len : Nat) (rest : List HostAction) (i : Instr),
    s.inputs = .command d len :: rest → decode d = .ok i →
    step s = exec i { s with inputs := rest, window := len }

/-- After reset the Glyph Table is `GLYPH_ROM`, the host's geometry is zero so that a burn of two buffers is
answered `NotConfigured`, and nothing happens until the host issues something; a reset of the idle block leaves memory and
table as they are. Reset is the spec's decision D16 but for the zero geometry (R29); that memory lists nothing and that the script is empty are
the model's choices (logs 1, 9). -/
def Obligations.ResetLeavesTheBlockIdle : Prop :=
  State.reset.mem = [] ∧ State.reset.inputs = [] ∧ step State.reset = .next State.reset ∧
  (∀ g r, romRow State.reset.rom g r = Config.glyphRom g r) ∧
  State.reset.cfg.width = 0 ∧ State.reset.cfg.height = 0 ∧
  (∀ a : BurnArgs, a.src.isSome = true → a.dst.isSome = true →
    burn a State.reset = .next (State.reset.answer .notConfigured)) ∧
  (∀ (s : State) (rest : List HostAction), s.inputs = .reset :: rest →
    ∃ t, step s = .next t ∧ t.mem = s.mem ∧ t.rom = s.rom ∧ t.cfg.width = 0 ∧ t.cfg.height = 0 ∧ t.inputs = rest)

/-- The state after reset meets the invariant; the empty memory is the model's choice (log 1). -/
def Obligations.ResetMeetsTheInvariant : Prop := Inv State.reset

/-- Every step keeps memory in its canonical form, with only addresses of the address space listed. The
canonical form (log 1) and the width of the address space (log 5) are the model's choices. -/
def Obligations.StepKeepsMemoryCanonical : Prop := ∀ s t : State, Inv s → step s = .next t → Inv t

/-- R25: no step, whether a command, a host operation or a reset, changes the Glyph Table. -/
def Obligations.GlyphTableNeverChanges : Prop := ∀ s t : State, step s = .next t → t.rom = s.rom

/-! ### RASTER -/

/-- What the block does with a descriptor of opcode 0, checks in order (R84). That `RASTER` is a command, its refusals and
its answer for "no glyph" are the spec's decisions D2, D5, D13, D15. -/
def Obligations.RasterDescriptorIsAnswered : Prop :=
  ∀ (d : Descriptor) (len : Nat) (rest : List HostAction) (s : State), s.inputs = .command d len :: rest → d.op = 0 →
    (d.reserved ≠ 0 → step s = .refused .reservedEncoding) ∧
    (d.reserved = 0 → (d.d6 = 0 ∨ d.d7 = 0) → step s = .refused .badCell) ∧
    (d.reserved = 0 → d.d6 ≠ 0 → d.d7 ≠ 0 → 12 ≤ d.glyph.toNat →
      step s = .next { s with inputs := rest, window := len, reply := some (.respond false) }) ∧
    (d.reserved = 0 → d.d6 ≠ 0 → d.d7 ≠ 0 → ∀ g : Fin 12, g.val = d.glyph.toNat →
      ∃ r : Fin 16, r.val = min 15 (d.d5.toNat * 16 / d.d7.toNat) ∧
        step s = .next { s with inputs := rest, window := len,
                                reply := some (.respond ((romRow s.rom g r).getLsbD
                                  (7 - min 7 (d.d4.toNat * 8 / d.d6.toNat)))) })

/-- `RASTER` inside the rasterizer's contract answers one ink bit and changes nothing else (R84; decisions D2, D5). -/
def Obligations.RasterAnswersOneInkBit : Prop :=
  ∀ (a : RasterArgs) (s : State), a.cw ≠ 0 → a.ch ≠ 0 →
    (12 ≤ a.glyph.toNat → exec (.raster a) s = .next { s with reply := some (.respond false) }) ∧
    (∀ g : Fin 12, g.val = a.glyph.toNat →
      ∃ r : Fin 16, r.val = min 15 (a.py.toNat * 16 / a.ch.toNat) ∧
        exec (.raster a) s = .next { s with reply := some (.respond ((romRow s.rom g r).getLsbD
          (7 - min 7 (a.px.toNat * 8 / a.cw.toNat)))) })

/-- The nearest-neighbour mapping: the source row and column of a target pixel by the source's formula (R82), and its ink the
bit of the Glyph Table they name, the leftmost bit first (R83). That 32-bit coordinates have products below 2^36 is the spec's
own inference from the field widths (R62). -/
def Obligations.InkIsTheNearestGlyphBit : Prop :=
  (∀ (rom : GlyphTable) (g : Fin 12) (cw ch x y : Nat), 1 ≤ cw → 1 ≤ ch →
    srcRow y ch = min 15 (y * 16 / ch) ∧ srcCol x cw = min 7 (x * 8 / cw) ∧
    ∃ r : Fin 16, r.val = srcRow y ch ∧ ink rom g cw ch x y = (romRow rom g r).getLsbD (7 - srcCol x cw)) ∧
  (∀ v : Nat, v < 2 ^ 32 → v * 16 < 2 ^ 36 ∧ v * 8 < 2 ^ 36)

/-- R85: inside the contract's domain the clamps never act; the mapping is monotone, starts at 0, is the identity at 8 by
16, blows a glyph up by whole blocks at multiples, and shows source column `c` (row `r`) on exactly the stated range. -/
def Obligations.MappingIsMonotoneAndTiles : Prop :=
  (∀ x cw, 0 < cw → x < cw → srcCol x cw = x * 8 / cw) ∧ (∀ y ch, 0 < ch → y < ch → srcRow y ch = y * 16 / ch) ∧
  (∀ x x' cw, 0 < cw → x ≤ x' → srcCol x cw ≤ srcCol x' cw) ∧
  (∀ y y' ch, 0 < ch → y ≤ y' → srcRow y ch ≤ srcRow y' ch) ∧
  (∀ cw, 0 < cw → srcCol 0 cw = 0) ∧ (∀ ch, 0 < ch → srcRow 0 ch = 0) ∧
  (∀ x, x < 8 → srcCol x 8 = x) ∧ (∀ y, y < 16 → srcRow y 16 = y) ∧
  (∀ k x, 0 < k → x < 8 * k → srcCol x (8 * k) = x / k) ∧
  (∀ m y, 0 < m → y < 16 * m → srcRow y (16 * m) = y / m) ∧
  (∀ x cw c, x < cw → c < 8 → (srcCol x cw = c ↔ (c * cw + 7) / 8 ≤ x ∧ x + 1 ≤ ((c + 1) * cw + 7) / 8)) ∧
  (∀ y ch r, y < ch → r < 16 → (srcRow y ch = r ↔ (r * ch + 15) / 16 ≤ y ∧ y + 1 ≤ ((r + 1) * ch + 15) / 16))

/-! ### Memory words and the 10-bit field -/

/-- A 4-byte access at any address is its four byte accesses, the lowest address the least significant. The byte
order and the granularity are the spec's decisions D8, D9 (log 13). -/
def Obligations.WordsAreLittleEndian : Prop :=
  ∀ (m : Memory) (a : Nat),
    (∀ v : Word, (m.writeWord a v).readWord? a = some v ∧
      (∀ i : Nat, i < 4 → (m.writeWord a v).read? (a + i) = some (v.extractLsb' (8 * i) 8)) ∧
      (∀ x : Nat, (x < a ∨ a + 4 ≤ x) → (m.writeWord a v).read? x = m.read? x)) ∧
    (∀ b0 b1 b2 b3 : Byte, m.read? a = some b0 → m.read? (a + 1) = some b1 → m.read? (a + 2) = some b2 →
      m.read? (a + 3) = some b3 →
      ∃ v : Word, m.readWord? a = some v ∧
        v.toNat = b0.toNat + b1.toNat * 2 ^ 8 + b2.toNat * 2 ^ 16 + b3.toNat * 2 ^ 24)

/-- R162: `Set10` inside the window on a word that holds a value replaces one slot of that word, keeps the other two and
bits 31:30, and touches no other byte; out of the window (decision D12), or on a byte with no value (log 1),
it stops. Keeping bits 31:30 is the spec's decision D19 (log 15). -/
def Obligations.Set10ChangesOneField : Prop :=
  ∀ (w : Window) (a : Nat) (k : Fin 3) (x : BitVec 10) (m : Memory),
    (w.covers a 4 = false → set10 w a k x m = .error .outOfWindow) ∧
    (w.covers a 4 = true → m.readWord? a = none → set10 w a k x m = .error .uninitialised) ∧
    (∀ old, w.covers a 4 = true → m.readWord? a = some old →
      ∃ m' new, set10 w a k x m = .ok m' ∧ m'.readWord? a = some new ∧
        new.extractLsb' (10 * k.val) 10 = x ∧
        (∀ j : Fin 3, j ≠ k → new.extractLsb' (10 * j.val) 10 = old.extractLsb' (10 * j.val) 10) ∧
        new.extractLsb' 30 2 = old.extractLsb' 30 2 ∧
        (∀ addr : Nat, (addr < a ∨ a + 4 ≤ addr) → m'.read? addr = m.read? addr))

/-! ### Cell, clipping, nothing to draw -/

/-- R101, R102: the visits are exactly the pixels of the cell that are on the frame. They are listed each once, rows from the
top and columns from the left in each row: that order is the reference order of the spec's decision D11 (R104), which the model
takes as the order of this list (log 2). There are as many as the clipped rectangle has (R110). -/
def Obligations.VisitsAreTheInBoundsPixels : Prop :=
  ∀ a : DrawArgs,
    (∀ p : Pixel, p ∈ a.visits ↔
      p.x < a.CW ∧ p.y < a.CH ∧ 0 ≤ a.X0 + p.x ∧ a.X0 + p.x < a.W ∧ 0 ≤ a.Y0 + p.y ∧ a.Y0 + p.y < a.H) ∧
    a.visits.Pairwise (fun p q => p.y < q.y ∨ (p.y = q.y ∧ p.x < q.x)) ∧
    a.visits.length =
      (min (a.CW : Int) (a.W - a.X0) - max 0 (-a.X0)).toNat * (min (a.CH : Int) (a.H - a.Y0) - max 0 (-a.Y0)).toNat

/-- R102: with "no glyph" (decision D5), an empty cell (decision D13), an empty frame or a cell wholly off the frame, a
`DRAW` makes no access and ends `done`, whatever window is lent. -/
def Obligations.NothingToDrawIsDone : Prop :=
  ∀ (a : DrawArgs) (i : Instr) (s : State), (i = .drawI8 a ∨ i = .drawP8 a ∨ i = .drawP10 a) →
    (12 ≤ a.glyph.toNat ∨ a.CW = 0 ∨ a.CH = 0 ∨ a.W = 0 ∨ a.H = 0 ∨
      a.X0 + a.CW ≤ 0 ∨ (a.W : Int) ≤ a.X0 ∨ a.Y0 + a.CH ≤ 0 ∨ (a.H : Int) ≤ a.Y0) →
    exec i s = .next { s with reply := some .done }

/-! ### DRAW.I8 -/

/-- R122, R123, R127, U4: a `DRAW.I8` whose stores lie in the window completes. Both chroma bytes of every visited pixel's
group are 128; every visited pixel's luma byte holds the level of a visited pixel with that luma byte, which for even `W`
is the pixel itself; every other byte, and all else, is as before. -/
def Obligations.DrawI8WritesItsCell : Prop :=
  ∀ (a : DrawArgs) (s : State) (g : Fin 12), glyph? a.glyph = some g →
    (∀ p ∈ a.visits, (a.windowIn s).covers (a.B + i8LumaOff a (a.sx p) (a.sy p)) 1 = true ∧
      (a.windowIn s).covers (a.B + i8Chroma1 a (a.sx p) (a.sy p)) 1 = true ∧
      (a.windowIn s).covers (a.B + i8Chroma2 a (a.sx p) (a.sy p)) 1 = true) →
    ∃ t, exec (.drawI8 a) s = .next t ∧ t.reply = some .done ∧ sameContext s t ∧
      (∀ p ∈ a.visits,
        t.mem.read? (a.B + i8Chroma1 a (a.sx p) (a.sy p)) = some 128 ∧
        t.mem.read? (a.B + i8Chroma2 a (a.sx p) (a.sy p)) = some 128 ∧
        ∃ q ∈ a.visits, i8LumaOff a (a.sx q) (a.sy q) = i8LumaOff a (a.sx p) (a.sy p) ∧ (a.W % 2 = 0 → q = p) ∧
          t.mem.read? (a.B + i8LumaOff a (a.sx p) (a.sy p)) =
            some (if ink s.rom g a.CW a.CH q.x q.y then 235 else 16)) ∧
      (∀ addr : Nat, (∀ p ∈ a.visits, addr ≠ a.B + i8LumaOff a (a.sx p) (a.sy p) ∧
          addr ≠ a.B + i8Chroma1 a (a.sx p) (a.sy p) ∧ addr ≠ a.B + i8Chroma2 a (a.sx p) (a.sy p)) →
        t.mem.read? addr = s.mem.read? addr)

/-- R126: the Interleaved8 offsets for even `W`. -/
def Obligations.InterleavedOffsetsForEvenWidth : Prop :=
  ∀ (a : DrawArgs) (sx sy : Nat), a.W % 2 = 0 → sx < a.W → sy < a.H →
    (sy * a.W + sx) / 2 = sy * a.W / 2 + sx / 2 ∧
    i8Group a sx sy = sy * (2 * a.W) + sx / 2 * 4 ∧
    i8LumaOff a sx sy = sy * (2 * a.W) + 2 * sx + 1 ∧
    i8Chroma1 a sx sy = sy * (2 * a.W) + sx / 2 * 4 ∧ i8Chroma2 a sx sy = sy * (2 * a.W) + sx / 2 * 4 + 2 ∧
    sx / 2 * 4 + 3 < 2 * a.W ∧
    i8LumaOff a sx sy < 2 * a.W * a.H ∧ i8Chroma1 a sx sy < 2 * a.W * a.H ∧ i8Chroma2 a sx sy < 2 * a.W * a.H

/-- R124: for even `W` the group of a pixel is shared by the two columns of its pair; a cell with an odd left edge, or an
even last column, neutralises the chroma its outside neighbour shares and leaves the neighbour's luma as it was. -/
def Obligations.InterleavedEdgeNeighbourLosesChromaOnly : Prop :=
  (∀ (a : DrawArgs) (sx sy : Nat), a.W % 2 = 0 →
    i8Group a sx sy = i8Group a (2 * (sx / 2)) sy ∧ i8Group a sx sy = i8Group a (2 * (sx / 2) + 1) sy) ∧
  ∀ (a : DrawArgs) (s t : State) (g : Fin 12), glyph? a.glyph = some g → a.W % 2 = 0 →
    exec (.drawI8 a) s = .next t → ∀ p ∈ a.visits,
      (p.x = 0 → a.sx p % 2 = 1 →
        t.mem.read? (a.B + i8Chroma1 a (a.sx p - 1) (a.sy p)) = some 128 ∧
        t.mem.read? (a.B + i8Chroma2 a (a.sx p - 1) (a.sy p)) = some 128 ∧
        t.mem.read? (a.B + i8LumaOff a (a.sx p - 1) (a.sy p)) = s.mem.read? (a.B + i8LumaOff a (a.sx p - 1) (a.sy p))) ∧
      (p.x + 1 = a.CW → a.sx p % 2 = 0 →
        a.sx p + 1 < a.W ∧
        t.mem.read? (a.B + i8Chroma1 a (a.sx p + 1) (a.sy p)) = some 128 ∧
        t.mem.read? (a.B + i8Chroma2 a (a.sx p + 1) (a.sy p)) = some 128 ∧
        t.mem.read? (a.B + i8LumaOff a (a.sx p + 1) (a.sy p)) = s.mem.read? (a.B + i8LumaOff a (a.sx p + 1) (a.sy p)))

/-- R250, R125 item 4: with a buffer of the expected size, a `DRAW.I8` leaves it only when `W` and `H` are odd and the last
pixel is visited: then it stores 128 one byte past it, a fault when the window ends there. -/
def Obligations.OnlyOddInterleavedFramesAreOverrun : Prop :=
  (∀ (a : DrawArgs) (s : State), 2 * a.W * a.H ≤ s.window → a.B + 2 * a.W * a.H ≤ 2 ^ Config.addrBits →
    ¬ (a.W % 2 = 1 ∧ a.H % 2 = 1 ∧ a.shows (a.W - 1) (a.H - 1) = true) → Completes (exec (.drawI8 a) s)) ∧
  (∀ (a : DrawArgs) (s : State) (g : Fin 12), glyph? a.glyph = some g →
    a.W % 2 = 1 → a.H % 2 = 1 → a.shows (a.W - 1) (a.H - 1) = true →
    (s.window = 2 * a.W * a.H → exec (.drawI8 a) s = .fault .outOfWindow) ∧
    (2 * a.W * a.H < s.window → a.B + 2 * a.W * a.H < 2 ^ Config.addrBits →
      ∃ t, exec (.drawI8 a) s = .next t ∧ t.mem.read? (a.B + 2 * a.W * a.H) = some 128))

/-! ### DRAW.P8 -/

/-- R143, R144, R149: a `DRAW.P8` whose stores lie in the window completes, for every `W` and `H`. Every visited pixel has
its luma level and both its chroma bytes 128; every other byte, and all else, is as before. -/
def Obligations.DrawP8WritesItsCell : Prop :=
  ∀ (a : DrawArgs) (s : State) (g : Fin 12), glyph? a.glyph = some g →
    (∀ p ∈ a.visits, (a.windowIn s).covers (a.B + p8LumaIdx a (a.sx p) (a.sy p)) 1 = true ∧
      (a.windowIn s).covers (a.B + p8C1 a + p8ChromaIdx a (a.sx p) (a.sy p)) 1 = true ∧
      (a.windowIn s).covers (a.B + p8C2 a + p8ChromaIdx a (a.sx p) (a.sy p)) 1 = true) →
    ∃ t, exec (.drawP8 a) s = .next t ∧ t.reply = some .done ∧ sameContext s t ∧
      (∀ p ∈ a.visits,
        t.mem.read? (a.B + p8LumaIdx a (a.sx p) (a.sy p)) = some (if ink s.rom g a.CW a.CH p.x p.y then 235 else 16) ∧
        t.mem.read? (a.B + p8C1 a + p8ChromaIdx a (a.sx p) (a.sy p)) = some 128 ∧
        t.mem.read? (a.B + p8C2 a + p8ChromaIdx a (a.sx p) (a.sy p)) = some 128) ∧
      (∀ addr : Nat, (∀ p ∈ a.visits, addr ≠ a.B + p8LumaIdx a (a.sx p) (a.sy p) ∧
          addr ≠ a.B + p8C1 a + p8ChromaIdx a (a.sx p) (a.sy p) ∧
          addr ≠ a.B + p8C2 a + p8ChromaIdx a (a.sx p) (a.sy p)) →
        t.mem.read? addr = s.mem.read? addr)

/-- R147: every store of a `DRAW.P8` lies below `2*W*H`, so a window of the expected size is never left. -/
def Obligations.PlanarStoresStayInTheBuffer : Prop :=
  (∀ (a : DrawArgs) (sx sy : Nat), sx < a.W → sy < a.H →
    p8LumaIdx a sx sy ≤ a.W * a.H - 1 ∧
    (a.W % 2 = 0 → p8ChromaIdx a sx sy ≤ a.W * a.H / 2 - 1 ∧ p8C2 a + (a.W * a.H / 2 - 1) = 2 * a.W * a.H - 1) ∧
    (a.W % 2 = 1 → p8ChromaIdx a sx sy ≤ a.H * (a.W - 1) / 2 ∧
      p8C2 a + a.H * (a.W - 1) / 2 = a.W * a.H + a.W * a.H / 2 + (a.W * a.H - a.H) / 2 ∧
      p8C2 a + a.H * (a.W - 1) / 2 ≤ 2 * a.W * a.H - 1) ∧
    p8LumaIdx a sx sy < 2 * a.W * a.H ∧ p8C1 a + p8ChromaIdx a sx sy < 2 * a.W * a.H ∧
    p8C2 a + p8ChromaIdx a sx sy < 2 * a.W * a.H) ∧
  (∀ (a : DrawArgs) (s : State), expectedSize .planar8 a.W a.H ≤ s.window →
    a.B + expectedSize .planar8 a.W a.H ≤ 2 ^ Config.addrBits → Completes (exec (.drawP8 a) s))

/-- R145: a planar cell with an odd left edge, or an even last column that is not the frame's last, neutralises the chroma
its outside neighbour shares in both planes and leaves the neighbour's luma as it was. -/
def Obligations.PlanarEdgeNeighbourLosesChromaOnly : Prop :=
  ∀ (a : DrawArgs) (s t : State) (g : Fin 12), glyph? a.glyph = some g →
    exec (.drawP8 a) s = .next t → ∀ p ∈ a.visits,
      (p.x = 0 → a.sx p % 2 = 1 →
        t.mem.read? (a.B + p8C1 a + p8ChromaIdx a (a.sx p - 1) (a.sy p)) = some 128 ∧
        t.mem.read? (a.B + p8C2 a + p8ChromaIdx a (a.sx p - 1) (a.sy p)) = some 128 ∧
        t.mem.read? (a.B + p8LumaIdx a (a.sx p - 1) (a.sy p)) = s.mem.read? (a.B + p8LumaIdx a (a.sx p - 1) (a.sy p))) ∧
      (p.x + 1 = a.CW → a.sx p % 2 = 0 → a.sx p + 1 < a.W →
        t.mem.read? (a.B + p8C1 a + p8ChromaIdx a (a.sx p + 1) (a.sy p)) = some 128 ∧
        t.mem.read? (a.B + p8C2 a + p8ChromaIdx a (a.sx p + 1) (a.sy p)) = some 128 ∧
        t.mem.read? (a.B + p8LumaIdx a (a.sx p + 1) (a.sy p)) = s.mem.read? (a.B + p8LumaIdx a (a.sx p + 1) (a.sy p)))

/-! ### DRAW.P10 -/

/-- R164, R165, R170: a `DRAW.P10` whose words lie in the window and hold values completes. Every visited pixel has its luma
level and both chroma fields 512; every field that is not the luma or a chroma field of a visited pixel is as before, so
are bits 31:30 of every word, every byte outside the words touched, and all else. -/
def Obligations.DrawP10WritesItsCell : Prop :=
  ∀ (a : DrawArgs) (s : State) (g : Fin 12), glyph? a.glyph = some g →
    (∀ p ∈ a.visits, ∀ ws ∈ [lumaWS (a.sx p), chroma1WS (a.sx p), chroma2WS (a.sx p)],
      (a.windowIn s).covers (p10Addr a (a.sx p) (a.sy p) ws) 4 = true ∧
      (s.mem.readWord? (p10Addr a (a.sx p) (a.sy p) ws)).isSome = true) →
    ∃ t, exec (.drawP10 a) s = .next t ∧ t.reply = some .done ∧ sameContext s t ∧
      (∀ p ∈ a.visits,
        t.mem.get10? (p10Addr a (a.sx p) (a.sy p) (lumaWS (a.sx p))) (lumaWS (a.sx p)).slot =
          some (if ink s.rom g a.CW a.CH p.x p.y then 940 else 64) ∧
        t.mem.get10? (p10Addr a (a.sx p) (a.sy p) (chroma1WS (a.sx p))) (chroma1WS (a.sx p)).slot = some 512 ∧
        t.mem.get10? (p10Addr a (a.sx p) (a.sy p) (chroma2WS (a.sx p))) (chroma2WS (a.sx p)).slot = some 512) ∧
      (∀ (k : Nat) (sl : Fin 3),
        (∀ p ∈ a.visits, ∀ ws ∈ [lumaWS (a.sx p), chroma1WS (a.sx p), chroma2WS (a.sx p)],
          a.B + 4 * k = p10Addr a (a.sx p) (a.sy p) ws → ws.slot ≠ sl) →
        t.mem.get10? (a.B + 4 * k) sl = s.mem.get10? (a.B + 4 * k) sl) ∧
      (∀ k : Nat, (t.mem.readWord? (a.B + 4 * k)).map (fun v => v.extractLsb' 30 2) =
        (s.mem.readWord? (a.B + 4 * k)).map (fun v => v.extractLsb' 30 2)) ∧
      (∀ addr : Nat, (∀ p ∈ a.visits, ∀ ws ∈ [lumaWS (a.sx p), chroma1WS (a.sx p), chroma2WS (a.sx p)],
          addr < p10Addr a (a.sx p) (a.sy p) ws ∨ p10Addr a (a.sx p) (a.sy p) ws + 4 ≤ addr) →
        t.mem.read? addr = s.mem.read? addr)

/-- R168: every byte a `DRAW.P10` accesses lies within the buffer, so a window of the expected size is never left. -/
def Obligations.PackedAccessesStayInTheBuffer : Prop :=
  (∀ (a : DrawArgs) (sx sy : Nat), sx < a.W → sy < a.H →
    sx / 6 ≤ (a.W - 1) / 6 ∧ (a.W - 1) / 6 = (a.W + 5) / 6 - 1 ∧
    sx / 6 * 16 + 3 * 4 + 3 ≤ p10Stride a.W - 1 ∧ sy ≤ a.H - 1 ∧
    ∀ (w : Fin 4) (k : Nat), k < 4 → p10WordOff a sx sy w + k ≤ (a.W + 5) / 6 * 16 * a.H - 1) ∧
  (∀ (a : DrawArgs) (s : State), expectedSize .packed10 a.W a.H ≤ s.window →
    a.B + expectedSize .packed10 a.W a.H ≤ 2 ^ Config.addrBits →
    exec (.drawP10 a) s ≠ .fault .outOfWindow ∧
    (s.mem.initialised a.B (expectedSize .packed10 a.W a.H) → Completes (exec (.drawP10 a) s)))

/-- R166: a packed cell with an odd left edge, or an even last column, neutralises both chroma fields its outside neighbour
shares and leaves the neighbour's luma field as it was, whatever `W` is. -/
def Obligations.PackedEdgeNeighbourLosesChromaOnly : Prop :=
  ∀ (a : DrawArgs) (s t : State) (g : Fin 12), glyph? a.glyph = some g →
    exec (.drawP10 a) s = .next t → ∀ p ∈ a.visits, ∀ c : Nat,
      ((p.x = 0 ∧ a.sx p % 2 = 1 ∧ c + 1 = a.sx p) ∨ (p.x + 1 = a.CW ∧ a.sx p % 2 = 0 ∧ c = a.sx p + 1)) →
      t.mem.get10? (p10Addr a c (a.sy p) (chroma1WS c)) (chroma1WS c).slot = some 512 ∧
      t.mem.get10? (p10Addr a c (a.sy p) (chroma2WS c)) (chroma2WS c).slot = some 512 ∧
      t.mem.get10? (p10Addr a c (a.sy p) (lumaWS c)) (lumaWS c).slot =
        s.mem.get10? (p10Addr a c (a.sy p) (lumaWS c)) (lumaWS c).slot

/-- R170: a glyph drawn into a gray packed buffer reads back as exactly the expected luma where the cell shows and 512
everywhere else. -/
def Obligations.GrayPackedBufferReadsBack : Prop :=
  ∀ (a : DrawArgs) (s t : State) (g : Fin 12), glyph? a.glyph = some g →
    (∀ k : Nat, 4 * k < expectedSize .packed10 a.W a.H → s.mem.readWord? (a.B + 4 * k) = some 0x20080200) →
    exec (.drawP10 a) s = .next t → ∀ sx sy : Nat, sx < a.W → sy < a.H →
      t.mem.get10? (p10Addr a sx sy (lumaWS sx)) (lumaWS sx).slot =
        some (if a.shows sx sy then
          (if ink s.rom g a.CW a.CH (sx - a.X0).toNat (sy - a.Y0).toNat then 940 else 64) else 512) ∧
      t.mem.get10? (p10Addr a sx sy (chroma1WS sx)) (chroma1WS sx).slot = some 512 ∧
      t.mem.get10? (p10Addr a sx sy (chroma2WS sx)) (chroma2WS sx).slot = some 512

/-! ### All three writers -/

/-- R41, R46, R223, R225: a `DRAW` with a glyph stops at a fault exactly when one of its accesses has a byte outside the
window or, in `DRAW.P10` alone, when a word it reads holds no value; otherwise it completes. -/
def Obligations.DrawFaultsExactlyWhenAnAccessCannotBeMade : Prop :=
  ∀ (a : DrawArgs) (s : State) (g : Fin 12), glyph? a.glyph = some g →
    (∀ wi ∈ [(writePixelI8, Instr.drawI8 a), (writePixelP8, Instr.drawP8 a)],
      ((∃ x ∈ cellAccesses wi.1 s.rom g a a.visits, (a.windowIn s).covers x.addr x.size = false) →
        exec wi.2 s = .fault .outOfWindow) ∧
      ((∀ x ∈ cellAccesses wi.1 s.rom g a a.visits, (a.windowIn s).covers x.addr x.size = true) →
        Completes (exec wi.2 s))) ∧
    ((∃ x ∈ cellAccesses writePixelP10 s.rom g a a.visits,
        (a.windowIn s).covers x.addr x.size = false ∨ s.mem.readWord? x.addr = none) →
      ∃ f, exec (.drawP10 a) s = .fault f) ∧
    ((∃ x ∈ cellAccesses writePixelP10 s.rom g a a.visits, (a.windowIn s).covers x.addr x.size = false) →
      (∀ x ∈ cellAccesses writePixelP10 s.rom g a a.visits, (s.mem.readWord? x.addr).isSome = true) →
      exec (.drawP10 a) s = .fault .outOfWindow) ∧
    ((∀ x ∈ cellAccesses writePixelP10 s.rom g a a.visits,
        (a.windowIn s).covers x.addr x.size = true ∧ (s.mem.readWord? x.addr).isSome = true) →
      Completes (exec (.drawP10 a) s))

/-- R226, R41: a faulted `DRAW` leaves in memory exactly what the accesses before the offending one stored, in every visit
order. -/
def Obligations.FaultedCommandKeepsEarlierStores : Prop :=
  ∀ (wp : WritePixel) (order : List Pixel) (a : DrawArgs) (s : State) (f : Fault),
    (drawCell wp order a s).ending = .fault f →
    ∃ g pre x post, glyph? a.glyph = some g ∧ cellAccesses wp s.rom g a order = pre ++ x :: post ∧
      runAccesses (a.windowIn s) pre s.mem = { mem := (drawCell wp order a s).mem, ending := .done } ∧
      x.perform (a.windowIn s) (drawCell wp order a s).mem = .error f

/-- R222, R226, R107: only a reserved descriptor and a `RASTER` with a zero cell dimension are refused, and a refused command
leaves memory as it was; the step at a presented descriptor is refused exactly when its transaction ends so, in whatever visit
order. The refusals are the spec's decisions D13, D15; that the step ends the run there is the model's (log 23). -/
def Obligations.RefusedCommandTouchesNothing : Prop :=
  (∀ (order : List Pixel) (d : Descriptor) (s : State) (r : Refusal),
    (commandTransaction order d s).ending = .refused r →
    (commandTransaction order d s).mem = s.mem ∧
    ((r = .reservedEncoding ∧ d.wellFormed = false) ∨
      (r = .badCell ∧ d.wellFormed = true ∧ d.op = 0 ∧ (d.d6 = 0 ∨ d.d7 = 0)))) ∧
  (∀ (order : List Pixel) (d : Descriptor) (len : Nat) (rest : List HostAction) (s : State) (r : Refusal),
    s.inputs = .command d len :: rest →
    (step s = .refused r ↔
      (commandTransaction order d { s with inputs := rest, window := len }).ending = .refused r))

/-- R26, R41: no command, however it ends and in whatever visit order, changes a byte outside the window the host lent. -/
def Obligations.NothingOutsideTheWindowChanges : Prop :=
  ∀ (order : List Pixel) (a : DrawArgs) (i : Instr) (s : State), (i = .drawI8 a ∨ i = .drawP8 a ∨ i = .drawP10 a) →
    ∀ addr : Nat, (addr < a.B ∨ a.B + s.window ≤ addr) → (transaction order i s).mem.read? addr = s.mem.read? addr

/-- R46, R47: the 8-bit writers never read the buffer: from two memories they complete alike, and every byte they change in
one gets the same value in the other. -/
def Obligations.EightBitWritersIgnoreOldContent : Prop :=
  ∀ (a : DrawArgs) (i : Instr) (s s' t : State), (i = .drawI8 a ∨ i = .drawP8 a) →
    s'.rom = s.rom → s'.window = s.window → exec i s = .next t →
    ∃ t', exec i s' = .next t' ∧
      ∀ addr : Nat, (t.mem.read? addr = s.mem.read? addr ∧ t'.mem.read? addr = s'.mem.read? addr) ∨
        t'.mem.read? addr = t.mem.read? addr

/-- R47: issuing the same command twice leaves the same state as issuing it once. For a `DRAW.I8` of odd width whose cell spans
a row end it rests on the model's choice that one command always visits in one order (DEDUCED, log 3). -/
def Obligations.DrawingTwiceIsDrawingOnce : Prop :=
  ∀ (i : Instr) (s t : State), s.mem.wf = true → exec i s = .next t → exec i t = .next t

/-- R109 case (a), R225: what a `DRAW.P8` leaves does not depend on the visit order, nor does whether it faults. -/
def Obligations.PlanarVisitOrderDoesNotMatter : Prop :=
  ∀ (a : DrawArgs) (s : State) (o o' : List Pixel), s.mem.wf = true → VisitOrder a o → VisitOrder a o' →
    ((drawCell writePixelP8 o a s).ending = .done → drawCell writePixelP8 o' a s = drawCell writePixelP8 o a s) ∧
    ((∃ f, (drawCell writePixelP8 o a s).ending = .fault f) → ∃ f, (drawCell writePixelP8 o' a s).ending = .fault f)

/-- R109 case (b), R225: what a `DRAW.P10` leaves does not depend on the visit order, nor does whether it faults. -/
def Obligations.PackedVisitOrderDoesNotMatter : Prop :=
  ∀ (a : DrawArgs) (s : State) (o o' : List Pixel), s.mem.wf = true → VisitOrder a o → VisitOrder a o' →
    ((drawCell writePixelP10 o a s).ending = .done → drawCell writePixelP10 o' a s = drawCell writePixelP10 o a s) ∧
    ((∃ f, (drawCell writePixelP10 o a s).ending = .fault f) → ∃ f, (drawCell writePixelP10 o' a s).ending = .fault f)

/-- R109 cases (c) and (d), R225: what a `DRAW.I8` leaves does not depend on the visit order when `W` is even or the cell
does not show both the last pixel of an even frame row and the first pixel of the next; whether it faults never does. -/
def Obligations.InterleavedVisitOrderMattersOnlyAtRowEnds : Prop :=
  ∀ (a : DrawArgs) (s : State) (o o' : List Pixel), s.mem.wf = true → VisitOrder a o → VisitOrder a o' →
    ((a.W % 2 = 0 ∨ ∀ sy : Nat, sy % 2 = 0 → ¬ (a.shows (a.W - 1) sy = true ∧ a.shows 0 (sy + 1) = true)) →
      (drawCell writePixelI8 o a s).ending = .done → drawCell writePixelI8 o' a s = drawCell writePixelI8 o a s) ∧
    ((∃ f, (drawCell writePixelI8 o a s).ending = .fault f) → ∃ f, (drawCell writePixelI8 o' a s).ending = .fault f)

/-- R109, R125 item 3: in any visit order, the luma byte two visits share ends with the level of the later one. -/
def Obligations.LaterVisitDecidesASharedLumaByte : Prop :=
  ∀ (a : DrawArgs) (s : State) (g : Fin 12) (pre post : List Pixel) (q : Pixel), glyph? a.glyph = some g →
    VisitOrder a (pre ++ q :: post) → (drawCell writePixelI8 (pre ++ q :: post) a s).ending = .done →
    (∀ r ∈ post, i8LumaOff a (a.sx r) (a.sy r) ≠ i8LumaOff a (a.sx q) (a.sy q)) →
    (drawCell writePixelI8 (pre ++ q :: post) a s).mem.read? (a.B + i8LumaOff a (a.sx q) (a.sy q)) =
      some (if ink s.rom g a.CW a.CH q.x q.y then 235 else 16)

/-- R83, R149: the same command in the two 8-bit formats leaves the same luma at every visited pixel, for even `W`. -/
def Obligations.BothEightBitFormatsShowTheSameLuma : Prop :=
  ∀ (a : DrawArgs) (b : Word) (s s' t t' : State) (g : Fin 12), glyph? a.glyph = some g → a.W % 2 = 0 → s'.rom = s.rom →
    exec (.drawI8 a) s = .next t → exec (.drawP8 { a with base := b }) s' = .next t' →
    ∀ p ∈ a.visits, t.mem.read? (a.B + i8LumaOff a (a.sx p) (a.sy p)) =
      t'.mem.read? (b.toNat + p8LumaIdx a (a.sx p) (a.sy p))

/-! ### The host -/

/-- R190: `configure` replaces the whole record at once, with 64 as the default cell size, succeeds for any input, and touches
no buffer. -/
def Obligations.ConfigureReplacesTheRecord : Prop :=
  ∀ (s : State) (w h : Nat) (f : PixelFormat) (c : Option Word) (rest : List HostAction),
    s.inputs = .configure w h f c :: rest →
    step s = .next { s with inputs := rest, reply := some (.status .success),
                            cfg := { width := w, height := h, format := f,
                                     cellSize := match c with | none => 64 | some v => v } }

/-- R193, R194, R195: the three failures of `burn`, in that order of precedence, each leaving everything but the answer as it
was. -/
def Obligations.BurnChecksInOrderAndWritesNothing : Prop :=
  ∀ (a : BurnArgs) (s : State),
    ((a.src = none ∨ a.dst = none) → burn a s = .next { s with reply := some (.status .invalidArgument) }) ∧
    (∀ src dst, a.src = some src → a.dst = some dst →
      ((s.cfg.width = 0 ∨ s.cfg.height = 0) → burn a s = .next { s with reply := some (.status .notConfigured) }) ∧
      (s.cfg.width ≠ 0 → s.cfg.height ≠ 0 →
        a.srcLen < (if s.cfg.format = .packed10 then (s.cfg.width + 5) / 6 * 16 * s.cfg.height
            else 2 * s.cfg.width * s.cfg.height) →
        burn a s = .next { s with reply := some (.status .bufferTooSmall) }))

/-- R200: past validation, which admits exactly a declared length of at least the expected size (R42), `burn` answers nothing but
success and keeps the record and the table; and it does answer success when the call is one the spec describes: the buffers
identical or disjoint (D29; log 16), every cell expressible or off the frame (D7; log 17), the destination as long as the host
must make it (R204, R250; its length and window are the model's argument, log 18), both inside the address space (log 5), and
for Packed10 the source frame holding values (D26; log 1). Where one of these fails the model may stop instead, by those logs. -/
def Obligations.BurnPastValidationAnswersSuccess : Prop :=
  ∀ (a : BurnArgs) (s : State) (src dst : Word), a.src = some src → a.dst = some dst →
    s.cfg.width ≠ 0 → s.cfg.height ≠ 0 →
    ∀ size : Nat, size = (if s.cfg.format = .packed10 then (s.cfg.width + 5) / 6 * 16 * s.cfg.height
      else 2 * s.cfg.width * s.cfg.height) → size ≤ a.srcLen →
    (∀ t, burn a s = .next t → t.reply = some (.status .success) ∧ t.cfg = s.cfg ∧ t.rom = s.rom) ∧
    ∀ need : Nat, need = (if s.cfg.format = .interleaved8 ∧ s.cfg.width % 2 = 1 ∧ s.cfg.height % 2 = 1 then size + 1
        else size) →
      need ≤ a.dstLen → src.toNat + size ≤ 2 ^ Config.addrBits → dst.toNat + need ≤ 2 ^ Config.addrBits →
      (src = dst ∨ src.toNat + a.srcLen ≤ dst.toNat ∨ dst.toNat + a.dstLen ≤ src.toNat) →
      LabelExpressible s.cfg a.x a.y (label a.time).length →
      (s.cfg.format = .packed10 → s.mem.initialised src.toNat size) →
      ∃ t, burn a s = .next t ∧ t.reply = some (.status .success)

/-- R200, R221: the number software reads after a `burn` tells which of the four outcomes it was, and after `configure` it is
that of success. That distinct statuses have distinct numbers is the spec's decision D20; the numbers are free (log 7). -/
def Obligations.StatusCodesTellTheOutcome : Prop :=
  (∀ (a : BurnArgs) (s t : State), burn a s = .next t →
    (t.codeSeen = some (statusCode .invalidArgument) ↔ (a.src = none ∨ a.dst = none)) ∧
    (t.codeSeen = some (statusCode .notConfigured) ↔
      a.src ≠ none ∧ a.dst ≠ none ∧ (s.cfg.width = 0 ∨ s.cfg.height = 0)) ∧
    (t.codeSeen = some (statusCode .bufferTooSmall) ↔
      a.src ≠ none ∧ a.dst ≠ none ∧ s.cfg.width ≠ 0 ∧ s.cfg.height ≠ 0 ∧ a.srcLen < s.cfg.frameSize) ∧
    (t.codeSeen = some (statusCode .success) ↔
      a.src ≠ none ∧ a.dst ≠ none ∧ s.cfg.width ≠ 0 ∧ s.cfg.height ≠ 0 ∧ s.cfg.frameSize ≤ a.srcLen)) ∧
  (∀ (s : State) (w h : Nat) (f : PixelFormat) (c : Option Word),
    (configure w h f c s).codeSeen = some (statusCode .success))

/-- R197: the label is hour, minute and second, each the decimal representation padded with one `0` below 10, separated by
colons, then a period and the decimal without padding. -/
def Obligations.LabelIsTheTimecode : Prop :=
  ∀ t : TimeCode, ∃ h m s d, label t = h ++ ':' :: (m ++ ':' :: (s ++ '.' :: d)) ∧ IsDecimal t.decimal d ∧
    ∀ nf ∈ [(t.hour, h), (t.minute, m), (t.second, s)],
      2 ≤ nf.2.length ∧
      ((nf.1 < 10 ∧ ∃ e, nf.2 = '0' :: e ∧ e.length = 1 ∧ IsDecimal nf.1 e) ∨ (10 ≤ nf.1 ∧ IsDecimal nf.1 nf.2)) ∧
      (nf.1 < 100 → nf.2.length = 2)

/-- R198: the digits have glyph indexes 0 to 9, the colon 10, the period 11, every other character "no glyph"; and every
character of a label is one of the twelve, so it has a glyph of the table (the spec's inference from R197). The numbering is the
spec's decision D5; that the symbols are Lean characters is the model's (D21; PRESUMED, log 27). -/
def Obligations.LabelSymbolsHaveGlyphs : Prop :=
  (glyphIndex '0' = some 0 ∧ glyphIndex '1' = some 1 ∧ glyphIndex '2' = some 2 ∧ glyphIndex '3' = some 3 ∧
    glyphIndex '4' = some 4 ∧ glyphIndex '5' = some 5 ∧ glyphIndex '6' = some 6 ∧ glyphIndex '7' = some 7 ∧
    glyphIndex '8' = some 8 ∧ glyphIndex '9' = some 9 ∧ glyphIndex ':' = some 10 ∧ glyphIndex '.' = some 11) ∧
  (∀ c : Char, c ∉ ['0', '1', '2', '3', '4', '5', '6', '7', '8', '9', ':', '.'] → glyphIndex c = none) ∧
  ∀ t : TimeCode, ∀ c ∈ label t, ∃ (g : BitVec 4) (n : Fin 12), glyphIndex c = some g ∧ glyph? g = some n ∧ n.val = g.toNat

/-- R199, R191: when every cell is encodable, the label becomes one command a character, in order, `DRAW.I8`, `DRAW.P8` or
`DRAW.P10` as the configured format is Interleaved8, Planar8 or Packed10, at a cursor that advances one cell width a
character. -/
def Obligations.LabelCommandsAdvanceOneCell : Prop :=
  ∀ (c : HostConfig) (dst : Word) (x y : Int) (t : TimeCode),
    (∀ i : Nat, i < (label t).length → cellEncodable c (x + i * c.cellWidth) y = true) →
    ∃ cmds, labelCommands c dst y x (label t) = .ok cmds ∧ cmds.length = (label t).length ∧
      ∀ (i : Nat) (ch : Char) (g : BitVec 4), (label t)[i]? = some ch → glyphIndex ch = some g →
        ∃ a : DrawArgs, cmds[i]? = some (match c.format with
            | .interleaved8 => Instr.drawI8 a
            | .planar8 => Instr.drawP8 a
            | .packed10 => Instr.drawP10 a) ∧
          a.glyph = g ∧ a.X0 = x + i * max 1 (c.cellSize.toNat / 2) ∧
          a.Y0 = y ∧ a.CW = max 1 (c.cellSize.toNat / 2) ∧ a.CH = c.cellSize.toNat ∧ a.W = c.width ∧ a.H = c.height ∧
          a.base = dst

/-- R196: the copy of `n` bytes between two disjoint ranges makes the destination read as the source did and changes no other
byte. That a source byte with no value makes the destination byte one with no value is the model's choice (DESIGN CHOICE,
log 19), and so are the two windows the copy is checked against (DEDUCED, log 18). -/
def Obligations.CopyMovesTheFrame : Prop :=
  ∀ (src dst : Window) (n : Nat) (m : Memory),
    (∀ i : Nat, i < n → src.covers (src.base + i) 1 = true ∧ dst.covers (dst.base + i) 1 = true) →
    (src.base + n ≤ dst.base ∨ dst.base + n ≤ src.base) →
    ∃ m', copyBytes src dst n m = .ok m' ∧
      (∀ i : Nat, i < n → m'.read? (dst.base + i) = m.read? (src.base + i)) ∧
      (∀ addr : Nat, (addr < dst.base ∨ dst.base + n ≤ addr) → m'.read? addr = m.read? addr)

/-- R201: a successful two-buffer burn leaves the memory that the in-place form leaves on a destination that already holds a
copy of the source's frame. The in-place form is given the destination's true length (the model's argument; DEDUCED, log 18),
and a byte of the frame with no value is copied as one with no value (DESIGN CHOICE, log 19). -/
def Obligations.InPlaceBurnEqualsBurnOnACopy : Prop :=
  ∀ (s s' t : State) (a : BurnArgs) (src dst : Word), s.mem.wf = true → s'.mem.wf = true → s'.rom = s.rom → s'.cfg = s.cfg →
    a.src = some src → a.dst = some dst → src ≠ dst →
    burn a s = .next t → t.reply = some (.status .success) →
    (∀ i : Nat, i < s.cfg.frameSize → s'.mem.read? (dst.toNat + i) = s.mem.read? (src.toNat + i)) →
    (∀ addr : Nat, (addr < dst.toNat ∨ dst.toNat + s.cfg.frameSize ≤ addr) → s'.mem.read? addr = s.mem.read? addr) →
    ∃ t', burnInPlace (some dst) a.dstLen a.time a.x a.y s' = .next t' ∧ t'.mem = t.mem ∧
      t'.reply = some (.status .success)

/-- R205: a label wholly to the left of the frame is burnt with success and changes no byte. For the cells no descriptor
expresses this is the omission of R199 and D7, which the model extends from the cursor to `y` and the geometry (DEDUCED,
log 17); the window left lent is the buffer's length (DEDUCED, log 18). -/
def Obligations.BurnLeftOfTheFrameChangesNothing : Prop :=
  ∀ (buf : Word) (len : Nat) (time : TimeCode) (x y : Int) (s : State),
    s.cfg.width ≠ 0 → s.cfg.height ≠ 0 → s.cfg.frameSize ≤ len →
    x + (label time).length * s.cfg.cellWidth ≤ 0 →
    burnInPlace (some buf) len time x y s = .next { s with window := len, reply := some (.status .success) }

/-- R205 for Planar8 in place: a burn into a buffer of at least the expected size succeeds; every frame pixel of character
`i`'s cell has the luma level of that character's ink and neutral chroma, and every byte that is not luma or chroma of a
frame pixel of the label rectangle is as before. The plane bases are the spec's decision D10 (log 14), the window lent is the
buffer's length (log 18). -/
def Obligations.PlanarBurnLeavesTheLabel : Prop :=
  ∀ (buf : Word) (len : Nat) (time : TimeCode) (x y : Int) (s : State),
    s.cfg.format = .planar8 → s.cfg.width ≠ 0 → s.cfg.height ≠ 0 →
    2 * s.cfg.width * s.cfg.height ≤ len → buf.toNat + 2 * s.cfg.width * s.cfg.height ≤ 2 ^ Config.addrBits →
    (∀ i : Nat, i < (label time).length → cellEncodable s.cfg (x + i * s.cfg.cellWidth) y = true) →
    ∃ t, burnInPlace (some buf) len time x y s = .next t ∧ t.reply = some (.status .success) ∧
      t.rom = s.rom ∧ t.cfg = s.cfg ∧ t.inputs = s.inputs ∧
      (∀ (i px py sx sy : Nat) (c : Char) (g4 : BitVec 4) (g : Fin 12), (label time)[i]? = some c → glyphIndex c = some g4 →
        glyph? g4 = some g → px < s.cfg.cellWidth → py < s.cfg.cellHeight → sx < s.cfg.width → sy < s.cfg.height →
        (sx : Int) = x + i * s.cfg.cellWidth + px → (sy : Int) = y + py →
        t.mem.read? (buf.toNat + sy * s.cfg.width + sx) =
          some (if ink s.rom g s.cfg.cellWidth s.cfg.cellHeight px py then 235 else 16) ∧
        t.mem.read? (buf.toNat + s.cfg.width * s.cfg.height + (sy * (s.cfg.width / 2) + sx / 2)) = some 128 ∧
        t.mem.read? (buf.toNat + (s.cfg.width * s.cfg.height + s.cfg.width * s.cfg.height / 2) +
          (sy * (s.cfg.width / 2) + sx / 2)) = some 128) ∧
      (∀ addr : Nat,
        (∀ sx sy : Nat, sx < s.cfg.width → sy < s.cfg.height →
          x ≤ sx → (sx : Int) < x + (label time).length * s.cfg.cellWidth → y ≤ sy → (sy : Int) < y + s.cfg.cellHeight →
          addr ≠ buf.toNat + sy * s.cfg.width + sx ∧
          addr ≠ buf.toNat + s.cfg.width * s.cfg.height + (sy * (s.cfg.width / 2) + sx / 2) ∧
          addr ≠ buf.toNat + (s.cfg.width * s.cfg.height + s.cfg.width * s.cfg.height / 2) +
            (sy * (s.cfg.width / 2) + sx / 2)) →
        t.mem.read? addr = s.mem.read? addr)

/-- R205 for Interleaved8 with even `W`, in place: a burn into a buffer of at least the expected size succeeds; every frame
pixel of the label has the luma level of its character's ink, both chroma bytes of its group are neutral, and every byte that
is no luma or chroma byte of a frame pixel of the label rectangle is as before. Cells no descriptor expresses are omitted where
they are off the frame (log 17); the window lent is the buffer's length (log 18). -/
def Obligations.InterleavedBurnLeavesTheLabel : Prop :=
  ∀ (buf : Word) (len : Nat) (time : TimeCode) (x y : Int) (s : State),
    s.cfg.format = .interleaved8 → s.cfg.width ≠ 0 → s.cfg.height ≠ 0 → s.cfg.width % 2 = 0 →
    2 * s.cfg.width * s.cfg.height ≤ len → buf.toNat + 2 * s.cfg.width * s.cfg.height ≤ 2 ^ Config.addrBits →
    LabelExpressible s.cfg x y (label time).length →
    ∃ t, burnInPlace (some buf) len time x y s = .next t ∧ t.reply = some (.status .success) ∧
      t.rom = s.rom ∧ t.cfg = s.cfg ∧ t.inputs = s.inputs ∧
      (∀ (sx sy px py : Nat) (g : Fin 12), LabelShows s.cfg x y time sx sy g px py →
        t.mem.read? (buf.toNat + (sy * (2 * s.cfg.width) + 2 * sx + 1)) =
          some (if ink s.rom g s.cfg.cellWidth s.cfg.cellHeight px py then 235 else 16) ∧
        t.mem.read? (buf.toNat + (sy * (2 * s.cfg.width) + sx / 2 * 4)) = some 128 ∧
        t.mem.read? (buf.toNat + (sy * (2 * s.cfg.width) + sx / 2 * 4 + 2)) = some 128) ∧
      (∀ addr : Nat,
        (∀ sx sy : Nat, OnLabel s.cfg x y (label time).length sx sy →
          addr ≠ buf.toNat + (sy * (2 * s.cfg.width) + 2 * sx + 1) ∧
          addr ≠ buf.toNat + (sy * (2 * s.cfg.width) + sx / 2 * 4) ∧
          addr ≠ buf.toNat + (sy * (2 * s.cfg.width) + sx / 2 * 4 + 2)) →
        t.mem.read? addr = s.mem.read? addr)

/-- R205 for Packed10 in place: a burn into a buffer of at least the expected size whose frame holds values (D26) succeeds;
every frame pixel of the label has the luma level of its character's ink and both its chroma fields are neutral; every field
that is none of these is as before, so are bits 31:30 of every word (D19; log 15) and every byte outside the words touched.
Cells no descriptor expresses are omitted where they are off the frame (log 17); the window lent is the buffer's length
(log 18); words are little-endian (D8; log 13). -/
def Obligations.PackedBurnLeavesTheLabel : Prop :=
  ∀ (buf : Word) (len : Nat) (time : TimeCode) (x y : Int) (s : State),
    s.cfg.format = .packed10 → s.cfg.width ≠ 0 → s.cfg.height ≠ 0 →
    (s.cfg.width + 5) / 6 * 16 * s.cfg.height ≤ len →
    buf.toNat + (s.cfg.width + 5) / 6 * 16 * s.cfg.height ≤ 2 ^ Config.addrBits →
    s.mem.initialised buf.toNat ((s.cfg.width + 5) / 6 * 16 * s.cfg.height) →
    LabelExpressible s.cfg x y (label time).length →
    ∃ t, burnInPlace (some buf) len time x y s = .next t ∧ t.reply = some (.status .success) ∧
      t.rom = s.rom ∧ t.cfg = s.cfg ∧ t.inputs = s.inputs ∧
      (∀ (sx sy px py : Nat) (g : Fin 12), LabelShows s.cfg x y time sx sy g px py →
        t.mem.get10? (packedWordAddr buf.toNat s.cfg.width sx sy (lumaWS sx)) (lumaWS sx).slot =
          some (if ink s.rom g s.cfg.cellWidth s.cfg.cellHeight px py then 940 else 64) ∧
        t.mem.get10? (packedWordAddr buf.toNat s.cfg.width sx sy (chroma1WS sx)) (chroma1WS sx).slot = some 512 ∧
        t.mem.get10? (packedWordAddr buf.toNat s.cfg.width sx sy (chroma2WS sx)) (chroma2WS sx).slot = some 512) ∧
      (∀ (k : Nat) (sl : Fin 3),
        (∀ sx sy : Nat, OnLabel s.cfg x y (label time).length sx sy →
          ∀ ws ∈ [lumaWS sx, chroma1WS sx, chroma2WS sx],
            buf.toNat + 4 * k = packedWordAddr buf.toNat s.cfg.width sx sy ws → ws.slot ≠ sl) →
        t.mem.get10? (buf.toNat + 4 * k) sl = s.mem.get10? (buf.toNat + 4 * k) sl) ∧
      (∀ k : Nat, (t.mem.readWord? (buf.toNat + 4 * k)).map (fun v => v.extractLsb' 30 2) =
        (s.mem.readWord? (buf.toNat + 4 * k)).map (fun v => v.extractLsb' 30 2)) ∧
      (∀ addr : Nat,
        (∀ sx sy : Nat, OnLabel s.cfg x y (label time).length sx sy →
          ∀ ws ∈ [lumaWS sx, chroma1WS sx, chroma2WS sx],
            addr < packedWordAddr buf.toNat s.cfg.width sx sy ws ∨
            packedWordAddr buf.toNat s.cfg.width sx sy ws + 4 ≤ addr) →
        t.mem.read? addr = s.mem.read? addr)
end

