-- ==== Sys2Proof/Laws/State.lean ====
section
/-! SUPPORT. One lemma per field per update of the state, so that no later proof unfolds a record update. -/
namespace Sys2Proof.Machine

section
variable (s : State)

@[simp] theorem answer_mem (st : Status) : (s.answer st).mem = s.mem := rfl
@[simp] theorem answer_rom (st : Status) : (s.answer st).rom = s.rom := rfl
@[simp] theorem answer_cfg (st : Status) : (s.answer st).cfg = s.cfg := rfl
@[simp] theorem answer_window (st : Status) : (s.answer st).window = s.window := rfl
@[simp] theorem answer_inputs (st : Status) : (s.answer st).inputs = s.inputs := rfl
@[simp] theorem answer_reply (st : Status) : (s.answer st).reply = some (.status st) := rfl
@[simp] theorem answer_codeSeen (st : Status) : (s.answer st).codeSeen = some (statusCode st) := rfl

@[simp] theorem present_mem (d : Descriptor) : (s.present d).mem = s.mem := rfl
@[simp] theorem present_rom (d : Descriptor) : (s.present d).rom = s.rom := rfl
@[simp] theorem present_cfg (d : Descriptor) : (s.present d).cfg = s.cfg := rfl
@[simp] theorem present_window (d : Descriptor) : (s.present d).window = s.window := rfl
@[simp] theorem present_reply (d : Descriptor) : (s.present d).reply = s.reply := rfl
@[simp] theorem present_inputs (d : Descriptor) :
    (s.present d).inputs = .command d s.window :: s.inputs := rfl

@[simp] theorem resetIdle_mem : (resetIdle s).mem = s.mem := rfl
@[simp] theorem resetIdle_rom : (resetIdle s).rom = s.rom := rfl
@[simp] theorem resetIdle_cfg : (resetIdle s).cfg = HostConfig.reset := rfl
@[simp] theorem resetIdle_window : (resetIdle s).window = 0 := rfl
@[simp] theorem resetIdle_reply : (resetIdle s).reply = none := rfl
@[simp] theorem resetIdle_inputs : (resetIdle s).inputs = s.inputs := rfl
@[simp] theorem resetIdle_codeSeen : (resetIdle s).codeSeen = none := rfl

section
variable (w h : Nat) (f : PixelFormat) (c : Option Word)
@[simp] theorem configure_mem : (configure w h f c s).mem = s.mem := rfl
@[simp] theorem configure_rom : (configure w h f c s).rom = s.rom := rfl
@[simp] theorem configure_window : (configure w h f c s).window = s.window := rfl
@[simp] theorem configure_inputs : (configure w h f c s).inputs = s.inputs := rfl
@[simp] theorem configure_reply : (configure w h f c s).reply = some (.status .success) := rfl
@[simp] theorem configure_codeSeen : (configure w h f c s).codeSeen = some (statusCode .success) := rfl
@[simp] theorem configure_cfg :
    (configure w h f c s).cfg = { width := w, height := h, format := f, cellSize := c.getD defaultCellSize } := rfl
end

@[simp] theorem windowIn_base (a : DrawArgs) : (a.windowIn s).base = a.B := rfl
@[simp] theorem windowIn_len (a : DrawArgs) : (a.windowIn s).len = s.window := rfl

/-- A refused or faulted ending latches no reply. -/
@[simp] theorem afterEnding_mem (t : Transaction) : (s.afterEnding t).mem = t.mem := by
  unfold State.afterEnding; split <;> rfl

@[simp] theorem afterEnding_inputs (t : Transaction) : (s.afterEnding t).inputs = s.inputs := by
  unfold State.afterEnding; split <;> rfl

@[simp] theorem afterEnding_rom (t : Transaction) : (s.afterEnding t).rom = s.rom := by
  unfold State.afterEnding; split <;> rfl

@[simp] theorem afterEnding_cfg (t : Transaction) : (s.afterEnding t).cfg = s.cfg := by
  unfold State.afterEnding; split <;> rfl

@[simp] theorem afterEnding_window (t : Transaction) : (s.afterEnding t).window = s.window := by
  unfold State.afterEnding; split <;> rfl

end

/-- The memory after reset has the canonical form. -/
theorem reset_mem_wf : State.reset.mem.wf = true := by decide

end Sys2Proof.Machine
end

