-- ==== Sys2Proof/Laws/Memory.lean ====
section
/-! SUPPORT. The laws of memory: read after write, the canonical form kept by every operation, and two canonical memories
that read alike are one memory. -/
namespace Sys2Proof.Machine

@[simp] theorem read_nil (a : Nat) : Memory.read? [] a = none := rfl

theorem read_cons (c : Host.Cell) (m : Memory) (a : Nat) :
    Memory.read? (c :: m) a = if c.1 = a then some c.2 else Memory.read? m a := rfl

@[simp] theorem read_write_same (m : Memory) (a : Nat) (b : Byte) : (m.write a b).read? a = some b := by
  induction m with
  | nil => simp [Memory.write, Memory.read?]
  | cons c m ih =>
    unfold Memory.write
    split
    · simp [Memory.read?]
    · split
      · simp [Memory.read?]
      · simp [Memory.read?, *]

theorem read_write_other (m : Memory) {a a' : Nat} (b : Byte) (h : a' ≠ a) :
    (m.write a b).read? a' = m.read? a' := by
  induction m with
  | nil => simp [Memory.write, Memory.read?, h.symm]
  | cons c m ih =>
    unfold Memory.write
    split
    · simp [Memory.read?, h.symm]
    · split
      · rename_i hc; subst hc; simp [Memory.read?, h.symm]
      · simp [Memory.read?, ih]

/-- A byte after a write: the written one, or what it was. -/
theorem read_write (m : Memory) (a a' : Nat) (b : Byte) :
    (m.write a b).read? a' = if a' = a then some b else m.read? a' := by
  split
  · next h => subst h; simp
  · next h => exact read_write_other m b h

theorem read_erase (m : Memory) (a a' : Nat) :
    (m.erase a).read? a' = if a' = a then none else m.read? a' := by
  induction m with
  | nil => simp [Memory.erase]
  | cons c m ih =>
    unfold Memory.erase at *
    by_cases hc : c.1 = a
    · simp only [List.filter_cons, hc, bne_self_eq_false, Bool.false_eq_true, if_false, ih, read_cons]
      split
      · rfl
      · next h => rw [if_neg (Ne.symm h)]
    · have : (c.1 != a) = true := by simpa using hc
      simp only [List.filter_cons, this, if_true, read_cons, ih]
      split
      · next h => subst h; simp [hc]
      · rfl

theorem read_put (m : Memory) (a a' : Nat) (v : Option Byte) :
    (m.put a v).read? a' = if a' = a then v else m.read? a' := by
  cases v with
  | none => exact read_erase m a a'
  | some b => exact read_write m a a' b

/-! ### The canonical form -/

theorem wf_iff (m : Memory) : m.wf = true ↔ m.Pairwise fun p q => p.1 < q.1 := by simp [Memory.wf]

theorem wf_nil : Memory.wf [] = true := by decide

theorem wf_cons (c : Host.Cell) (m : Memory) :
    Memory.wf (c :: m) = true ↔ (∀ d ∈ m, c.1 < d.1) ∧ m.wf = true := by
  simp [wf_iff, List.pairwise_cons]

theorem mem_write {m : Memory} {a : Nat} {b : Byte} {d : Host.Cell} (h : d ∈ m.write a b) : d = (a, b) ∨ d ∈ m := by
  induction m with
  | nil => simpa [Memory.write] using h
  | cons c m ih =>
    unfold Memory.write at h
    split at h
    · simpa using h
    · split at h
      · rcases List.mem_cons.1 h with h | h
        · exact .inl h
        · exact .inr (List.mem_cons_of_mem _ h)
      · rcases List.mem_cons.1 h with h | h
        · exact .inr (h ▸ List.mem_cons_self)
        · exact (ih h).imp_right (List.mem_cons_of_mem _)

theorem wf_write {m : Memory} (h : m.wf = true) (a : Nat) (b : Byte) : (m.write a b).wf = true := by
  induction m with
  | nil => simp [Memory.write, Memory.wf]
  | cons c m ih =>
    obtain ⟨hc, hm⟩ := (wf_cons c m).1 h
    unfold Memory.write
    split
    · next ha =>
      refine (wf_cons _ _).2 ⟨fun d hd => ?_, h⟩
      rcases List.mem_cons.1 hd with rfl | hd
      · exact ha
      · exact ha.trans (hc d hd)
    · split
      · next _ he => exact (wf_cons _ _).2 ⟨fun d hd => by simpa [← he] using hc d hd, hm⟩
      · next h1 h2 =>
        refine (wf_cons _ _).2 ⟨fun d hd => ?_, ih hm⟩
        rcases mem_write hd with rfl | hd
        · simp only; omega
        · exact hc d hd

theorem wf_erase {m : Memory} (h : m.wf = true) (a : Nat) : (m.erase a).wf = true := by
  rw [wf_iff] at *
  exact h.filter _

theorem wf_put {m : Memory} (h : m.wf = true) (a : Nat) (v : Option Byte) : (m.put a v).wf = true := by
  cases v with
  | none => exact wf_erase h a
  | some b => exact wf_write h a b

theorem wf_writeWord {m : Memory} (h : m.wf = true) (a : Nat) (v : Word) : (m.writeWord a v).wf = true :=
  wf_write (wf_write (wf_write (wf_write h _ _) _ _) _ _) _ _

/-- An address below every listed one holds no value. -/
theorem read_none_of_lt {m : Memory} {a : Nat} (h : ∀ d ∈ m, a < d.1) : m.read? a = none := by
  induction m with
  | nil => rfl
  | cons c m ih =>
    have hc := h c List.mem_cons_self
    rw [read_cons, if_neg (by omega), ih fun d hd => h d (List.mem_cons_of_mem _ hd)]

/-- Two canonical memories that read alike everywhere are equal: the canonical form is unique. -/
theorem memory_ext {m m' : Memory} (h : m.wf = true) (h' : m'.wf = true)
    (hr : ∀ a, m.read? a = m'.read? a) : m = m' := by
  induction m generalizing m' with
  | nil =>
    cases m' with
    | nil => rfl
    | cons c m' => have := hr c.1; simp [Memory.read?] at this
  | cons c m ih =>
    cases m' with
    | nil => have := hr c.1; simp [Memory.read?] at this
    | cons c' m' =>
      obtain ⟨hc, hm⟩ := (wf_cons c m).1 h
      obtain ⟨hc', hm'⟩ := (wf_cons c' m').1 h'
      have key : c.1 = c'.1 := by
        rcases Nat.lt_trichotomy c.1 c'.1 with hlt | he | hlt
        · have := hr c.1
          rw [read_none_of_lt (m := c' :: m')] at this
          · simp [Memory.read?] at this
          · intro d hd
            rcases List.mem_cons.1 hd with rfl | hd
            · exact hlt
            · exact hlt.trans (hc' d hd)
        · exact he
        · have := hr c'.1
          rw [read_none_of_lt (m := c :: m)] at this
          · simp [Memory.read?] at this
          · intro d hd
            rcases List.mem_cons.1 hd with rfl | hd
            · exact hlt
            · exact hlt.trans (hc d hd)
      have hv : c.2 = c'.2 := by
        have := hr c.1
        simpa [Memory.read?, key] using this
      have hcc : c = c' := Prod.ext key hv
      subst hcc
      congr 1
      refine ih hm hm' fun a => ?_
      by_cases ha : c.1 = a
      · subst ha; rw [read_none_of_lt hc, read_none_of_lt hc']
      · have := hr a
        simpa [Memory.read?, ha] using this

/-- Writes to different addresses commute on a canonical memory. -/
theorem write_comm {m : Memory} (h : m.wf = true) {a a' : Nat} (hne : a ≠ a') (b b' : Byte) :
    (m.write a b).write a' b' = (m.write a' b').write a b := by
  refine memory_ext (wf_write (wf_write h _ _) _ _) (wf_write (wf_write h _ _) _ _) fun x => ?_
  simp only [read_write]
  split <;> split <;> simp_all

/-- Writing the value a byte already holds changes nothing. -/
theorem write_self {m : Memory} (h : m.wf = true) {a : Nat} {b : Byte} (hr : m.read? a = some b) : m.write a b = m := by
  refine memory_ext (wf_write h _ _) h fun x => ?_
  rw [read_write]; split
  · next hx => rw [hx, hr]
  · rfl

/-! ### The address space -/

theorem inSpace_iff (m : Memory) : m.inSpace = true ↔ ∀ c ∈ m, c.1 < 2 ^ Config.addrBits := by
  simp [Memory.inSpace]

theorem inSpace_write {m : Memory} (h : m.inSpace = true) {a : Nat} (ha : a < 2 ^ Config.addrBits) (b : Byte) :
    (m.write a b).inSpace = true := by
  rw [inSpace_iff] at *
  intro c hc
  rcases mem_write hc with rfl | hc
  · exact ha
  · exact h c hc

theorem inSpace_erase {m : Memory} (h : m.inSpace = true) (a : Nat) : (m.erase a).inSpace = true := by
  rw [inSpace_iff] at *
  exact fun c hc => h c (List.mem_of_mem_filter hc)

theorem inSpace_put {m : Memory} (h : m.inSpace = true) {a : Nat} (ha : a < 2 ^ Config.addrBits) (v : Option Byte) :
    (m.put a v).inSpace = true := by
  cases v with
  | none => exact inSpace_erase h a
  | some b => exact inSpace_write h ha b

theorem inSpace_writeWord {m : Memory} (h : m.inSpace = true) {a : Nat} (ha : a + 4 ≤ 2 ^ Config.addrBits) (v : Word) :
    (m.writeWord a v).inSpace = true :=
  inSpace_write (inSpace_write (inSpace_write (inSpace_write h (by omega) _) (by omega) _) (by omega) _) (by omega) _

/-! ### Words -/

/-- A byte after a word write: the word's byte, or what it was. -/
theorem read_writeWord (m : Memory) (a x : Nat) (v : Word) :
    (m.writeWord a v).read? x =
      if x = a + 3 then some (wordByte v 3) else if x = a + 2 then some (wordByte v 2)
      else if x = a + 1 then some (wordByte v 1) else if x = a then some (wordByte v 0) else m.read? x := by
  simp only [Memory.writeWord, read_write]

theorem read_writeWord_outside (m : Memory) {a x : Nat} (v : Word) (h : x < a ∨ a + 4 ≤ x) :
    (m.writeWord a v).read? x = m.read? x := by
  rw [read_writeWord, if_neg (by omega), if_neg (by omega), if_neg (by omega), if_neg (by omega)]

/-- The bytes of a word make the word again. -/
theorem wordOfBytes_wordByte (v : Word) :
    wordOfBytes (wordByte v 0) (wordByte v 1) (wordByte v 2) (wordByte v 3) = v := by
  apply BitVec.eq_of_getLsbD_eq
  intro i hi
  simp only [wordOfBytes, wordByte, BitVec.getLsbD_append, BitVec.getLsbD_extractLsb']
  split
  · split
    · split
      · simp [*]
      · rw [decide_eq_true (by omega), Bool.true_and]; congr 1; omega
    · rw [decide_eq_true (by omega), Bool.true_and]; congr 1; omega
  · rw [decide_eq_true (by omega), Bool.true_and]; congr 1; omega

/-- A word address holds a value when its four bytes do. -/
theorem readWord_isSome (m : Memory) (a : Nat) :
    (m.readWord? a).isSome = true ↔ ∀ i, i < 4 → (m.read? (a + i)).isSome = true := by
  constructor
  · intro h i hi
    unfold Memory.readWord? at h
    split at h
    · next h0 h1 h2 h3 =>
      obtain rfl | rfl | rfl | rfl : i = 0 ∨ i = 1 ∨ i = 2 ∨ i = 3 := by omega
      · simp [h0]
      · simp [h1]
      · simp [h2]
      · simp [h3]
    · cases h
  · intro h
    obtain ⟨b0, h0⟩ := Option.isSome_iff_exists.1 (h 0 (by omega))
    obtain ⟨b1, h1⟩ := Option.isSome_iff_exists.1 (h 1 (by omega))
    obtain ⟨b2, h2⟩ := Option.isSome_iff_exists.1 (h 2 (by omega))
    obtain ⟨b3, h3⟩ := Option.isSome_iff_exists.1 (h 3 (by omega))
    simp only [Nat.add_zero] at h0
    simp [Memory.readWord?, h0, h1, h2, h3]

/-- Word reads depend on the four bytes alone. -/
theorem readWord_congr {m m' : Memory} {a : Nat} (h : ∀ i, i < 4 → m.read? (a + i) = m'.read? (a + i)) :
    m.readWord? a = m'.readWord? a := by
  have h0 := h 0 (by omega)
  have h1 := h 1 (by omega)
  have h2 := h 2 (by omega)
  have h3 := h 3 (by omega)
  simp only [Nat.add_zero] at h0
  simp [Memory.readWord?, h0, h1, h2, h3]

end Sys2Proof.Machine
end

