-- ==== Sys2Proof/Laws/Ops.lean ====
section
/-! SUPPORT. For each shared operation, one lemma that says all it can do. -/
namespace Sys2Proof.Machine

theorem covers_iff (w : Window) (a n : Nat) :
    w.covers a n = true ↔ w.base ≤ a ∧ a + n ≤ w.base + w.len ∧ a + n ≤ 2 ^ Config.addrBits := by
  simp [Window.covers, and_assoc]

theorem mem_intRange (lo hi : Int) (n : Nat) : n ∈ intRange lo hi ↔ lo.toNat ≤ n ∧ (n : Int) < hi := by
  simp only [intRange, List.mem_range'_1]; omega

theorem nodup_intRange (lo hi : Int) : (intRange lo hi).Nodup := List.nodup_range'

theorem length_intRange (lo hi : Int) : (intRange lo hi).length = hi.toNat - lo.toNat := by simp [intRange]

/-- A glyph index names a bitmap exactly when it is below 12. -/
theorem glyph_eq_some (g : BitVec 4) (n : Fin 12) : glyph? g = some n ↔ g.toNat = n.val := by
  unfold glyph?
  split
  · next h => simp [Fin.ext_iff]
  · next h => simp; omega

theorem glyph_eq_none (g : BitVec 4) : glyph? g = none ↔ 12 ≤ g.toNat := by
  unfold glyph?; split <;> simp_all

/-- Two statuses with one code are one status. -/
theorem statusCode_inj {st st' : Status} : statusCode st = statusCode st' ↔ st = st' := by
  refine ⟨fun h => ?_, fun h => h ▸ rfl⟩
  have places : statusPlace st = statusPlace st' := Config.statusNumbering.injective h
  cases st <;> cases st' <;> first | rfl | cases places

/-- What software reads as the code of a status is the code of that status alone. -/
theorem codeSeen_eq (s : State) (st : Status) :
    s.codeSeen = some (statusCode st) ↔ s.reply = some (.status st) := by
  unfold State.codeSeen
  split
  · next h => simp [h, statusCode_inj]
  · next h => exact ⟨nofun, fun h' => absurd h' (h st)⟩

/-! ### Memory accesses -/

theorem memWrite8_ok (w : Window) (a : Nat) (v : Byte) (m m' : Memory) :
    memWrite8 w a v m = .ok m' ↔ w.covers a 1 = true ∧ m' = m.write a v := by
  unfold memWrite8; split <;> simp_all; exact eq_comm

theorem memWrite8_error (w : Window) (a : Nat) (v : Byte) (m : Memory) (f : Fault) :
    memWrite8 w a v m = .error f ↔ w.covers a 1 = false ∧ f = .outOfWindow := by
  unfold memWrite8; split <;> simp_all; exact eq_comm

theorem memRead32_ok (w : Window) (a : Nat) (m : Memory) (v : Word) :
    memRead32 w a m = .ok v ↔ w.covers a 4 = true ∧ m.readWord? a = some v := by
  unfold memRead32; split
  · split <;> simp_all
  · simp_all

theorem memRead32_error (w : Window) (a : Nat) (m : Memory) (f : Fault) :
    memRead32 w a m = .error f ↔
      (w.covers a 4 = false ∧ f = .outOfWindow) ∨
      (w.covers a 4 = true ∧ m.readWord? a = none ∧ f = .uninitialised) := by
  unfold memRead32; split
  · split <;> simp_all; exact eq_comm
  · simp_all; exact eq_comm

theorem memWrite32_ok (w : Window) (a : Nat) (v : Word) (m m' : Memory) :
    memWrite32 w a v m = .ok m' ↔ w.covers a 4 = true ∧ m' = m.writeWord a v := by
  unfold memWrite32; split <;> simp_all; exact eq_comm

/-- `Set10` completes exactly when its word lies in the window and holds a value; it then rewrites that word. -/
theorem set10_ok (w : Window) (a : Nat) (s : Fin 3) (x : BitVec 10) (m m' : Memory) :
    set10 w a s x m = .ok m' ↔
      ∃ old, w.covers a 4 = true ∧ m.readWord? a = some old ∧ m' = m.writeWord a (withSlot old s x) := by
  unfold set10
  split
  · next old h =>
    obtain ⟨hc, hr⟩ := (memRead32_ok _ _ _ _).1 h
    simp [memWrite32_ok, hc, hr]
  · next f h =>
    rcases (memRead32_error _ _ _ _).1 h with ⟨hc, -⟩ | ⟨hc, hr, -⟩ <;> simp [*]

theorem set10_error (w : Window) (a : Nat) (s : Fin 3) (x : BitVec 10) (m : Memory) (f : Fault) :
    set10 w a s x m = .error f ↔
      (w.covers a 4 = false ∧ f = .outOfWindow) ∨
      (w.covers a 4 = true ∧ m.readWord? a = none ∧ f = .uninitialised) := by
  unfold set10
  split
  · next old h =>
    obtain ⟨hc, hr⟩ := (memRead32_ok _ _ _ _).1 h
    simp [memWrite32, hc, hr]
  · next f' h => rw [← memRead32_error, h]; simp

/-! ### One access -/

/-- An access that is performed is covered by the window, and changes only the bytes it names. -/
theorem perform_ok {w : Window} {m m' : Memory} {x : Access} (h : x.perform w m = .ok m') :
    w.covers x.addr x.size = true ∧
      ∀ addr, (addr < x.addr ∨ x.addr + x.size ≤ addr) → m'.read? addr = m.read? addr := by
  cases x with
  | store a v =>
    obtain ⟨hc, rfl⟩ := (memWrite8_ok _ _ _ _ _).1 h
    exact ⟨hc, fun addr ha => read_write_other _ _ (by simp [Access.addr, Access.size] at ha; omega)⟩
  | setField a s v =>
    obtain ⟨old, hc, -, rfl⟩ := (set10_ok _ _ _ _ _ _).1 h
    exact ⟨hc, fun addr ha => read_writeWord_outside _ _ ha⟩

theorem perform_wf {w : Window} {m m' : Memory} {x : Access} (h : x.perform w m = .ok m') (hm : m.wf = true) :
    m'.wf = true := by
  cases x with
  | store a v => obtain ⟨-, rfl⟩ := (memWrite8_ok _ _ _ _ _).1 h; exact wf_write hm _ _
  | setField a s v => obtain ⟨_, -, -, rfl⟩ := (set10_ok _ _ _ _ _ _).1 h; exact wf_writeWord hm _ _

theorem perform_inSpace {w : Window} {m m' : Memory} {x : Access} (h : x.perform w m = .ok m')
    (hm : m.inSpace = true) : m'.inSpace = true := by
  cases x with
  | store a v =>
    obtain ⟨hc, rfl⟩ := (memWrite8_ok _ _ _ _ _).1 h
    exact inSpace_write hm (by have := (covers_iff _ _ _).1 hc; omega) _
  | setField a s v =>
    obtain ⟨_, hc, -, rfl⟩ := (set10_ok _ _ _ _ _ _).1 h
    exact inSpace_writeWord hm ((covers_iff _ _ _).1 hc).2.2 _

/-! ### The accesses of a command -/

@[simp] theorem runAccesses_nil (w : Window) (m : Memory) : runAccesses w [] m = { mem := m, ending := .done } := rfl

theorem runAccesses_cons_ok {w : Window} {m m' : Memory} {x : Access} (xs : List Access) (h : x.perform w m = .ok m') :
    runAccesses w (x :: xs) m = runAccesses w xs m' := by simp [runAccesses, h]

theorem runAccesses_cons_error {w : Window} {m : Memory} {x : Access} {f : Fault} (xs : List Access)
    (h : x.perform w m = .error f) : runAccesses w (x :: xs) m = { mem := m, ending := .fault f } := by
  simp [runAccesses, h]

/-- The accesses of a command end done or at a fault, nothing else. -/
theorem runAccesses_ending (w : Window) (xs : List Access) (m : Memory) :
    (runAccesses w xs m).ending = .done ∨ ∃ f, (runAccesses w xs m).ending = .fault f := by
  induction xs generalizing m with
  | nil => exact .inl rfl
  | cons x xs ih =>
    cases h : x.perform w m with
    | ok m' => rw [runAccesses_cons_ok _ h]; exact ih m'
    | error f => rw [runAccesses_cons_error _ h]; exact .inr ⟨f, rfl⟩

/-- Two runs of accesses one after the other are the run of both. -/
theorem runAccesses_append {w : Window} {xs ys : List Access} {m : Memory}
    (h : (runAccesses w xs m).ending = .done) :
    runAccesses w (xs ++ ys) m = runAccesses w ys (runAccesses w xs m).mem := by
  induction xs generalizing m with
  | nil => rfl
  | cons x xs ih =>
    cases hx : x.perform w m with
    | ok m' =>
      rw [runAccesses_cons_ok _ hx] at h ⊢
      rw [List.cons_append, runAccesses_cons_ok _ hx]; exact ih h
    | error f => rw [runAccesses_cons_error _ hx] at h; cases h

theorem runAccesses_wf (w : Window) (xs : List Access) {m : Memory} (hm : m.wf = true) :
    (runAccesses w xs m).mem.wf = true := by
  induction xs generalizing m with
  | nil => exact hm
  | cons x xs ih =>
    cases hx : x.perform w m with
    | ok m' => rw [runAccesses_cons_ok _ hx]; exact ih (perform_wf hx hm)
    | error f => rw [runAccesses_cons_error _ hx]; exact hm

theorem runAccesses_inSpace (w : Window) (xs : List Access) {m : Memory} (hm : m.inSpace = true) :
    (runAccesses w xs m).mem.inSpace = true := by
  induction xs generalizing m with
  | nil => exact hm
  | cons x xs ih =>
    cases hx : x.perform w m with
    | ok m' => rw [runAccesses_cons_ok _ hx]; exact ih (perform_inSpace hx hm)
    | error f => rw [runAccesses_cons_error _ hx]; exact hm

/-! ### Commands -/

/-- The order `exec` gives a command. -/
def modelOrder : Instr → List Pixel
  | .raster _ => []
  | .drawI8 a => i8Order a
  | .drawP8 a => a.visits
  | .drawP10 a => a.visits

/-- Every meaning is the conclusion of the command's transaction. -/
theorem exec_eq (i : Instr) (s : State) : exec i s = conclude s (transaction (modelOrder i) i s) := by cases i <;> rfl

/-- What a concluded transaction can answer: `done` or one ink bit. -/
theorem conclude_next {s u : State} {t : Transaction} (h : conclude s t = .next u) :
    (t.ending = .done ∧ u = { s with mem := t.mem, reply := some .done }) ∨
    ∃ b, t.ending = .respond b ∧ u = { s with mem := t.mem, reply := some (.respond b) } := by
  unfold conclude at h
  split at h <;> simp_all

theorem conclude_done (s : State) (m : Memory) :
    conclude s { mem := m, ending := .done } = .next { s with mem := m, reply := some .done } := rfl

theorem conclude_fault (s : State) (m : Memory) (f : Fault) :
    conclude s { mem := m, ending := .fault f } = .fault f := rfl

/-- A `DRAW` with no glyph makes no access; with one it runs the accesses of its visits. -/
theorem drawCell_cases (wp : WritePixel) (order : List Pixel) (a : DrawArgs) (s : State) :
    (glyph? a.glyph = none ∧ drawCell wp order a s = { mem := s.mem, ending := .done }) ∨
    ∃ g, glyph? a.glyph = some g ∧
      drawCell wp order a s = runAccesses (a.windowIn s) (cellAccesses wp s.rom g a order) s.mem := by
  unfold drawCell
  cases h : glyph? a.glyph with
  | none => exact .inl ⟨rfl, rfl⟩
  | some g => exact .inr ⟨g, rfl, rfl⟩

/-- The open order of `DRAW.I8` is a visit order. -/
theorem freeOrder_perm (a : DrawArgs) : VisitOrder a (freeOrder a) := List.perm_insertionSort _ _

theorem i8Order_perm (a : DrawArgs) : VisitOrder a (i8Order a) := by
  unfold i8Order; split
  · exact freeOrder_perm a
  · exact List.Perm.refl _

/-! ### The host's memory operations keep the canonical form -/

theorem copyByte_wf {src dst : Window} {i : Nat} {m m' : Memory} (h : copyByte src dst i m = .ok m') (hm : m.wf = true) :
    m'.wf = true := by
  unfold copyByte at h
  split at h <;> cases h
  exact wf_put hm _ _

theorem copyByte_inSpace {src dst : Window} {i : Nat} {m m' : Memory} (h : copyByte src dst i m = .ok m')
    (hm : m.inSpace = true) : m'.inSpace = true := by
  unfold copyByte at h
  split at h <;> cases h
  next hc =>
    simp only [Bool.and_eq_true, covers_iff] at hc
    exact inSpace_put hm (by omega) _

theorem copyBytes_wf {src dst : Window} {n : Nat} {m m' : Memory} (h : copyBytes src dst n m = .ok m')
    (hm : m.wf = true) : m'.wf = true := by
  induction n generalizing m' with
  | zero => cases h; exact hm
  | succ n ih =>
    unfold copyBytes at h
    split at h
    · next h' => exact copyByte_wf h (ih h')
    · cases h

theorem copyBytes_inSpace {src dst : Window} {n : Nat} {m m' : Memory} (h : copyBytes src dst n m = .ok m')
    (hm : m.inSpace = true) : m'.inSpace = true := by
  induction n generalizing m' with
  | zero => cases h; exact hm
  | succ n ih =>
    unfold copyBytes at h
    split at h
    · next h' => exact copyByte_inSpace h (ih h')
    · cases h

theorem fillBytes_wf {w : Window} {a : Nat} {bs : List Byte} {m m' : Memory} (h : fillBytes w a bs m = .ok m')
    (hm : m.wf = true) : m'.wf = true := by
  induction bs generalizing a m with
  | nil => cases h; exact hm
  | cons b bs ih =>
    unfold fillBytes at h
    split at h
    · next h' => exact ih h (by obtain ⟨-, rfl⟩ := (memWrite8_ok _ _ _ _ _).1 h'; exact wf_write hm _ _)
    · cases h

theorem fillBytes_inSpace {w : Window} {a : Nat} {bs : List Byte} {m m' : Memory} (h : fillBytes w a bs m = .ok m')
    (hm : m.inSpace = true) : m'.inSpace = true := by
  induction bs generalizing a m with
  | nil => cases h; exact hm
  | cons b bs ih =>
    unfold fillBytes at h
    split at h
    · next h' =>
      refine ih h ?_
      obtain ⟨hc, rfl⟩ := (memWrite8_ok _ _ _ _ _).1 h'
      exact inSpace_write hm (by have := (covers_iff _ _ _).1 hc; omega) _
    · cases h

end Sys2Proof.Machine
end

