-- ==== Sys2Proof/Laws/PerInstr.lean ====
section
/-! SUPPORT. Facts about every command as syntax, one lemma per constructor. -/
namespace Sys2Proof

/-- The opcode of a command (R63). -/
def Instr.opcode : Instr → BitVec 4
  | .raster _ => 0
  | .drawI8 _ => 1
  | .drawP8 _ => 2
  | .drawP10 _ => 3

/-- The glyph index of a command (R64). -/
def Instr.glyph : Instr → BitVec 4
  | .raster a => a.glyph
  | .drawI8 a => a.glyph
  | .drawP8 a => a.glyph
  | .drawP10 a => a.glyph

end Sys2Proof

namespace Sys2Proof.Laws.EncodeHeader

/-- The header word of an encoded command is its opcode and its glyph index, and nothing else: the match and mask of the
opcode table. -/
def Statement (i : Instr) : Prop := (encode i).d0.toNat = 16 * i.glyph.toNat + i.opcode.toNat

theorem header_toNat (op g : BitVec 4) : (headerWord op g).toNat = 16 * g.toNat + op.toNat := by
  revert op g; decide

theorem raster (a : RasterArgs) : Statement (.raster a) := header_toNat 0 a.glyph
theorem drawI8 (a : DrawArgs) : Statement (.drawI8 a) := header_toNat 1 a.glyph
theorem drawP8 (a : DrawArgs) : Statement (.drawP8 a) := header_toNat 2 a.glyph
theorem drawP10 (a : DrawArgs) : Statement (.drawP10 a) := header_toNat 3 a.glyph

end Sys2Proof.Laws.EncodeHeader
end

