-- ==== Sys2Proof/Tests/Slice0.lean ====
section
/-! SUPPORT. Tests on fixed values, each from a vector the spec works out (95_test_vectors.md), and for every statement with
hypotheses a witness that meets them together. -/
namespace Sys2Proof.Tests

open Sys2Proof.Machine

/-! ### Fixtures -/

/-- Sixteen rows, eight of one byte and eight of another. -/
def twoHalves (top bottom : Byte) : Glyph :=
  #v[top, top, top, top, top, top, top, top, bottom, bottom, bottom, bottom, bottom, bottom, bottom, bottom]

/-- The fixture table `FIX` of 95_test_vectors.md section 1; it is not the font of the hardware. -/
def fix : GlyphTable :=
  #v[twoHalves 0x0F 0xF0, twoHalves 0xF0 0x0F, twoHalves 0x0F 0xF0, twoHalves 0xF0 0x0F, twoHalves 0x0F 0xF0,
     twoHalves 0xF0 0x0F, twoHalves 0x0F 0xF0, twoHalves 0xF0 0x0F, twoHalves 0x0F 0xF0, twoHalves 0xF0 0x0F,
     #v[0xAA, 0x55, 0xAA, 0x55, 0xAA, 0x55, 0xAA, 0x55, 0xAA, 0x55, 0xAA, 0x55, 0xAA, 0x55, 0xAA, 0x55],
     twoHalves 0xFF 0x00]

/-- `n` bytes of value `b` from address `a` on. -/
def filled (a n : Nat) (b : Byte) : Memory := (List.range n).map fun i => (a + i, b)

/-- The gray packed buffer of R170, four bytes a word. -/
def gray (words : Nat) : Memory :=
  (List.range words).flatMap fun k => [(4 * k, 0x00), (4 * k + 1, 0x02), (4 * k + 2, 0x08), (4 * k + 3, 0x20)]

/-- A state with memory `m`, the fixture table and a window of `len` bytes. -/
def stateWith (m : Memory) (len : Nat) : State := { State.reset with mem := m, rom := fix, window := len }

/-- A `DRAW` at base 0. -/
def cell (g : BitVec 4) (x0 y0 : Int) (cw ch w h : Nat) : DrawArgs :=
  { glyph := g, x0 := .ofInt 32 x0, y0 := .ofInt 32 y0, cw := .ofNat 32 cw, ch := .ofNat 32 ch,
    width := .ofNat 32 w, height := .ofNat 32 h, base := 0 }

/-- The next state, if there is one. -/
def answered (o : Host.Outcome State Fault Refusal) : Option State :=
  match o with
  | .next t => some t
  | _ => none

/-- The fault, if there is one. -/
def faulted (o : Host.Outcome State Fault Refusal) : Option Fault :=
  match o with
  | .fault f => some f
  | _ => none

/-- The refusal, if there is one. -/
def turnedAway (o : Host.Outcome State Fault Refusal) : Option Refusal :=
  match o with
  | .refused r => some r
  | _ => none

/-- The first `n` bytes of memory after a step that has a next state. -/
def bytesAfter (n : Nat) (o : Host.Outcome State Fault Refusal) : Option (List (Option Byte)) :=
  (answered o).map fun t => (List.range n).map t.mem.read?

/-- The reply after a step that has a next state. -/
def replyAfter (o : Host.Outcome State Fault Refusal) : Option Reply := (answered o).bind (·.reply)

theorem completes_of_answered {o : Host.Outcome State Fault Refusal} (h : (answered o).isSome = true) : Completes o := by
  cases o with
  | next t => exact ⟨t, rfl⟩
  | fault f => cases h
  | refused r => cases h

/-- The descriptor with the given first word and the operands of program P1. -/
def p1With (d0 : Word) : Descriptor := { d0 := d0, d1 := 0, d2 := 4, d3 := 2, d4 := 1, d5 := 0, d6 := 2, d7 := 2 }

/-- The operands of programs P1 and P2. -/
def p1 : DrawArgs := cell 1 1 0 2 2 4 2

/-- The operands of program P3. -/
def p3 : DrawArgs := cell 1 1 0 2 1 6 1

/-- The operands of program P6: an odd width, the cell spanning a row end. -/
def p6 : DrawArgs := cell 11 0 0 3 2 3 2

/-- The host's next action is `x`. -/
def about (x : HostAction) (s : State) : State := { s with inputs := [x] }

/-! ### WellFormed refuses what each check is for (R65) -/

theorem test_reserved_bit_is_ill_formed :
    (p1With 0x00000110).reservedClear = false ∧ (p1With 0x00000110).wellFormed = false := by decide

theorem test_reserved_op_is_ill_formed :
    (p1With 0x00000004).opDefined = false ∧ (p1With 0x0000000F).wellFormed = false := by decide

theorem test_zero_cell_is_ill_formed :
    Instr.wellFormed (.raster { glyph := 1, cw := 0, ch := 16, px := 0, py := 0 }) = false ∧
    Instr.wellFormed (.raster { glyph := 1, cw := 8, ch := 0, px := 0, py := 0 }) = false ∧
    Instr.wellFormed (.raster { glyph := 1, cw := 8, ch := 16, px := 0, py := 0 }) = true := by decide

/-! ### Decoding words written out from R61 and R63 -/

/-- V29: OP 0, GLYPH 10. -/
theorem test_decode_raster :
    (decode { d0 := 0x000000A0, d1 := 7, d2 := 7, d3 := 7, d4 := 3, d5 := 1, d6 := 4, d7 := 2 }).toOption =
      some (.raster { glyph := 10, cw := 4, ch := 2, px := 3, py := 1 }) := by decide

/-- P1: OP 1, GLYPH 1. -/
theorem test_decode_drawI8 : (decode (p1With 0x00000011)).toOption = some (.drawI8 p1) := by decide

/-- P2: OP 2, GLYPH 1. -/
theorem test_decode_drawP8 : (decode (p1With 0x00000012)).toOption = some (.drawP8 p1) := by decide

/-- R67: OP 3, GLYPH 10, a negative position. -/
theorem test_decode_drawP10 :
    (decode { d0 := 0x000000A3, d1 := 0, d2 := 0x780, d3 := 0x438, d4 := 0xFFFFFC18, d5 := 0xFFFFFFFD, d6 := 0x20,
              d7 := 0x40 }).toOption = some (.drawP10 (cell 10 (-1000) (-3) 32 64 1920 1080)) := by decide

/-- V9: a reserved bit and every reserved opcode. -/
theorem test_decode_reserved :
    decode (p1With 0x00000110) = .error .reservedBits ∧
    ∀ op : BitVec 4, 4 ≤ op.toNat → decode (p1With (headerWord op 1)) = .error .reservedOp := by decide

/-- A 256-bit number is laid out with word 0 lowest. -/
theorem test_decode_table_word :
    decodeTableWord 256 (0x00000011 + 4 * 2 ^ 64 + 2 * 2 ^ 96 + 1 * 2 ^ 128 + 2 * 2 ^ 192 + 2 * 2 ^ 224) =
      some (.drawI8 p1) ∧
    decodeTableWord 32 0x100000011 = some (.drawI8 (cell 1 0 0 0 0 0 0)) := by decide

/-- The encoder writes the descriptor of R67. -/
theorem test_encode_drawP10 :
    encode (.drawP10 (cell 10 (-1000) (-3) 32 64 1920 1080)) =
      { d0 := 0x000000A3, d1 := 0, d2 := 0x780, d3 := 0x438, d4 := 0xFFFFFC18, d5 := 0xFFFFFFFD, d6 := 0x20,
        d7 := 0x40 } := by decide

/-! ### One step of each command -/

/-- V6: `RASTER 1, 3, 2, x, y` has ink at `(1, 0)` and none at `(1, 1)`. -/
theorem test_raster_ink :
    replyAfter (exec (.raster { glyph := 1, cw := 3, ch := 2, px := 1, py := 0 }) (stateWith [] 0)) =
      some (.respond true) ∧
    replyAfter (exec (.raster { glyph := 1, cw := 3, ch := 2, px := 1, py := 1 }) (stateWith [] 0)) =
      some (.respond false) := by decide

/-- V5, V7, V8: outside the domain the clamps hold; no glyph has no ink; a zero cell is refused. -/
theorem test_raster_corners :
    replyAfter (exec (.raster { glyph := 1, cw := 1, ch := 1, px := 0xFFFFFFFF, py := 0xFFFFFFFF }) (stateWith [] 0)) =
      some (.respond true) ∧
    replyAfter (exec (.raster { glyph := 12, cw := 8, ch := 16, px := 0, py := 0 }) (stateWith [] 0)) =
      some (.respond false) ∧
    turnedAway (exec (.raster { glyph := 1, cw := 8, ch := 0, px := 0, py := 0 }) (stateWith [] 0)) = some .badCell := by
  decide

/-- P1 on zero bytes. -/
theorem test_drawI8_p1 :
    bytesAfter 16 (exec (.drawI8 p1) (stateWith (filled 0 16 0) 16)) =
      some ([0x80, 0x00, 0x80, 0xEB, 0x80, 0x10, 0x80, 0x00, 0x80, 0x00, 0x80, 0x10, 0x80, 0xEB, 0x80, 0x00].map some) := by
  decide

/-- V14: the store one byte past the expected size of an odd frame; the two results the open visit order of P6 admits, the
reference order's and its reverse's. -/
theorem test_drawI8_odd_width :
    faulted (exec (.drawI8 (cell 11 0 0 3 1 3 1)) (stateWith (filled 0 6 0) 6)) = some .outOfWindow ∧
    bytesAfter 8 (exec (.drawI8 (cell 11 0 0 3 1 3 1)) (stateWith (filled 0 6 0) 7)) =
      some (([0x80, 0xEB, 0x80, 0xEB, 0x80, 0xEB, 0x80].map some) ++ [none]) ∧
    (drawCell writePixelI8 p6.visits p6 (stateWith [] 13)).mem.read? 5 = some 0x10 ∧
    (drawCell writePixelI8 p6.visits.reverse p6 (stateWith [] 13)).mem.read? 5 = some 0xEB := by decide

/-- P2. -/
theorem test_drawP8_p2 :
    bytesAfter 16 (exec (.drawP8 p1) (stateWith (filled 0 16 0) 16)) =
      some ([0x00, 0xEB, 0x10, 0x00, 0x00, 0x10, 0xEB, 0x00, 0x80, 0x80, 0x80, 0x80, 0x80, 0x80, 0x80, 0x80].map some) := by
  decide

/-- V17: an odd width, chroma rows sharing an index. -/
theorem test_drawP8_odd_width :
    bytesAfter 12 (exec (.drawP8 p6) (stateWith (filled 0 12 0) 12)) =
      some ([0xEB, 0xEB, 0xEB, 0x10, 0x10, 0x10, 0x80, 0x80, 0x80, 0x80, 0x80, 0x80].map some) := by decide

/-- V21: all fields 1023 and bits 31:30 set. -/
theorem test_drawP10_preserves_fields :
    bytesAfter 16 (exec (.drawP10 p3) (stateWith (filled 0 16 0xFF) 16)) =
      some ([0x00, 0xFE, 0x0F, 0xE0, 0xAC, 0x03, 0x08, 0xC4, 0x00, 0xFE, 0xFF, 0xFF, 0xFF, 0xFF, 0xFF, 0xFF].map some) := by
  decide

/-- V22 on the gray buffer; a word with no value stops the command (R48). -/
theorem test_drawP10_gray :
    bytesAfter 16 (exec (.drawP10 p3) (stateWith (gray 4) 16)) =
      some ([0x00, 0x02, 0x08, 0x20, 0xAC, 0x03, 0x08, 0x04, 0x00, 0x02, 0x08, 0x20, 0x00, 0x02, 0x08, 0x20].map some) ∧
    faulted (exec (.drawP10 p3) (stateWith (gray 2) 16)) = some .uninitialised := by decide

/-! ### The step, and the host's operations -/

/-- The step takes a presented descriptor, with the window, and drops it from the script; a reserved one is refused. -/
theorem test_step_takes_a_command :
    (answered (step (about (.command (p1With 0x00000012) 16) (stateWith [] 0)))).map
      (fun t => (t.window, t.inputs, t.reply)) = some (16, [], some .done) ∧
    turnedAway (step (about (.command (p1With 0x00000110) 16) (stateWith [] 0))) = some .reservedEncoding := by decide

/-- `withFetchWord` is what the next step runs: with the other words zero a `DRAW` has nothing to draw and a `RASTER` is
refused (R65). -/
theorem test_fetch_word :
    replyAfter (step (State.reset.withFetchWord 32 0x000000A3)) = some .done ∧
    turnedAway (step (State.reset.withFetchWord 32 0x000000A0)) = some .badCell := by decide

/-- V35. -/
theorem test_labels :
    label { hour := 12, minute := 34, second := 56, decimal := 12800 } =
      ['1', '2', ':', '3', '4', ':', '5', '6', '.', '1', '2', '8', '0', '0'] ∧
    label { hour := 100, minute := 5, second := 0, decimal := 0 } =
      ['1', '0', '0', ':', '0', '5', ':', '0', '0', '.', '0'] := by decide

/-- S1: the glyph indexes of a label. -/
theorem test_glyph_indexes :
    [':', '.', '0', '9', ' '].map glyphIndex = [some 10, some 11, some 0, some 9, none] := by decide

/-- The configuration of V36: 8 by 4, Planar8, cell size 4. -/
def planar84 (s : State) : State := configure 8 4 .planar8 (some 4) s

/-- A burn of timecode 1, 2, 3, 4 at `(-16, 0)`. -/
def burnArgs (src dst : Option Word) (srcLen dstLen : Nat) : BurnArgs :=
  { src := src, srcLen := srcLen, dst := dst, dstLen := dstLen,
    time := { hour := 1, minute := 2, second := 3, decimal := 4 }, x := -20, y := 0 }

/-- V36: the statuses, in their order. -/
theorem test_burn_statuses :
    replyAfter (burn (burnArgs (some 0) (some 64) 63 64) (planar84 (stateWith [] 0))) = some (.status .bufferTooSmall) ∧
    replyAfter (burn (burnArgs none (some 64) 64 64) (planar84 (stateWith [] 0))) = some (.status .invalidArgument) ∧
    replyAfter (burn (burnArgs (some 0) (some 64) 63 64) (stateWith [] 0)) = some (.status .notConfigured) ∧
    turnedAway (burn (burnArgs (some 0) (some 63) 64 64) (planar84 (stateWith [] 0))) = some .overlappingBuffers := by
  decide

/-- The host state of P4, with one line of gray words. -/
def packed12 : State := configure 12 1 .packed10 (some 1) (stateWith (gray 8) 0)

/-- P4's first line, drawn by the in-place burn with source row 0 (cell size 1). -/
theorem test_burn_in_place :
    bytesAfter 8 (burnInPlace (some 0) 32 { hour := 1, minute := 2, second := 3, decimal := 4 } 1 0 packed12) =
      some ([0x00, 0x02, 0x08, 0x20, 0x40, 0x00, 0xC8, 0x3A].map some) ∧
    replyAfter (burnInPlace (some 0) 32 { hour := 1, minute := 2, second := 3, decimal := 4 } 1 0 packed12) =
      some (.status .success) := by decide

/-- The caller's fill lands where the caller says, and not beyond the address space. -/
theorem test_fill :
    bytesAfter 3 (fill 1 [0xAA, 0xBB] (stateWith [] 0)) = some [none, some 0xAA, some 0xBB] ∧
    faulted (fill 0xFFFFFFFF [0xAA, 0xBB] (stateWith [] 0)) = some .outOfWindow := by decide

end Sys2Proof.Tests
end

