-- ==== Sys2Proof/Tests/Witnesses.lean ====
section
/-! SUPPORT. For every statement of the certificate that has hypotheses, a concrete state and operands that meet them all
together; where the statement has several clauses, one for each, at the boundary where clauses meet. -/
namespace Sys2Proof.Tests

open Sys2Proof.Machine

/-- The state of P1 before its command. -/
def s1 : State := stateWith (filled 0 16 0) 16

/-- The state of P3 before its command. -/
def s3 : State := stateWith (gray 4) 16

/-- The state in which the host presents `d`. -/
def presenting (d : Descriptor) : State := s1.present d

/-! ### Encoding and step -/

theorem witness_EncodeInvertsDecode :
    decode { p1With 0xA0 with d1 := 9 } = .ok (.raster { glyph := 10, cw := 2, ch := 2, px := 1, py := 0 }) ∧
    decode (p1With 0x13) = .ok (.drawP10 p1) ∧ (p1With 0x13).op ≠ 0 := by decide

theorem witness_ReservedDescriptorsAreRefused :
    (presenting (p1With 0x4)).inputs = .command (p1With 0x4) 16 :: [] ∧ 4 ≤ (p1With 0x4).d0.toNat % 16 ∧
    (presenting (p1With 0x100)).inputs = .command (p1With 0x100) 16 :: [] ∧ (p1With 0x100).d0.toNat / 256 ≠ 0 ∧
    (presenting (p1With 0xF3)).inputs = .command (p1With 0xF3) 16 :: [] ∧
    (p1With 0xF3).d0.toNat % 16 < 4 ∧ (p1With 0xF3).d0.toNat / 256 = 0 := by decide

theorem witness_StepRunsTheDecodedCommand :
    (presenting (p1With 0x11)).inputs = .command (p1With 0x11) 16 :: [] ∧ decode (p1With 0x11) = .ok (.drawI8 p1) := by
  decide

theorem witness_ResetLeavesTheBlockIdle :
    (burnArgs (some 0) (some 64) 64 64).src.isSome = true ∧ (burnArgs (some 0) (some 64) 64 64).dst.isSome = true ∧
    (about .reset s1).inputs = .reset :: [] := by decide

theorem witness_StepKeepsMemoryCanonical :
    Inv (presenting (p1With 0x11)) ∧ Completes (step (presenting (p1With 0x11))) :=
  ⟨by decide, completes_of_answered (by decide)⟩

theorem witness_GlyphTableNeverChanges : Completes (step (presenting (p1With 0x12))) :=
  completes_of_answered (by decide)

/-! ### RASTER -/

theorem presenting_inputs (d : Descriptor) : (presenting d).inputs = .command d 16 :: [] := rfl

theorem witness_RasterDescriptorIsAnswered :
    (∀ d : Descriptor, (presenting d).inputs = .command d 16 :: []) ∧
    ((p1With 0x100).op = 0 ∧ (p1With 0x100).reserved ≠ 0) ∧
    (({ p1With 0x10 with d6 := 0 }).op = 0 ∧ ({ p1With 0x10 with d6 := 0 }).reserved = 0) ∧
    ((p1With 0xC0).op = 0 ∧ (p1With 0xC0).reserved = 0 ∧ (p1With 0xC0).d6 ≠ 0 ∧ (p1With 0xC0).d7 ≠ 0 ∧
      12 ≤ (p1With 0xC0).glyph.toNat) ∧
    ((p1With 0xB0).op = 0 ∧ (p1With 0xB0).reserved = 0 ∧ (11 : Fin 12).val = (p1With 0xB0).glyph.toNat) :=
  ⟨presenting_inputs, by decide, by decide, by decide, by decide⟩

theorem witness_RasterAnswersOneInkBit :
    (∀ g ∈ [(12 : BitVec 4), 11], ({ glyph := g, cw := 1, ch := 1, px := 0, py := 0 } : RasterArgs).cw ≠ 0 ∧
      ({ glyph := g, cw := 1, ch := 1, px := 0, py := 0 } : RasterArgs).ch ≠ 0) ∧
    12 ≤ (12 : BitVec 4).toNat ∧ (11 : Fin 12).val = (11 : BitVec 4).toNat := by decide

theorem witness_InkIsTheNearestGlyphBit : 1 ≤ 1 ∧ 2 ^ 32 - 1 < 2 ^ 32 := by decide

theorem witness_MappingIsMonotoneAndTiles :
    (0 < 3 ∧ 2 < 3 ∧ srcCol 2 3 = 5) ∧ (0 < 5 ∧ 4 < 5 ∧ srcRow 4 5 = 12) ∧ 1 ≤ 2 ∧ 7 < 8 ∧ 15 < 16 ∧ 0 < 4 ∧ 31 < 8 * 4 ∧
    63 < 16 * 4 := by decide

/-! ### Memory -/

theorem witness_WordsAreLittleEndian :
    s3.mem.read? 4 = some 0x00 ∧ s3.mem.read? (4 + 1) = some 0x02 ∧ s3.mem.read? (4 + 2) = some 0x08 ∧
    s3.mem.read? (4 + 3) = some 0x20 := by decide

theorem witness_Set10ChangesOneField :
    (Window.mk 0 16).covers 13 4 = false ∧
    (Window.mk 0 20).covers 13 4 = true ∧ s3.mem.readWord? 13 = none ∧
    (Window.mk 0 16).covers 12 4 = true ∧ s3.mem.readWord? 12 = some 0x20080200 := by decide

/-! ### Nothing to draw -/

theorem witness_NothingToDrawIsDone :
    12 ≤ (cell 12 0 0 2 2 4 2).glyph.toNat ∧ (cell 1 0 0 0 2 4 2).CW = 0 ∧ (cell 1 0 0 2 0 4 2).CH = 0 ∧
    (cell 1 0 0 2 2 0 2).W = 0 ∧ (cell 1 0 0 2 2 4 0).H = 0 ∧
    (cell 1 (-2) 0 2 2 4 2).X0 + (cell 1 (-2) 0 2 2 4 2).CW ≤ 0 ∧ ((cell 1 4 0 2 2 4 2).W : Int) ≤ (cell 1 4 0 2 2 4 2).X0 ∧
    (cell 1 0 (-2) 2 2 4 2).Y0 + (cell 1 0 (-2) 2 2 4 2).CH ≤ 0 ∧
    ((cell 1 0 2 2 2 4 2).H : Int) ≤ (cell 1 0 2 2 2 4 2).Y0 := by decide

/-! ### DRAW.I8 -/

theorem witness_DrawI8WritesItsCell :
    glyph? p1.glyph = some 1 ∧ p1.visits ≠ [] ∧
    ∀ p ∈ p1.visits, (p1.windowIn s1).covers (p1.B + i8LumaOff p1 (p1.sx p) (p1.sy p)) 1 = true ∧
      (p1.windowIn s1).covers (p1.B + i8Chroma1 p1 (p1.sx p) (p1.sy p)) 1 = true ∧
      (p1.windowIn s1).covers (p1.B + i8Chroma2 p1 (p1.sx p) (p1.sy p)) 1 = true := by decide

theorem witness_InterleavedOffsetsForEvenWidth : p1.W % 2 = 0 ∧ 3 < p1.W ∧ 1 < p1.H := by decide

theorem witness_InterleavedEdgeNeighbourLosesChromaOnly :
    glyph? p1.glyph = some 1 ∧ p1.W % 2 = 0 ∧ Completes (exec (.drawI8 p1) s1) ∧
    (⟨0, 1⟩ ∈ p1.visits ∧ p1.sx ⟨0, 1⟩ % 2 = 1) ∧ (⟨1, 1⟩ ∈ p1.visits ∧ 1 + 1 = p1.CW ∧ p1.sx ⟨1, 1⟩ % 2 = 0) :=
  ⟨by decide, by decide, completes_of_answered (by decide), by decide, by decide⟩

/-- The operands of V14(a): three by one, all of it shown. -/
def oddFrame : DrawArgs := cell 11 0 0 3 1 3 1

theorem witness_OnlyOddInterleavedFramesAreOverrun :
    (2 * p1.W * p1.H ≤ s1.window ∧ p1.B + 2 * p1.W * p1.H ≤ 2 ^ Config.addrBits ∧
      ¬ (p1.W % 2 = 1 ∧ p1.H % 2 = 1 ∧ p1.shows (p1.W - 1) (p1.H - 1) = true)) ∧
    glyph? oddFrame.glyph = some 11 ∧ oddFrame.W % 2 = 1 ∧ oddFrame.H % 2 = 1 ∧
    oddFrame.shows (oddFrame.W - 1) (oddFrame.H - 1) = true ∧
    (stateWith [] 6).window = 2 * oddFrame.W * oddFrame.H ∧ 2 * oddFrame.W * oddFrame.H < (stateWith [] 7).window ∧
    oddFrame.B + 2 * oddFrame.W * oddFrame.H < 2 ^ Config.addrBits := by decide

/-! ### DRAW.P8 -/

theorem witness_DrawP8WritesItsCell :
    glyph? p6.glyph = some 11 ∧ p6.visits ≠ [] ∧
    ∀ p ∈ p6.visits, (p6.windowIn (stateWith [] 12)).covers (p6.B + p8LumaIdx p6 (p6.sx p) (p6.sy p)) 1 = true ∧
      (p6.windowIn (stateWith [] 12)).covers (p6.B + p8C1 p6 + p8ChromaIdx p6 (p6.sx p) (p6.sy p)) 1 = true ∧
      (p6.windowIn (stateWith [] 12)).covers (p6.B + p8C2 p6 + p8ChromaIdx p6 (p6.sx p) (p6.sy p)) 1 = true := by decide

theorem witness_PlanarStoresStayInTheBuffer :
    (3 < p1.W ∧ 1 < p1.H ∧ p1.W % 2 = 0) ∧ (2 < oddFrame.W ∧ 0 < oddFrame.H ∧ oddFrame.W % 2 = 1) ∧
    expectedSize .planar8 p1.W p1.H ≤ s1.window ∧ p1.B + expectedSize .planar8 p1.W p1.H ≤ 2 ^ Config.addrBits := by decide

theorem witness_PlanarEdgeNeighbourLosesChromaOnly :
    glyph? p1.glyph = some 1 ∧ Completes (exec (.drawP8 p1) s1) ∧ (⟨0, 1⟩ ∈ p1.visits ∧ p1.sx ⟨0, 1⟩ % 2 = 1) ∧
    (⟨1, 1⟩ ∈ p1.visits ∧ 1 + 1 = p1.CW ∧ p1.sx ⟨1, 1⟩ % 2 = 0 ∧ p1.sx ⟨1, 1⟩ + 1 < p1.W) :=
  ⟨by decide, completes_of_answered (by decide), by decide, by decide⟩

/-! ### DRAW.P10 -/

theorem witness_DrawP10WritesItsCell :
    glyph? p3.glyph = some 1 ∧ p3.visits ≠ [] ∧
    ∀ p ∈ p3.visits, ∀ ws ∈ [lumaWS (p3.sx p), chroma1WS (p3.sx p), chroma2WS (p3.sx p)],
      (p3.windowIn s3).covers (p10Addr p3 (p3.sx p) (p3.sy p) ws) 4 = true ∧
      (s3.mem.readWord? (p10Addr p3 (p3.sx p) (p3.sy p) ws)).isSome = true := by decide

theorem witness_PackedAccessesStayInTheBuffer :
    (5 < p3.W ∧ 0 < p3.H ∧ 3 < 4) ∧ expectedSize .packed10 p3.W p3.H ≤ s3.window ∧
    p3.B + expectedSize .packed10 p3.W p3.H ≤ 2 ^ Config.addrBits ∧
    s3.mem.initialised p3.B (expectedSize .packed10 p3.W p3.H) :=
  ⟨by decide, by decide, by decide, by unfold Memory.initialised; decide⟩

theorem witness_PackedEdgeNeighbourLosesChromaOnly :
    glyph? p3.glyph = some 1 ∧ Completes (exec (.drawP10 p3) s3) ∧
    (⟨0, 0⟩ ∈ p3.visits ∧ p3.sx ⟨0, 0⟩ % 2 = 1 ∧ 0 + 1 = p3.sx ⟨0, 0⟩) ∧
    (⟨1, 0⟩ ∈ p3.visits ∧ 1 + 1 = p3.CW ∧ p3.sx ⟨1, 0⟩ % 2 = 0 ∧ 3 = p3.sx ⟨1, 0⟩ + 1) :=
  ⟨by decide, completes_of_answered (by decide), by decide, by decide⟩

theorem gray_words_below_four : ∀ k : Nat, k < 4 → s3.mem.readWord? (4 * k) = some 0x20080200 := by decide

theorem witness_GrayPackedBufferReadsBack :
    glyph? p3.glyph = some 1 ∧
    (∀ k : Nat, 4 * k < expectedSize .packed10 p3.W p3.H → s3.mem.readWord? (p3.B + 4 * k) = some 0x20080200) ∧
    Completes (exec (.drawP10 p3) s3) ∧ (5 < p3.W ∧ 0 < p3.H) := by
  refine ⟨by decide, fun k hk => ?_, completes_of_answered (by decide), by decide⟩
  have hsize : expectedSize .packed10 p3.W p3.H = 16 := by decide
  have hbase : p3.B = 0 := by decide
  rw [hbase, Nat.zero_add]
  exact gray_words_below_four k (by omega)

/-! ### All writers -/

theorem witness_DrawFaultsExactlyWhenAnAccessCannotBeMade :
    glyph? p1.glyph = some 1 ∧ glyph? p3.glyph = some 1 ∧
    (∀ wp ∈ [writePixelI8, writePixelP8],
      (∃ x ∈ cellAccesses wp (stateWith [] 12).rom 1 p1 p1.visits, (p1.windowIn (stateWith [] 12)).covers x.addr x.size = false) ∧
      (∀ x ∈ cellAccesses wp s1.rom 1 p1 p1.visits, (p1.windowIn s1).covers x.addr x.size = true)) ∧
    (∃ x ∈ cellAccesses writePixelP10 (stateWith (gray 2) 16).rom 1 p3 p3.visits,
      (stateWith (gray 2) 16).mem.readWord? x.addr = none) ∧
    ((∃ x ∈ cellAccesses writePixelP10 (stateWith (gray 4) 8).rom 1 p3 p3.visits,
        (p3.windowIn (stateWith (gray 4) 8)).covers x.addr x.size = false) ∧
      ∀ x ∈ cellAccesses writePixelP10 (stateWith (gray 4) 8).rom 1 p3 p3.visits,
        ((stateWith (gray 4) 8).mem.readWord? x.addr).isSome = true) ∧
    (∀ x ∈ cellAccesses writePixelP10 s3.rom 1 p3 p3.visits,
      (p3.windowIn s3).covers x.addr x.size = true ∧ (s3.mem.readWord? x.addr).isSome = true) := by
  refine ⟨by decide, by decide, ?_, by decide, by decide, by decide⟩
  intro wp h
  rcases List.mem_pair.1 h with rfl | rfl <;> decide

theorem witness_FaultedCommandKeepsEarlierStores :
    (drawCell writePixelI8 oddFrame.visits oddFrame (stateWith [] 6)).ending = .fault .outOfWindow := by decide

theorem witness_RefusedCommandTouchesNothing :
    (commandTransaction [] (p1With 0x4) s1).ending = .refused .reservedEncoding ∧
    (commandTransaction [] { p1With 0x10 with d7 := 0 } s1).ending = .refused .badCell ∧
    (presenting (p1With 0x4)).inputs = .command (p1With 0x4) 16 :: [] ∧
    turnedAway (step (presenting (p1With 0x4))) = some .reservedEncoding ∧
    turnedAway (step (presenting { p1With 0x10 with d7 := 0 })) = some .badCell ∧
    Completes (step (presenting (p1With 0x11))) :=
  ⟨by decide, by decide, by decide, by decide, by decide, completes_of_answered (by decide)⟩

theorem witness_NothingOutsideTheWindowChanges : 0 < ({ p1 with base := 1 } : DrawArgs).B ∧ p1.B + s1.window ≤ 16 := by decide

theorem witness_EightBitWritersIgnoreOldContent :
    (stateWith [] 16).rom = s1.rom ∧ (stateWith [] 16).window = s1.window ∧ Completes (exec (.drawI8 p1) s1) ∧
    Completes (exec (.drawP8 p1) s1) :=
  ⟨rfl, rfl, completes_of_answered (by decide), completes_of_answered (by decide)⟩

theorem witness_DrawingTwiceIsDrawingOnce : s3.mem.wf = true ∧ Completes (exec (.drawP10 p3) s3) :=
  ⟨by decide, completes_of_answered (by decide)⟩

theorem witness_PlanarVisitOrderDoesNotMatter :
    s1.mem.wf = true ∧ VisitOrder p1 p1.visits ∧ VisitOrder p1 p1.visits.reverse ∧
    (drawCell writePixelP8 p1.visits p1 s1).ending = .done ∧
    (drawCell writePixelP8 p1.visits p1 (stateWith [] 15)).ending = .fault .outOfWindow := by decide

theorem witness_PackedVisitOrderDoesNotMatter :
    s3.mem.wf = true ∧ VisitOrder p3 p3.visits ∧ VisitOrder p3 p3.visits.reverse ∧
    (drawCell writePixelP10 p3.visits p3 s3).ending = .done ∧
    (drawCell writePixelP10 p3.visits p3 (stateWith (gray 4) 11)).ending = .fault .outOfWindow := by decide

/-- Row 0 of the odd frame of P6 alone: no row end is spanned. -/
def oneRow : DrawArgs := cell 11 0 0 3 1 3 2

theorem oneRow_spans_no_row_end (sy : Nat) : ¬ (oneRow.shows (oneRow.W - 1) sy = true ∧ oneRow.shows 0 (sy + 1) = true) := by
  have hy : oneRow.Y0 = 0 := by decide
  have hc : oneRow.CH = 1 := by decide
  simp only [DrawArgs.shows, Bool.and_eq_true, decide_eq_true_eq, hy, hc]
  omega

theorem witness_InterleavedVisitOrderMattersOnlyAtRowEnds :
    s1.mem.wf = true ∧ VisitOrder p1 p1.visits ∧ VisitOrder p1 p1.visits.reverse ∧ p1.W % 2 = 0 ∧
    (drawCell writePixelI8 p1.visits p1 s1).ending = .done ∧
    VisitOrder oneRow oneRow.visits ∧
    (∀ sy : Nat, sy % 2 = 0 → ¬ (oneRow.shows (oneRow.W - 1) sy = true ∧ oneRow.shows 0 (sy + 1) = true)) ∧
    (drawCell writePixelI8 oneRow.visits oneRow s1).ending = .done ∧
    (drawCell writePixelI8 p1.visits p1 (stateWith [] 14)).ending = .fault .outOfWindow :=
  ⟨by decide, by decide, by decide, by decide, by decide, by decide, fun sy _ => oneRow_spans_no_row_end sy, by decide, by decide⟩

theorem witness_LaterVisitDecidesASharedLumaByte :
    glyph? p6.glyph = some 11 ∧ VisitOrder p6 ([⟨0, 0⟩, ⟨1, 0⟩, ⟨0, 1⟩] ++ ⟨2, 0⟩ :: [⟨1, 1⟩, ⟨2, 1⟩]) ∧
    (drawCell writePixelI8 ([⟨0, 0⟩, ⟨1, 0⟩, ⟨0, 1⟩] ++ ⟨2, 0⟩ :: [⟨1, 1⟩, ⟨2, 1⟩]) p6 (stateWith [] 13)).ending = .done ∧
    ∀ r ∈ [(⟨1, 1⟩ : Pixel), ⟨2, 1⟩],
      i8LumaOff p6 (p6.sx r) (p6.sy r) ≠ i8LumaOff p6 (p6.sx ⟨2, 0⟩) (p6.sy ⟨2, 0⟩) := by decide

theorem witness_BothEightBitFormatsShowTheSameLuma :
    glyph? p1.glyph = some 1 ∧ p1.W % 2 = 0 ∧ s1.rom = s1.rom ∧ Completes (exec (.drawI8 p1) s1) ∧
    Completes (exec (.drawP8 { p1 with base := 32 }) s1) ∧ p1.visits ≠ [] :=
  ⟨by decide, by decide, rfl, completes_of_answered (by decide), completes_of_answered (by decide), by decide⟩

/-! ### The host -/

theorem witness_ConfigureReplacesTheRecord :
    (about (.configure 0 5 .packed10 none) s1).inputs = .configure 0 5 .packed10 none :: [] := by decide

/-- A host configured 8 by 4, Planar8, cell size 4, over 128 bytes. -/
def hostState : State := planar84 (stateWith (filled 0 64 7) 0)

theorem witness_BurnChecksInOrderAndWritesNothing :
    ((burnArgs none (some 64) 64 64).src = none ∧ (burnArgs (some 0) none 64 64).dst = none) ∧
    (burnArgs (some 0) (some 64) 64 64).src = some 0 ∧ (burnArgs (some 0) (some 64) 64 64).dst = some 64 ∧
    s1.cfg.width = 0 ∧ hostState.cfg.width ≠ 0 ∧ hostState.cfg.height ≠ 0 ∧
    63 < 2 * hostState.cfg.width * hostState.cfg.height := by decide

/-- The timecode of the spec's programs. -/
def t1234 : TimeCode := { hour := 1, minute := 2, second := 3, decimal := 4 }

theorem cells_from_minus20_fit :
    ∀ i : Nat, i < (label t1234).length → cellEncodable hostState.cfg (-20 + i * hostState.cfg.cellWidth) 0 = true := by
  decide

/-- A host configured 3 by 1, Interleaved8, cell size 1, over 6 bytes at 0: both dimensions odd. -/
def oddHost : State := configure 3 1 .interleaved8 (some 1) (stateWith (filled 0 6 7) 0)

/-- A host configured 6 by 1, Packed10, cell size 1, over one gray block at 0. -/
def packedHost : State := configure 6 1 .packed10 (some 1) (stateWith (gray 4) 0)

theorem witness_BurnPastValidationAnswersSuccess :
    (oddHost.cfg.width ≠ 0 ∧ oddHost.cfg.height ≠ 0 ∧ 2 * oddHost.cfg.width * oddHost.cfg.height = 6 ∧
      oddHost.cfg.width % 2 = 1 ∧ oddHost.cfg.height % 2 = 1 ∧
      (8 : Word).toNat + 7 ≤ 2 ^ Config.addrBits ∧ (0 : Word).toNat + 6 ≤ (8 : Word).toNat ∧
      LabelExpressible oddHost.cfg (-(2 ^ 31) - 1) 0 (label t1234).length) ∧
    (packedHost.cfg.width ≠ 0 ∧ packedHost.cfg.height ≠ 0 ∧
      (packedHost.cfg.width + 5) / 6 * 16 * packedHost.cfg.height = 16 ∧ (16 : Word).toNat + 16 ≤ 2 ^ Config.addrBits ∧
      (0 : Word).toNat + 16 ≤ (16 : Word).toNat ∧ LabelExpressible packedHost.cfg (-2) 0 (label t1234).length ∧
      packedHost.mem.initialised (0 : Word).toNat 16) := by
  unfold LabelExpressible Memory.initialised; decide

theorem witness_StatusCodesTellTheOutcome :
    Completes (burn (burnArgs none (some 64) 64 64) hostState) ∧ Completes (burn (burnArgs (some 0) (some 64) 64 64) s1) ∧
    Completes (burn (burnArgs (some 0) (some 64) 63 64) hostState) ∧
    Completes (burn (burnArgs (some 0) (some 64) 64 64) hostState) :=
  ⟨completes_of_answered (by decide), completes_of_answered (by decide), completes_of_answered (by decide),
    completes_of_answered (by decide)⟩

theorem witness_LabelIsTheTimecode : t1234.hour < 10 ∧ (100 : Nat) ≥ 10 ∧ t1234.second < 100 := by decide

theorem witness_LabelSymbolsHaveGlyphs :
    '0' ∈ label t1234 ∧ ' ' ∉ ['0', '1', '2', '3', '4', '5', '6', '7', '8', '9', ':', '.'] := by decide

theorem witness_LabelCommandsAdvanceOneCell :
    (∀ i : Nat, i < (label t1234).length → cellEncodable hostState.cfg (-20 + i * hostState.cfg.cellWidth) 0 = true) ∧
    (label t1234)[2]? = some ':' ∧ glyphIndex ':' = some 10 := ⟨cells_from_minus20_fit, by decide, by decide⟩

theorem witness_CopyMovesTheFrame :
    (∀ i : Nat, i < 4 → (Window.mk 0 4).covers (0 + i) 1 = true ∧ (Window.mk 4 4).covers (4 + i) 1 = true) ∧
    (0 + 4 ≤ 4 ∨ 4 + 4 ≤ 0) := by decide

/-- A host configured 2 by 1, Planar8, over 4 bytes at 0 and a destination at 8. -/
def smallHost : State := configure 2 1 .planar8 (some 1) (stateWith (filled 0 4 7) 0)

/-- The same host with the frame already copied to 8. -/
def smallHostCopied : State := configure 2 1 .planar8 (some 1) (stateWith (filled 0 4 7 ++ filled 8 4 7) 0)

theorem small_copy (i : Nat) (h : i < 4) : smallHostCopied.mem.read? (8 + i) = smallHost.mem.read? (0 + i) := by
  revert i; decide

theorem small_frame (addr : Nat) (h : addr < 8 ∨ 8 + 4 ≤ addr) :
    smallHostCopied.mem.read? addr = smallHost.mem.read? addr := by
  have hm : smallHost.mem = [(0, 7), (1, 7), (2, 7), (3, 7)] := by decide
  have hm' : smallHostCopied.mem = [(0, 7), (1, 7), (2, 7), (3, 7), (8, 7), (9, 7), (10, 7), (11, 7)] := by decide
  rw [hm, hm']
  simp only [Memory.read?]
  split_ifs <;> first | rfl | omega

/-- The arguments of the small two-buffer burn. -/
def smallBurn : BurnArgs := { src := some 0, srcLen := 4, dst := some 8, dstLen := 4, time := t1234, x := 0, y := 0 }

theorem witness_InPlaceBurnEqualsBurnOnACopy :
    smallHost.mem.wf = true ∧ smallHostCopied.mem.wf = true ∧ smallHostCopied.rom = smallHost.rom ∧
    smallHostCopied.cfg = smallHost.cfg ∧ smallBurn.src = some 0 ∧ smallBurn.dst = some 8 ∧ (0 : Word) ≠ 8 ∧
    replyAfter (burn smallBurn smallHost) = some (.status .success) ∧
    (∀ i : Nat, i < smallHost.cfg.frameSize →
      smallHostCopied.mem.read? ((8 : Word).toNat + i) = smallHost.mem.read? ((0 : Word).toNat + i)) ∧
    (∀ addr : Nat, (addr < (8 : Word).toNat ∨ (8 : Word).toNat + smallHost.cfg.frameSize ≤ addr) →
      smallHostCopied.mem.read? addr = smallHost.mem.read? addr) := by
  have hf : smallHost.cfg.frameSize = 4 := by decide
  refine ⟨by decide, by decide, rfl, rfl, rfl, rfl, by decide, by decide, ?_, ?_⟩
  · rw [hf]; exact small_copy
  · rw [hf]; exact small_frame

theorem witness_BurnLeftOfTheFrameChangesNothing :
    hostState.cfg.width ≠ 0 ∧ hostState.cfg.height ≠ 0 ∧ hostState.cfg.frameSize ≤ 64 ∧
    (-20 : Int) + (label t1234).length * hostState.cfg.cellWidth ≤ 0 := by decide

theorem witness_PlanarBurnLeavesTheLabel :
    hostState.cfg.format = .planar8 ∧ hostState.cfg.width ≠ 0 ∧ hostState.cfg.height ≠ 0 ∧
    2 * hostState.cfg.width * hostState.cfg.height ≤ 64 ∧
    (0 : Word).toNat + 2 * hostState.cfg.width * hostState.cfg.height ≤ 2 ^ Config.addrBits ∧
    (∀ i : Nat, i < (label t1234).length → cellEncodable hostState.cfg (-16 + i * hostState.cfg.cellWidth) 0 = true) ∧
    ((label t1234)[9]? = some '4' ∧ glyphIndex '4' = some 4 ∧ glyph? 4 = some 4 ∧
      (1 : Nat) < hostState.cfg.cellWidth ∧ (3 : Nat) < hostState.cfg.cellHeight ∧
      ((3 : Nat) : Int) = -16 + (9 : Nat) * hostState.cfg.cellWidth + (1 : Nat) ∧ 3 < hostState.cfg.width) := by decide

/-- A host configured 8 by 4, Interleaved8, cell size 4, over 64 bytes. -/
def interleavedHost : State := configure 8 4 .interleaved8 (some 4) (stateWith (filled 0 64 7) 0)

theorem witness_InterleavedBurnLeavesTheLabel :
    interleavedHost.cfg.format = .interleaved8 ∧ interleavedHost.cfg.width ≠ 0 ∧ interleavedHost.cfg.height ≠ 0 ∧
    interleavedHost.cfg.width % 2 = 0 ∧ 2 * interleavedHost.cfg.width * interleavedHost.cfg.height ≤ 64 ∧
    (0 : Word).toNat + 2 * interleavedHost.cfg.width * interleavedHost.cfg.height ≤ 2 ^ Config.addrBits ∧
    LabelExpressible interleavedHost.cfg (-16) 0 (label t1234).length ∧
    LabelShows interleavedHost.cfg (-16) 0 t1234 3 3 4 1 3 :=
  ⟨by decide, by decide, by decide, by decide, by decide, by decide, by unfold LabelExpressible; decide,
    9, '4', 4, by decide⟩

theorem witness_PackedBurnLeavesTheLabel :
    packedHost.cfg.format = .packed10 ∧ packedHost.cfg.width ≠ 0 ∧ packedHost.cfg.height ≠ 0 ∧
    (packedHost.cfg.width + 5) / 6 * 16 * packedHost.cfg.height ≤ 16 ∧
    (0 : Word).toNat + (packedHost.cfg.width + 5) / 6 * 16 * packedHost.cfg.height ≤ 2 ^ Config.addrBits ∧
    packedHost.mem.initialised (0 : Word).toNat ((packedHost.cfg.width + 5) / 6 * 16 * packedHost.cfg.height) ∧
    LabelExpressible packedHost.cfg (-4) 0 (label t1234).length ∧ LabelShows packedHost.cfg (-4) 0 t1234 5 0 4 0 0 :=
  ⟨by decide, by decide, by decide, by decide, by decide, by unfold Memory.initialised; decide,
    by unfold LabelExpressible; decide, 9, '4', 4, by decide⟩

end Sys2Proof.Tests
end

