-- ==== Sys2Proof/Proofs/State.lean ====
section
/-! PROOFS. What a step that answers can have been, one inversion lemma for each operation of the host port; from these, that
no step changes the Glyph Table (R25). Then what lies outside the window of a command (R41): no access reaches it, so no `DRAW`
does. -/
namespace Sys2Proof.Machine

/-! ### What an operation that answers has done -/

/-- A command that answers changes memory, as its transaction does, and the reply alone (R20, R66). -/
theorem exec_next {i : Instr} {s t : State} (h : exec i s = .next t) :
    ∃ r, t = { s with mem := (transaction (modelOrder i) i s).mem, reply := some r } := by
  rw [exec_eq] at h
  obtain ⟨-, rfl⟩ | ⟨b, -, rfl⟩ := conclude_next h
  · exact ⟨.done, rfl⟩
  · exact ⟨.respond b, rfl⟩

theorem exec_sameContext {i : Instr} {s t : State} (h : exec i s = .next t) : sameContext s t := by
  obtain ⟨r, rfl⟩ := exec_next h
  exact ⟨rfl, rfl, rfl, rfl⟩

theorem issue_next {d : Descriptor} {len : Nat} {s t : State} (h : issue d len s = .next t) :
    ∃ i, decode d = .ok i ∧ exec i { s with window := len } = .next t := by
  unfold issue at h
  split at h
  · next i hd => exact ⟨i, hd, h⟩
  · cases h

/-- Whatever every command keeps, a sequence of commands keeps. -/
theorem runCommands_keeps {P : State → Prop} (keep : ∀ i s t, exec i s = .next t → P s → P t)
    {is : List Instr} {s t : State} (h : runCommands is s = .next t) (hs : P s) : P t := by
  induction is generalizing s with
  | nil => cases h; exact hs
  | cons i is ih =>
    unfold runCommands at h
    split at h
    · next u hu => exact ih h (keep i s u hu hs)
    · cases h
    · cases h

theorem runCommands_rom {is : List Instr} {s t : State} (h : runCommands is s = .next t) : t.rom = s.rom :=
  runCommands_keeps (P := fun u => u.rom = s.rom) (fun _ _ _ hx hu => (exec_sameContext hx).1.trans hu) h rfl

/-- A burn that answers past validation has copied the frame, unless it is in place, and then run the label's commands in
the destination's window (R196 to R201). -/
theorem burnValidated_next {src dst : Window} {addr : Word} {a : BurnArgs} {s t : State}
    (h : burnValidated src dst addr a s = .next t) :
    ∃ commands m u, labelCommands s.cfg addr a.y a.x (label a.time) = .ok commands ∧
      (if src.base = dst.base then .ok s.mem else copyBytes src dst s.cfg.frameSize s.mem) = .ok m ∧
      runCommands commands { s with mem := m, window := dst.len } = .next u ∧ t = u.answer .success := by
  unfold burnValidated at h
  split at h
  · cases h
  · split at h
    · cases h
    · next commands hl =>
      split at h
      · cases h
      · next m hm =>
        split at h
        · next u hu => cases h; exact ⟨commands, m, u, hl, hm, hu, rfl⟩
        · cases h
        · cases h

/-- A burn that answers has stopped at a check with nothing but its status changed (R202), or has gone past validation. -/
theorem burn_next {a : BurnArgs} {s t : State} (h : burn a s = .next t) :
    (∃ st, t = s.answer st) ∨
    ∃ src dst : Word, a.src = some src ∧ a.dst = some dst ∧
      burnValidated { base := src.toNat, len := a.srcLen } { base := dst.toNat, len := a.dstLen } dst a s = .next t := by
  unfold burn at h
  split at h
  · next src dst hsrc hdst =>
    split at h
    · cases h; exact .inl ⟨_, rfl⟩
    · split at h
      · cases h; exact .inl ⟨_, rfl⟩
      · exact .inr ⟨src, dst, hsrc, hdst, h⟩
  · cases h; exact .inl ⟨_, rfl⟩

theorem fill_next {addr : Word} {bytes : List Byte} {s t : State} (h : fill addr bytes s = .next t) :
    ∃ m, fillBytes { base := addr.toNat, len := bytes.length } addr.toNat bytes s.mem = .ok m ∧ t = { s with mem := m } := by
  unfold fill at h
  split at h
  · next m hm => cases h; exact ⟨m, hm, rfl⟩
  · cases h

/-- A step is idle, or takes the next thing the host does. -/
theorem step_next {s t : State} (h : step s = .next t) :
    (s.inputs = [] ∧ t = s) ∨ ∃ x rest, s.inputs = x :: rest ∧ perform x { s with inputs := rest } = .next t := by
  unfold step at h
  split at h
  · next hs => cases h; exact .inl ⟨hs, rfl⟩
  · next x rest hs => exact .inr ⟨x, rest, hs, h⟩

/-! ### The Glyph Table -/

theorem issue_rom {d : Descriptor} {len : Nat} {s t : State} (h : issue d len s = .next t) : t.rom = s.rom := by
  obtain ⟨i, -, hi⟩ := issue_next h
  exact (exec_sameContext hi).1

theorem burn_rom {a : BurnArgs} {s t : State} (h : burn a s = .next t) : t.rom = s.rom := by
  obtain ⟨st, rfl⟩ | ⟨src, dst, -, -, hv⟩ := burn_next h
  · exact answer_rom s st
  · obtain ⟨commands, m, u, -, -, hrun, rfl⟩ := burnValidated_next hv
    have hrom := runCommands_rom hrun
    exact (answer_rom u .success).trans hrom

theorem perform_rom {x : HostAction} {s t : State} (h : perform x s = .next t) : t.rom = s.rom := by
  cases x with
  | command d len => exact issue_rom h
  | configure w ht f c => cases h; exact configure_rom s w ht f c
  | burn a => exact burn_rom h
  | burnInPlace buf len time x y => exact burn_rom h
  | fill addr bytes => obtain ⟨m, -, rfl⟩ := fill_next h; rfl
  | reset => cases h; exact resetIdle_rom s

/-- Settles O9: the step is idle or one of the host's actions, and each of them keeps the table. -/
theorem glyphTableNeverChanges : Obligations.GlyphTableNeverChanges := by
  intro s t h
  obtain ⟨-, rfl⟩ | ⟨x, rest, -, hx⟩ := step_next h
  · rfl
  · have hrom := perform_rom hx
    exact hrom

/-! ### Outside the window -/

/-- An access is performed inside the window or not at all, so it keeps what lies outside (R41). -/
theorem perform_outside {w : Window} {m m' : Memory} {x : Access} (h : x.perform w m = .ok m') {addr : Nat}
    (ha : addr < w.base ∨ w.base + w.len ≤ addr) : m'.read? addr = m.read? addr := by
  obtain ⟨hcov, hframe⟩ := perform_ok h
  obtain ⟨hlo, hhi, -⟩ := (covers_iff _ _ _).1 hcov
  exact hframe addr (by omega)

/-- The accesses of a command keep what lies outside the window, whether they all run or one of them faults. -/
theorem runAccesses_outside (w : Window) (xs : List Access) (m : Memory) {addr : Nat}
    (ha : addr < w.base ∨ w.base + w.len ≤ addr) : (runAccesses w xs m).mem.read? addr = m.read? addr := by
  induction xs generalizing m with
  | nil => rfl
  | cons x xs ih =>
    cases hx : x.perform w m with
    | ok m' => rw [runAccesses_cons_ok _ hx, ih m', perform_outside hx ha]
    | error f => rw [runAccesses_cons_error _ hx]

theorem drawCell_outside (wp : WritePixel) (order : List Pixel) (a : DrawArgs) (s : State) {addr : Nat}
    (ha : addr < a.B ∨ a.B + s.window ≤ addr) : (drawCell wp order a s).mem.read? addr = s.mem.read? addr := by
  obtain ⟨-, hd⟩ | ⟨g, -, hd⟩ := drawCell_cases wp order a s
  · rw [hd]
  · rw [hd]; exact runAccesses_outside (a.windowIn s) _ s.mem ha

/-- Settles O32: each `DRAW` is a `drawCell` of its writer, and `drawCell` keeps what lies outside the window. -/
theorem nothingOutsideTheWindowChanges : Obligations.NothingOutsideTheWindowChanges := by
  rintro order a i s (rfl | rfl | rfl) addr ha
  · exact drawCell_outside writePixelI8 order a s ha
  · exact drawCell_outside writePixelP8 order a s ha
  · exact drawCell_outside writePixelP10 order a s ha

end Sys2Proof.Machine
end

/-! PROOFS. Memory bit by bit. Bit `k` of memory is bit `k % 8` of the byte at `k / 8`, so a little-endian word (R44) and each
of its 10-bit fields (R162) are runs of consecutive bits. Every access then overwrites one run of bits with fixed values and
keeps the other bits, so a list of accesses leaves each bit at the last value forced on it, or as it was. Doing the same again
changes nothing, which is R47. -/
namespace Sys2Proof.Machine

/-! ### The bits of memory -/

/-- Bit `k` of memory, if its byte holds a value. -/
def Memory.bit? (m : Memory) (k : Nat) : Option Bool := (m.read? (k / 8)).map fun b => b.getLsbD (k % 8)

/-- A byte holds a value exactly when its bits do. -/
theorem bit_isSome (m : Memory) (k : Nat) : (m.bit? k).isSome = (m.read? (k / 8)).isSome := by
  simp [Memory.bit?]

theorem bit_of_read {m : Memory} {a : Nat} {b : Byte} (h : m.read? a = some b) {i : Nat} (hi : i < 8) :
    m.bit? (8 * a + i) = some (b.getLsbD i) := by
  have hbyte : (8 * a + i) / 8 = a := by omega
  have hpos : (8 * a + i) % 8 = i := by omega
  simp [Memory.bit?, hbyte, hpos, h]

/-- Two canonical memories with the same bits are one memory. -/
theorem memory_ext_bits {m m' : Memory} (h : m.wf = true) (h' : m'.wf = true) (hb : ∀ k, m.bit? k = m'.bit? k) :
    m = m' := by
  refine memory_ext h h' fun a => ?_
  have isSome_eq : (m.read? a).isSome = (m'.read? a).isSome := by
    simpa [bit_isSome] using congrArg Option.isSome (hb (8 * a))
  cases hr : m.read? a with
  | none => exact (by simpa [hr] using isSome_eq : m'.read? a = none).symm
  | some b =>
    rw [hr] at isSome_eq
    obtain ⟨b', hr'⟩ := Option.isSome_iff_exists.1 isSome_eq.symm
    have same : b = b' := BitVec.eq_of_getLsbD_eq fun i hi =>
      Option.some.inj ((bit_of_read hr hi).symm.trans ((hb _).trans (bit_of_read hr' hi)))
    rw [hr', same]

theorem bit_write (m : Memory) (a : Nat) (b : Byte) (k : Nat) :
    (m.write a b).bit? k = if 8 * a ≤ k ∧ k < 8 * a + 8 then some (b.getLsbD (k - 8 * a)) else m.bit? k := by
  split
  · next h =>
    obtain ⟨i, rfl⟩ := Nat.exists_eq_add_of_le h.1
    rw [bit_of_read (read_write_same m a b) (by omega), Nat.add_sub_cancel_left]
  · next h => rw [Memory.bit?, read_write_other m b (by omega), Memory.bit?]

/-- A bit of the word at `a` is a bit of one of its four bytes. -/
theorem exists_word_bit {a k : Nat} (h : 8 * a ≤ k ∧ k < 8 * a + 32) :
    ∃ i, i < 4 ∧ ∃ j, j < 8 ∧ k = 8 * (a + i) + j :=
  ⟨k / 8 - a, by omega, k % 8, by omega, by omega⟩

theorem getLsbD_wordByte (v : Word) (i j : Nat) (hj : j < 8) : (wordByte v i).getLsbD j = v.getLsbD (8 * i + j) := by
  simp [wordByte, hj]

/-- A word write sets the 32 bits from its first byte on: little-endian (R44). -/
theorem bit_writeWord (m : Memory) (a : Nat) (v : Word) (k : Nat) :
    (m.writeWord a v).bit? k = if 8 * a ≤ k ∧ k < 8 * a + 32 then some (v.getLsbD (k - 8 * a)) else m.bit? k := by
  split
  · next h =>
    obtain ⟨i, hi, j, hj, rfl⟩ := exists_word_bit h
    have byte : (m.writeWord a v).read? (a + i) = some (wordByte v i) := by
      rw [read_writeWord]
      obtain rfl | rfl | rfl | rfl : i = 0 ∨ i = 1 ∨ i = 2 ∨ i = 3 := by omega
      all_goals simp
    rw [bit_of_read byte hj, getLsbD_wordByte v i j hj]
    congr 2; omega
  · next h => rw [Memory.bit?, read_writeWord_outside m v (by omega), Memory.bit?]

theorem wordByte_wordOfBytes (b0 b1 b2 b3 : Byte) :
    wordByte (wordOfBytes b0 b1 b2 b3) 0 = b0 ∧ wordByte (wordOfBytes b0 b1 b2 b3) 1 = b1 ∧
    wordByte (wordOfBytes b0 b1 b2 b3) 2 = b2 ∧ wordByte (wordOfBytes b0 b1 b2 b3) 3 = b3 := by
  refine ⟨?_, ?_, ?_, ?_⟩
  all_goals
    refine BitVec.eq_of_getLsbD_eq fun j hj => ?_
    rw [getLsbD_wordByte _ _ _ hj]
    simp only [wordOfBytes, BitVec.getLsbD_append]
    grind

/-- A word that can be read is made of the bytes it is read from. -/
theorem read_of_readWord {m : Memory} {a : Nat} {v : Word} (h : m.readWord? a = some v) {i : Nat} (hi : i < 4) :
    m.read? (a + i) = some (wordByte v i) := by
  unfold Memory.readWord? at h
  split at h
  · next b0 b1 b2 b3 h0 h1 h2 h3 =>
    obtain rfl := Option.some.inj h
    obtain ⟨hb0, hb1, hb2, hb3⟩ := wordByte_wordOfBytes b0 b1 b2 b3
    obtain rfl | rfl | rfl | rfl : i = 0 ∨ i = 1 ∨ i = 2 ∨ i = 3 := by omega
    · rw [hb0]; exact h0
    · rw [hb1]; exact h1
    · rw [hb2]; exact h2
    · rw [hb3]; exact h3
  · cases h

/-- A word that can be read is 32 consecutive bits of memory: little-endian (R44). -/
theorem bit_of_readWord {m : Memory} {a : Nat} {v : Word} (h : m.readWord? a = some v) {k : Nat}
    (hk : 8 * a ≤ k ∧ k < 8 * a + 32) : m.bit? k = some (v.getLsbD (k - 8 * a)) := by
  obtain ⟨i, hi, j, hj, rfl⟩ := exists_word_bit hk
  rw [bit_of_read (read_of_readWord h hi) hj, getLsbD_wordByte v i j hj]
  congr 2; omega

/-- A field write replaces the ten bits of its slot (R162) and keeps the other slots and bits 31:30 (D19). -/
theorem getLsbD_withSlot (old : Word) (s : Fin 3) (x : BitVec 10) {i : Nat} (hi : i < 32) :
    (withSlot old s x).getLsbD i =
      if 10 * s.val ≤ i ∧ i < 10 * s.val + 10 then x.getLsbD (i - 10 * s.val) else old.getLsbD i := by
  have mask : (0x3FF#32).getLsbD (i - 10 * s.val) = decide (i - 10 * s.val < 10) := by
    have : ∀ j : Fin 32, (0x3FF#32).getLsbD j = decide (j.val < 10) := by decide
    exact this ⟨i - 10 * s.val, by omega⟩
  simp only [withSlot, p10SlotBits, BitVec.getLsbD_or, BitVec.getLsbD_and, BitVec.getLsbD_not,
    BitVec.getLsbD_shiftLeft, BitVec.getLsbD_setWidth, mask, hi, decide_true, Bool.true_and]
  split
  · next inSlot =>
    rw [decide_eq_false (by omega : ¬ i < 10 * s.val), decide_eq_true (by omega : i - 10 * s.val < 10)]
    simp [show i - 10 * s.val < 32 by omega]
  · next outside =>
    obtain below | above : i < 10 * s.val ∨ 10 ≤ i - 10 * s.val := by omega
    · simp [below]
    · simp [above]

/-! ### What an access forces -/

/-- The value an access forces on bit `k` of memory, if it touches the bit. -/
def Access.forced : Access → Nat → Option Bool
  | .store a v, k => if 8 * a ≤ k ∧ k < 8 * a + 8 then some (v.getLsbD (k - 8 * a)) else none
  | .setField a s v, k =>
    if 8 * a + 10 * s.val ≤ k ∧ k < 8 * a + 10 * s.val + 10 then some (v.getLsbD (k - (8 * a + 10 * s.val))) else none

/-- The value a list of accesses forces on bit `k`: that of the last access that touches it. -/
def forcedBy : List Access → Nat → Option Bool
  | [], _ => none
  | x :: xs, k => (forcedBy xs k).or (x.forced k)

/-- Every bit of memory after an access is the one the access forces, or what it was. -/
theorem perform_bit {w : Window} {m m' : Memory} {x : Access} (h : x.perform w m = .ok m') (k : Nat) :
    m'.bit? k = (x.forced k).or (m.bit? k) := by
  cases x with
  | store a v =>
    obtain ⟨-, rfl⟩ := (memWrite8_ok _ _ _ _ _).1 h
    rw [bit_write, Access.forced]
    split <;> rfl
  | setField a s v =>
    obtain ⟨old, -, hold, rfl⟩ := (set10_ok _ _ _ _ _ _).1 h
    rw [bit_writeWord, Access.forced]
    by_cases inWord : 8 * a ≤ k ∧ k < 8 * a + 32
    · rw [if_pos inWord, getLsbD_withSlot old s v (by omega), bit_of_readWord hold inWord]
      by_cases inSlot : 8 * a + 10 * s.val ≤ k ∧ k < 8 * a + 10 * s.val + 10
      · rw [if_pos (by omega), if_pos inSlot, Nat.sub_sub, Option.some_or]
      · rw [if_neg (by omega), if_neg inSlot, Option.none_or]
    · rw [if_neg inWord, if_neg (by omega), Option.none_or]

theorem runAccesses_bit {w : Window} {xs : List Access} {m : Memory} (h : (runAccesses w xs m).ending = .done) (k : Nat) :
    (runAccesses w xs m).mem.bit? k = (forcedBy xs k).or (m.bit? k) := by
  induction xs generalizing m with
  | nil => rfl
  | cons x xs ih =>
    cases hx : x.perform w m with
    | ok m' =>
      rw [runAccesses_cons_ok _ hx] at h ⊢
      rw [ih h, perform_bit hx, forcedBy, Option.or_assoc]
    | error f => rw [runAccesses_cons_error _ hx] at h; cases h

/-! ### An access that can be performed can be performed on any memory that holds as much -/

/-- `m'` holds a value wherever `m` does. -/
def Memory.HoldsAll (m' m : Memory) : Prop := ∀ k, (m.bit? k).isSome = true → (m'.bit? k).isSome = true

theorem perform_of_holdsAll {w : Window} {m n m' : Memory} {x : Access} (hn : n.HoldsAll m)
    (h : x.perform w m = .ok m') : ∃ n', x.perform w n = .ok n' ∧ n'.HoldsAll m' := by
  have performed : ∃ n', x.perform w n = .ok n' := by
    cases x with
    | store a v =>
      obtain ⟨hc, -⟩ := (memWrite8_ok _ _ _ _ _).1 h
      exact ⟨_, (memWrite8_ok _ _ _ _ _).2 ⟨hc, rfl⟩⟩
    | setField a s v =>
      obtain ⟨old, hc, hold, -⟩ := (set10_ok _ _ _ _ _ _).1 h
      have readable : (n.readWord? a).isSome = true := (readWord_isSome n a).2 fun i hi => by
        have := hn (8 * (a + i))
        rw [bit_isSome, bit_isSome, Nat.mul_div_cancel_left _ (by decide)] at this
        exact this ((readWord_isSome m a).1 (Option.isSome_of_eq_some hold) i hi)
      obtain ⟨v', hv'⟩ := Option.isSome_iff_exists.1 readable
      exact ⟨_, (set10_ok _ _ _ _ _ _).2 ⟨v', hc, hv', rfl⟩⟩
  obtain ⟨n', hn'⟩ := performed
  refine ⟨n', hn', fun k hk => ?_⟩
  rw [perform_bit h, Option.isSome_or, Bool.or_eq_true] at hk
  rw [perform_bit hn', Option.isSome_or, Bool.or_eq_true]
  exact hk.imp_right (hn k)

/-- Accesses that run to their end do so on any memory that holds as much. -/
theorem runAccesses_done_of_holdsAll {w : Window} {xs : List Access} {m n : Memory} (hn : n.HoldsAll m)
    (h : (runAccesses w xs m).ending = .done) : (runAccesses w xs n).ending = .done := by
  induction xs generalizing m n with
  | nil => rfl
  | cons x xs ih =>
    cases hx : x.perform w m with
    | ok m' =>
      rw [runAccesses_cons_ok _ hx] at h
      obtain ⟨n', hx', hn'⟩ := perform_of_holdsAll hn hx
      rw [runAccesses_cons_ok _ hx']
      exact ih hn' h
    | error f => rw [runAccesses_cons_error _ hx] at h; cases h

/-! ### The same command again -/

/-- A list of accesses that ran to its end, run again on what it left, leaves it as it is. -/
theorem runAccesses_again {w : Window} {xs : List Access} {m : Memory} (hm : m.wf = true)
    (h : (runAccesses w xs m).ending = .done) :
    runAccesses w xs (runAccesses w xs m).mem = runAccesses w xs m := by
  have holds : (runAccesses w xs m).mem.HoldsAll m := fun k hk => by
    rw [runAccesses_bit h, Option.isSome_or, hk, Bool.or_true]
  have done : (runAccesses w xs (runAccesses w xs m).mem).ending = .done := runAccesses_done_of_holdsAll holds h
  have same : (runAccesses w xs (runAccesses w xs m).mem).mem = (runAccesses w xs m).mem :=
    memory_ext_bits (runAccesses_wf w xs (runAccesses_wf w xs hm)) (runAccesses_wf w xs hm) fun k => by
      rw [runAccesses_bit done, runAccesses_bit h, ← Option.or_assoc, Option.or_self]
  exact congrArg₂ Transaction.mk same (done.trans h.symm)

/-- `drawCell` ends done or at a fault: it answers no ink bit and refuses nothing (R66, R108). -/
theorem drawCell_ending (wp : WritePixel) (order : List Pixel) (a : DrawArgs) (s : State) :
    (drawCell wp order a s).ending = .done ∨ ∃ f, (drawCell wp order a s).ending = .fault f := by
  obtain ⟨-, hd⟩ | ⟨g, -, hd⟩ := drawCell_cases wp order a s
  · rw [hd]; exact .inl rfl
  · rw [hd]; exact runAccesses_ending _ _ _

theorem drawCell_again {wp : WritePixel} {order : List Pixel} {a : DrawArgs} {s t : State} (hm : s.mem.wf = true)
    (h : conclude s (drawCell wp order a s) = .next t) : drawCell wp order a t = drawCell wp order a s := by
  obtain ⟨done, rfl⟩ | ⟨b, responds, -⟩ := conclude_next h
  · cases hg : glyph? a.glyph with
    | none => simp only [drawCell, hg]
    | some g =>
      simp only [drawCell, hg] at done ⊢
      exact runAccesses_again hm done
  · obtain done | ⟨f, faults⟩ := drawCell_ending wp order a s
    · cases responds.symm.trans done
    · cases responds.symm.trans faults

theorem rasterTransaction_mem (a : RasterArgs) (s : State) : (rasterTransaction a s).mem = s.mem := by
  unfold rasterTransaction
  split
  · rfl
  · split <;> rfl

/-- The transaction of a `RASTER` reads the Glyph Table alone and hands the memory on (R84). -/
theorem rasterTransaction_congr (a : RasterArgs) {s t : State} (hrom : t.rom = s.rom) (hmem : t.mem = s.mem) :
    rasterTransaction a t = rasterTransaction a s := by
  simp only [rasterTransaction, hrom, hmem]

/-- A command that answered has the same transaction again from the state it answered. -/
theorem transaction_again {order : List Pixel} {i : Instr} {s t : State} (hm : s.mem.wf = true)
    (h : conclude s (transaction order i s) = .next t) : transaction order i t = transaction order i s := by
  cases i with
  | raster a =>
    obtain ⟨-, rfl⟩ | ⟨b, -, rfl⟩ := conclude_next h
    · exact rasterTransaction_congr a rfl (rasterTransaction_mem a s)
    · exact rasterTransaction_congr a rfl (rasterTransaction_mem a s)
  | drawI8 a => exact drawCell_again hm h
  | drawP8 a => exact drawCell_again hm h
  | drawP10 a => exact drawCell_again hm h

/-- Concluding a transaction a second time leaves the memory and the reply it left the first time. -/
theorem conclude_again {s t : State} {T : Transaction} (h : conclude s T = .next t) : conclude t T = .next t := by
  obtain ⟨done, rfl⟩ | ⟨b, responds, rfl⟩ := conclude_next h
  · simp only [conclude, done]
  · simp only [conclude, responds]

/-- Settles O34: the command's accesses force the same bits again, so its second transaction is its first one. -/
theorem drawingTwiceIsDrawingOnce : Obligations.DrawingTwiceIsDrawingOnce := by
  intro i s t hm h
  rw [exec_eq] at h ⊢
  rw [transaction_again hm h]
  exact conclude_again h

end Sys2Proof.Machine

/-! PROOFS. The rasterizer. `SrcCol` and `SrcRow` (R82) are one nearest-neighbour mapping, at 8 source columns and at 16 source
rows; each property of R85 is proved once for any number of source cells. Then `RASTER` (R84), whose three endings are the
clauses of its statements. -/
namespace Sys2Proof.Machine

/-! ### The nearest-neighbour mapping at any number of source cells -/

/-- The source cell, of `n`, that target position `x` of `w` shows (R82). -/
def nearest (n x w : Nat) : Nat := min (n - 1) (x * n / w)

theorem srcCol_eq_nearest (x cw : Nat) : srcCol x cw = nearest 8 x cw := rfl

theorem srcRow_eq_nearest (y ch : Nat) : srcRow y ch = nearest 16 y ch := rfl

/-- Inside the cell the clamp never acts (R85 item 1). -/
theorem nearest_of_lt (n : Nat) {x w : Nat} (hx : x < w) : nearest n x w = x * n / w := by
  have below : x * n / w ≤ n - 1 := by
    rcases Nat.eq_zero_or_pos n with rfl | hn
    · simp
    · exact Nat.le_sub_one_of_lt (Nat.div_lt_of_lt_mul (Nat.mul_lt_mul_of_pos_right hx hn))
  exact min_eq_right below

theorem nearest_mono (n w : Nat) {x x' : Nat} (h : x ≤ x') : nearest n x w ≤ nearest n x' w :=
  min_le_min_left _ (Nat.div_le_div_right (Nat.mul_le_mul_right n h))

theorem nearest_zero (n w : Nat) : nearest n 0 w = 0 := by simp [nearest]

/-- A cell of `n * k` positions shows every source cell on a block of `k` (R85 item 4). -/
theorem nearest_blocks {n k x : Nat} (hx : x < n * k) : nearest n x (n * k) = x / k := by
  have hn : 0 < n := Nat.pos_of_mul_pos_right (Nat.zero_lt_of_lt hx)
  rw [nearest_of_lt n hx, Nat.mul_comm x n, Nat.mul_div_mul_left x k hn]

/-- A cell as wide as the source shows it unchanged (R85 item 3). -/
theorem nearest_self {n x : Nat} (hx : x < n) : nearest n x n = x := by
  simpa using nearest_blocks (k := 1) (by simpa using hx)

/-- `ceil(a / n) <= x`, the ceiling written as a floor. -/
theorem ceil_div_le_iff {n : Nat} (hn : 0 < n) (a x : Nat) : (a + (n - 1)) / n ≤ x ↔ a ≤ x * n := by
  rw [← Nat.lt_add_one_iff, Nat.div_lt_iff_lt_mul hn, Nat.add_mul]
  omega

/-- Source cell `c` is shown on exactly the positions from `ceil(c * w / n)` to `ceil((c + 1) * w / n) - 1` (R85 item 5). -/
theorem nearest_eq_iff {n x w : Nat} (hn : 0 < n) (hx : x < w) (c : Nat) :
    nearest n x w = c ↔ (c * w + (n - 1)) / n ≤ x ∧ x + 1 ≤ ((c + 1) * w + (n - 1)) / n := by
  have hw : 0 < w := Nat.zero_lt_of_lt hx
  calc nearest n x w = c
      ↔ c ≤ x * n / w ∧ x * n / w < c + 1 := by rw [nearest_of_lt n hx]; omega
    _ ↔ c * w ≤ x * n ∧ ¬ (c + 1) * w ≤ x * n := by
      rw [Nat.le_div_iff_mul_le hw, Nat.div_lt_iff_lt_mul hw, Nat.not_le]
    _ ↔ _ := by rw [← ceil_div_le_iff hn, ← ceil_div_le_iff hn, Nat.not_le, Nat.lt_iff_add_one_le]

/-- Settles O13: each property is that of `nearest`, at 8 source columns and at 16 source rows. -/
theorem mappingIsMonotoneAndTiles : Obligations.MappingIsMonotoneAndTiles := by
  simp only [Obligations.MappingIsMonotoneAndTiles, srcCol_eq_nearest, srcRow_eq_nearest]
  exact ⟨fun _ _ _ hx => nearest_of_lt 8 hx, fun _ _ _ hy => nearest_of_lt 16 hy,
    fun _ _ cw _ hx => nearest_mono 8 cw hx, fun _ _ ch _ hy => nearest_mono 16 ch hy,
    fun cw _ => nearest_zero 8 cw, fun ch _ => nearest_zero 16 ch,
    fun _ hx => nearest_self hx, fun _ hy => nearest_self hy,
    fun _ _ _ hx => nearest_blocks hx, fun _ _ _ hy => nearest_blocks hy,
    fun _ _ c hx _ => nearest_eq_iff (by decide) hx c, fun _ _ r hy _ => nearest_eq_iff (by decide) hy r⟩

/-! ### The ink of a target pixel -/

/-- The ink is a bit of the row of the table that `SrcRow` names (R83). -/
theorem ink_eq (rom : GlyphTable) (g : Fin 12) (cw ch x y : Nat) :
    ∃ r : Fin 16, r.val = srcRow y ch ∧ ink rom g cw ch x y = (romRow rom g r).getLsbD (7 - srcCol x cw) :=
  ⟨⟨srcRow y ch, srcRow_lt y ch⟩, rfl, rfl⟩

/-- Settles O12: the model's mapping and ink are the formulas of R82 and R83; the products are bounded by arithmetic. -/
theorem inkIsTheNearestGlyphBit : Obligations.InkIsTheNearestGlyphBit :=
  ⟨fun rom g cw ch x y _ _ => ⟨rfl, rfl, ink_eq rom g cw ch x y⟩, fun _ hv => by omega⟩

/-! ### The command `RASTER` -/

/-- A zero cell dimension is outside the rasterizer's contract (R84, D13). -/
theorem execRaster_badCell {a : RasterArgs} (s : State) (h : a.cw = 0 ∨ a.ch = 0) :
    exec (.raster a) s = .refused .badCell := by
  have zero : a.cw.toNat = 0 ∨ a.ch.toNat = 0 := h.imp (congrArg BitVec.toNat) (congrArg BitVec.toNat)
  rw [exec_eq, transaction, rasterTransaction, if_pos zero]
  rfl

/-- Inside the contract `RASTER` gets past its check of the cell (R84). -/
theorem not_badCell {a : RasterArgs} (hcw : a.cw ≠ 0) (hch : a.ch ≠ 0) : ¬ (a.cw.toNat = 0 ∨ a.ch.toNat = 0) :=
  not_or.2 ⟨fun h => hcw (BitVec.eq_of_toNat_eq h), fun h => hch (BitVec.eq_of_toNat_eq h)⟩

/-- "No glyph" has no ink (R84, D5). -/
theorem execRaster_noGlyph {a : RasterArgs} (s : State) (hcw : a.cw ≠ 0) (hch : a.ch ≠ 0) (hg : 12 ≤ a.glyph.toNat) :
    exec (.raster a) s = .next { s with reply := some (.respond false) } := by
  rw [exec_eq, transaction, rasterTransaction, if_neg (not_badCell hcw hch), (glyph_eq_none _).2 hg]
  rfl

/-- A glyph of the table answers the ink of the target pixel and changes nothing else (R84). -/
theorem execRaster_ink {a : RasterArgs} (s : State) (hcw : a.cw ≠ 0) (hch : a.ch ≠ 0) {g : Fin 12}
    (hg : g.val = a.glyph.toNat) :
    exec (.raster a) s = .next { s with
      reply := some (.respond (ink s.rom g a.cw.toNat a.ch.toNat a.px.toNat a.py.toNat)) } := by
  rw [exec_eq, transaction, rasterTransaction, if_neg (not_badCell hcw hch), (glyph_eq_some _ _).2 hg.symm]
  rfl

/-- Settles O11: past the contract `RASTER` has "no glyph" and answers no ink, or answers the ink bit of R83. -/
theorem rasterAnswersOneInkBit : Obligations.RasterAnswersOneInkBit := by
  refine fun a s hcw hch => ⟨execRaster_noGlyph s hcw hch, fun g hg => ?_⟩
  obtain ⟨r, hr, hink⟩ := ink_eq s.rom g a.cw.toNat a.ch.toNat a.px.toNat a.py.toNat
  refine ⟨r, hr, ?_⟩
  rw [execRaster_ink s hcw hch hg, hink]
  rfl

/-! ### A presented descriptor of opcode 0 -/

theorem decode_of_reserved {d : Descriptor} (h : d.reserved ≠ 0) : decode d = .error .reservedBits := if_neg h

theorem decode_of_op_zero {d : Descriptor} (h : d.reserved = 0) (hop : d.op = 0) : decode d = .ok (.raster d.rasterArgs) := by
  rw [decode, if_pos h, hop]
  rfl

/-- A presented descriptor that encodes no command is refused (R65). -/
theorem step_of_decode_error {d : Descriptor} {len : Nat} {rest : List HostAction} {s : State} {e : DecodeError}
    (hs : s.inputs = .command d len :: rest) (hd : decode d = .error e) : step s = .refused .reservedEncoding := by
  simp only [step, hs, perform, issue, hd]

/-- A presented descriptor that encodes a command runs it, in the window lent with it (R66). -/
theorem step_of_decode_ok {d : Descriptor} {len : Nat} {rest : List HostAction} {s : State} {i : Instr}
    (hs : s.inputs = .command d len :: rest) (hd : decode d = .ok i) :
    step s = exec i { s with inputs := rest, window := len } := by
  simp only [step, hs, perform, issue, hd]

/-- Settles O10: the step refuses the reserved bits, and otherwise is the `RASTER` of the descriptor's operands. -/
theorem rasterDescriptorIsAnswered : Obligations.RasterDescriptorIsAnswered := by
  intro d len rest s hs hop
  have runs (h : d.reserved = 0) : step s = exec (.raster d.rasterArgs) { s with inputs := rest, window := len } :=
    step_of_decode_ok hs (decode_of_op_zero h hop)
  refine ⟨fun h => step_of_decode_error hs (decode_of_reserved h), fun h hcell => ?_, fun h hcw hch hg => ?_,
    fun h hcw hch g hg => ?_⟩
  · rw [runs h]; exact execRaster_badCell _ hcell
  · rw [runs h]; exact execRaster_noGlyph _ hcw hch hg
  · rw [runs h]; exact (rasterAnswersOneInkBit d.rasterArgs _ hcw hch).2 g hg

end Sys2Proof.Machine

/-! PROOFS. The luma of a visited pixel in the two 8-bit formats (R83, R149). A byte that one store of a command names, and that
no other access of it touches otherwise, ends with that store's value. In both formats the luma byte of a visited pixel is such
a byte: the offset is one to one in the pixel's linear index, and no chroma byte is a luma byte. -/
namespace Sys2Proof.Machine

/-! ### The byte one store decides -/

/-- A byte that some access stores, and that every access stores alike or leaves, ends with the value stored. -/
theorem runAccesses_read_store {w : Window} {xs : List Access} {m : Memory} {addr : Nat} {v : Byte}
    (done : (runAccesses w xs m).ending = .done)
    (only : ∀ x ∈ xs, x = .store addr v ∨ addr < x.addr ∨ x.addr + x.size ≤ addr)
    (stored : .store addr v ∈ xs ∨ m.read? addr = some v) : (runAccesses w xs m).mem.read? addr = some v := by
  induction xs generalizing m with
  | nil => simpa using stored
  | cons x xs ih =>
    obtain ⟨here, later⟩ := List.forall_mem_cons.1 only
    cases hx : x.perform w m with
    | error f => rw [runAccesses_cons_error _ hx] at done; cases done
    | ok m' =>
      rw [runAccesses_cons_ok _ hx] at done ⊢
      refine ih done later ?_
      obtain rfl | outside := here
      · obtain ⟨-, rfl⟩ := (memWrite8_ok _ _ _ _ _).1 hx
        exact .inr (read_write_same m addr v)
      · obtain ⟨-, keeps⟩ := perform_ok hx
        obtain among | held := stored
        · obtain rfl | among := List.mem_cons.1 among
          · simp [Access.addr, Access.size] at outside
          · exact .inl among
        · exact .inr ((keeps addr outside).trans held)

/-- What a `DRAW` with a glyph that answered leaves: all its accesses were performed. -/
theorem drawCell_next {wp : WritePixel} {order : List Pixel} {a : DrawArgs} {s t : State} {g : Fin 12}
    (hg : glyph? a.glyph = some g) (h : conclude s (drawCell wp order a s) = .next t) :
    (runAccesses (a.windowIn s) (cellAccesses wp s.rom g a order) s.mem).ending = .done ∧
    t.mem = (runAccesses (a.windowIn s) (cellAccesses wp s.rom g a order) s.mem).mem := by
  have runs : drawCell wp order a s = runAccesses (a.windowIn s) (cellAccesses wp s.rom g a order) s.mem := by
    simp only [drawCell, hg]
  rw [← runs]
  obtain ⟨done, rfl⟩ | ⟨b, responds, -⟩ := conclude_next h
  · exact ⟨done, rfl⟩
  · obtain done | ⟨f, faults⟩ := drawCell_ending wp order a s
    · cases responds.symm.trans done
    · cases responds.symm.trans faults

/-- A byte that the visit of `p` stores, and that every visit stores alike or leaves, holds that value when the `DRAW` has
answered, in whatever order it visited. -/
theorem drawCell_read_store {wp : WritePixel} {order : List Pixel} {a : DrawArgs} {s t : State} {g : Fin 12}
    (hg : glyph? a.glyph = some g) (h : conclude s (drawCell wp order a s) = .next t) (ho : VisitOrder a order)
    {p : Pixel} (hp : p ∈ a.visits) {addr : Nat} {v : Byte}
    (stored : .store addr v ∈ wp a (a.sx p) (a.sy p) (cellInk s.rom g a p))
    (only : ∀ q ∈ a.visits, ∀ x ∈ wp a (a.sx q) (a.sy q) (cellInk s.rom g a q),
      x = .store addr v ∨ addr < x.addr ∨ x.addr + x.size ≤ addr) : t.mem.read? addr = some v := by
  obtain ⟨done, hmem⟩ := drawCell_next hg h
  rw [hmem]
  refine runAccesses_read_store done (fun x hx => ?_) (.inl (List.mem_flatMap.2 ⟨p, ho.mem_iff.2 hp, stored⟩))
  obtain ⟨q, hq, hxq⟩ := List.mem_flatMap.1 hx
  exact only q (ho.mem_iff.1 hq) x hxq

/-! ### The screen coordinates of a visited pixel -/

/-- The visits are the pixels of the cell that are on the frame (R101). -/
theorem mem_visits (a : DrawArgs) (p : Pixel) :
    p ∈ a.visits ↔ p.x < a.CW ∧ p.y < a.CH ∧ 0 ≤ a.X0 + p.x ∧ a.X0 + p.x < a.W ∧ 0 ≤ a.Y0 + p.y ∧ a.Y0 + p.y < a.H := by
  have listed : p ∈ a.visits ↔ p.y ∈ a.rows ∧ p.x ∈ a.cols := by
    cases p
    simp [DrawArgs.visits]
  rw [listed, DrawArgs.rows, DrawArgs.cols, mem_intRange, mem_intRange]
  omega

theorem sx_of_visit {a : DrawArgs} {p : Pixel} (hp : p ∈ a.visits) : (a.sx p : Int) = a.X0 + p.x ∧ a.sx p < a.W := by
  obtain ⟨-, -, hlo, hhi, -, -⟩ := (mem_visits a p).1 hp
  unfold DrawArgs.sx
  omega

theorem sy_of_visit {a : DrawArgs} {p : Pixel} (hp : p ∈ a.visits) : (a.sy p : Int) = a.Y0 + p.y ∧ a.sy p < a.H := by
  obtain ⟨-, -, -, -, hlo, hhi⟩ := (mem_visits a p).1 hp
  unfold DrawArgs.sy
  omega

/-! ### The offsets of a pixel's bytes -/

/-- A pixel on the frame is told by its linear index. -/
theorem p8LumaIdx_inj {a : DrawArgs} {sx sy sx' sy' : Nat} (hx : sx < a.W) (hx' : sx' < a.W)
    (h : p8LumaIdx a sx sy = p8LumaIdx a sx' sy') : sx = sx' ∧ sy = sy' := by
  have hw : 0 < a.W := Nat.zero_lt_of_lt hx
  unfold p8LumaIdx at h
  have column : sx = sx' := by simpa [Nat.mod_eq_of_lt, hx, hx'] using congrArg (· % a.W) h
  have row : sy * a.W = sy' * a.W := by omega
  exact ⟨column, Nat.eq_of_mul_eq_mul_right hw row⟩

/-- A visited pixel is told by the linear index of its place on the screen. -/
theorem visit_eq_of_p8LumaIdx {a : DrawArgs} {p q : Pixel} (hp : p ∈ a.visits) (hq : q ∈ a.visits)
    (h : p8LumaIdx a (a.sx q) (a.sy q) = p8LumaIdx a (a.sx p) (a.sy p)) : q = p := by
  obtain ⟨hpx, hpW⟩ := sx_of_visit hp
  obtain ⟨hqx, hqW⟩ := sx_of_visit hq
  obtain ⟨hpy, -⟩ := sy_of_visit hp
  obtain ⟨hqy, -⟩ := sy_of_visit hq
  obtain ⟨sameColumn, sameRow⟩ := p8LumaIdx_inj hqW hpW h
  have x_eq : q.x = p.x := by omega
  have y_eq : q.y = p.y := by omega
  exact congrArg₂ Pixel.mk x_eq y_eq

/-- The luma plane ends where the first chroma plane begins (R142). -/
theorem p8LumaIdx_lt {a : DrawArgs} {sx sy : Nat} (hx : sx < a.W) (hy : sy < a.H) : p8LumaIdx a sx sy < p8C1 a := by
  calc sy * a.W + sx < sy * a.W + a.W := by omega
    _ = (sy + 1) * a.W := (Nat.succ_mul sy a.W).symm
    _ ≤ a.H * a.W := Nat.mul_le_mul_right _ hy
    _ = a.W * a.H := Nat.mul_comm _ _

theorem p8C1_le_p8C2 (a : DrawArgs) : p8C1 a ≤ p8C2 a := Nat.le_add_right _ _

/-- For even `W` the luma bytes of an Interleaved8 frame are its odd bytes, in the order of the pixels (R126). -/
theorem i8LumaOff_of_even {a : DrawArgs} (hw : a.W % 2 = 0) (sx sy : Nat) :
    i8LumaOff a sx sy = 2 * p8LumaIdx a sx sy + 1 := by
  have parity : sy * a.W % 2 = 0 := by simp [Nat.mul_mod, hw]
  simp only [i8LumaOff, i8Group, i8GroupBytes, p8LumaIdx]
  split <;> omega

/-- The chroma bytes of an Interleaved8 frame are even bytes (R121). -/
theorem i8Group_even (a : DrawArgs) (sx sy : Nat) : i8Group a sx sy % 2 = 0 := by
  simp only [i8Group, i8GroupBytes]
  omega

/-! ### The luma byte of a visited pixel -/

/-- For even `W` every visited pixel has its own luma level after a `DRAW.I8`. -/
theorem execDrawI8_luma {a : DrawArgs} {s t : State} {g : Fin 12} (hg : glyph? a.glyph = some g) (hw : a.W % 2 = 0)
    (h : exec (.drawI8 a) s = .next t) {p : Pixel} (hp : p ∈ a.visits) :
    t.mem.read? (a.B + i8LumaOff a (a.sx p) (a.sy p)) = some (luma8 (cellInk s.rom g a p)) := by
  rw [exec_eq] at h
  refine drawCell_read_store hg h (i8Order_perm a) hp (by simp [writePixelI8]) fun q hq x hx => ?_
  have odd := i8LumaOff_of_even hw (a.sx p) (a.sy p)
  have even := i8Group_even a (a.sx q) (a.sy q)
  simp only [writePixelI8, List.mem_cons, List.not_mem_nil, or_false] at hx
  obtain rfl | rfl | rfl := hx
  · by_cases same : q = p
    · subst same; exact .inl rfl
    · have apart := mt (visit_eq_of_p8LumaIdx hp hq) same
      rw [i8LumaOff_of_even hw, i8LumaOff_of_even hw]
      simp only [Access.addr, Access.size]
      omega
  · simp only [Access.addr, Access.size, i8Chroma1]
    omega
  · simp only [Access.addr, Access.size, i8Chroma2]
    omega

/-- Every visited pixel has its own luma level after a `DRAW.P8`. -/
theorem execDrawP8_luma {a : DrawArgs} {s t : State} {g : Fin 12} (hg : glyph? a.glyph = some g)
    (h : exec (.drawP8 a) s = .next t) {p : Pixel} (hp : p ∈ a.visits) :
    t.mem.read? (a.B + p8LumaIdx a (a.sx p) (a.sy p)) = some (luma8 (cellInk s.rom g a p)) := by
  rw [exec_eq] at h
  refine drawCell_read_store hg h (List.Perm.refl _) hp (by simp [writePixelP8]) fun q hq x hx => ?_
  have inPlane : p8LumaIdx a (a.sx p) (a.sy p) < p8C1 a := p8LumaIdx_lt (sx_of_visit hp).2 (sy_of_visit hp).2
  have planes := p8C1_le_p8C2 a
  simp only [writePixelP8, List.mem_cons, List.not_mem_nil, or_false] at hx
  obtain rfl | rfl | rfl := hx
  · by_cases same : q = p
    · subst same; exact .inl rfl
    · have apart := mt (visit_eq_of_p8LumaIdx hp hq) same
      simp only [Access.addr, Access.size]
      omega
  · simp only [Access.addr, Access.size]
    omega
  · simp only [Access.addr, Access.size]
    omega

/-- Settles O39: each format leaves the luma level of the pixel's own ink, which the base does not enter. -/
theorem bothEightBitFormatsShowTheSameLuma : Obligations.BothEightBitFormatsShowTheSameLuma := by
  intro a b s s' t t' g hg hw hrom h h' p hp
  have planar : t'.mem.read? (b.toNat + p8LumaIdx a (a.sx p) (a.sy p)) = some (luma8 (cellInk s'.rom g a p)) :=
    execDrawP8_luma (a := { a with base := b }) hg h' hp
  rw [execDrawI8_luma hg hw h hp, planar, hrom]

end Sys2Proof.Machine

/-! PROOFS. The accesses of a command as a set. When a `DRAW` reads words everywhere or nowhere, whether it ends done depends
only on which accesses it makes. An access forces one run of bits; when any two of a command's accesses are equal or force
disjoint runs, each of them can be read back after it, and neither the order of the visits (R104) nor what else is drawn shows
in the memory left. -/
namespace Sys2Proof.Machine

/-! ### Which accesses can be performed -/

/-- The access reads the word it writes (R162, R164). -/
def Access.loads : Access → Bool
  | .store _ _ => false
  | .setField _ _ _ => true

/-- The window covers the access, and a word it reads holds a value (R41, R48). -/
def Access.Possible (w : Window) (m : Memory) (x : Access) : Prop :=
  w.covers x.addr x.size = true ∧ (x.loads = true → (m.readWord? x.addr).isSome = true)

/-- An access can be performed exactly when it is possible. -/
theorem possible_iff (w : Window) (m : Memory) (x : Access) : x.Possible w m ↔ ∃ m', x.perform w m = .ok m' := by
  cases x with
  | store a v => simp [Access.Possible, Access.loads, Access.perform, Access.addr, Access.size, memWrite8_ok]
  | setField a s v =>
    simp [Access.Possible, Access.loads, Access.perform, Access.addr, Access.size, set10_ok, Option.isSome_iff_exists]

/-- A read-modify-write gives no byte its first value: the bytes of its word held one already. -/
theorem perform_isSome {w : Window} {m m' : Memory} {x : Access} (hx : x.loads = true) (h : x.perform w m = .ok m')
    (addr : Nat) : (m'.read? addr).isSome = (m.read? addr).isSome := by
  obtain ⟨-, keeps⟩ := perform_ok h
  obtain ⟨-, readable⟩ := (possible_iff w m x).2 ⟨m', h⟩
  cases x with
  | store a v => cases hx
  | setField a s v =>
    by_cases inWord : a ≤ addr ∧ addr < a + 4
    · obtain ⟨i, rfl⟩ := Nat.exists_eq_add_of_le inWord.1
      have hi : i < 4 := by omega
      obtain ⟨old, -, -, rfl⟩ := (set10_ok _ _ _ _ _ _).1 h
      have before := (readWord_isSome m a).1 (readable rfl) i hi
      rw [before, read_writeWord]
      grind
    · rw [keeps addr (by simp only [Access.addr, Access.size]; omega)]

theorem runAccesses_isSome (w : Window) {xs : List Access} (hxs : ∀ x ∈ xs, x.loads = true) (m : Memory) (addr : Nat) :
    ((runAccesses w xs m).mem.read? addr).isSome = (m.read? addr).isSome := by
  induction xs generalizing m with
  | nil => rfl
  | cons x xs ih =>
    obtain ⟨here, later⟩ := List.forall_mem_cons.1 hxs
    cases hx : x.perform w m with
    | ok m' => rw [runAccesses_cons_ok _ hx, ih later, perform_isSome here hx]
    | error f => rw [runAccesses_cons_error _ hx]

/-- Word reads are possible on two memories alike when the same bytes hold values. -/
theorem readWord_isSome_congr {m m' : Memory} (h : ∀ addr, (m'.read? addr).isSome = (m.read? addr).isSome) (a : Nat) :
    (m'.readWord? a).isSome = (m.readWord? a).isSome := by
  rw [Bool.eq_iff_iff, readWord_isSome, readWord_isSome]
  simp only [h]

/-- An access leaves another of its kind as possible as it was. -/
theorem possible_perform {w : Window} {m m' : Memory} {x y : Access} (kind : x.loads = y.loads)
    (h : x.perform w m = .ok m') : y.Possible w m' ↔ y.Possible w m := by
  refine and_congr_right fun _ => forall_congr' fun hy => ?_
  rw [readWord_isSome_congr (perform_isSome (kind.trans hy) h)]

/-- Accesses that all read, or that all only store, end done exactly when each of them is possible at the start. -/
theorem runAccesses_done_iff {w : Window} {xs : List Access} {m : Memory} {kind : Bool} (hxs : ∀ x ∈ xs, x.loads = kind) :
    (runAccesses w xs m).ending = .done ↔ ∀ x ∈ xs, x.Possible w m := by
  induction xs generalizing m with
  | nil => simp
  | cons x xs ih =>
    obtain ⟨here, later⟩ := List.forall_mem_cons.1 hxs
    rw [List.forall_mem_cons, possible_iff]
    cases hx : x.perform w m with
    | ok m' =>
      have alike : (∀ y ∈ xs, y.Possible w m') ↔ ∀ y ∈ xs, y.Possible w m :=
        forall₂_congr fun y hy => possible_perform (here.trans (later y hy).symm) hx
      simp [runAccesses_cons_ok _ hx, ih later, alike]
    | error f => simp [runAccesses_cons_error _ hx]

/-- A byte no access touches is as before, whether the accesses all run or one of them faults. -/
theorem runAccesses_frame (w : Window) {xs : List Access} (m : Memory) {addr : Nat}
    (apart : ∀ x ∈ xs, addr < x.addr ∨ x.addr + x.size ≤ addr) : (runAccesses w xs m).mem.read? addr = m.read? addr := by
  induction xs generalizing m with
  | nil => rfl
  | cons x xs ih =>
    obtain ⟨here, later⟩ := List.forall_mem_cons.1 apart
    cases hx : x.perform w m with
    | ok m' => rw [runAccesses_cons_ok _ hx, ih m' later, (perform_ok hx).2 addr here]
    | error f => rw [runAccesses_cons_error _ hx]

/-- The first part of a run that ends done ends done. -/
theorem runAccesses_done_left {w : Window} {xs ys : List Access} {m : Memory}
    (h : (runAccesses w (xs ++ ys) m).ending = .done) : (runAccesses w xs m).ending = .done := by
  induction xs generalizing m with
  | nil => rfl
  | cons x xs ih =>
    rw [List.cons_append] at h
    cases hx : x.perform w m with
    | ok m' => rw [runAccesses_cons_ok _ hx] at h ⊢; exact ih h
    | error f => rw [runAccesses_cons_error _ hx] at h; cases h

/-! ### Two accesses that do not disturb each other -/

/-- The first bit of memory an access forces. -/
def Access.firstBit : Access → Nat
  | .store a _ => 8 * a
  | .setField a s _ => 8 * a + 10 * s.val

/-- How many bits an access forces. -/
def Access.width : Access → Nat
  | .store _ _ => 8
  | .setField _ _ _ => 10

/-- The accesses force disjoint runs of bits. -/
def Access.Apart (x y : Access) : Prop :=
  x.firstBit + x.width ≤ y.firstBit ∨ y.firstBit + y.width ≤ x.firstBit

/-- The accesses are one and the same, or force disjoint runs of bits. -/
def Access.Compatible (x y : Access) : Prop := x = y ∨ x.Apart y

/-- Two byte stores are compatible when they store the same value wherever they store to the same byte. -/
theorem compatible_store {a a' : Nat} {v v' : Byte} (h : a = a' → v = v') :
    (Access.store a v).Compatible (.store a' v') := by
  by_cases same : a = a'
  · exact .inl (congrArg₂ Access.store same (h same))
  · refine .inr ?_
    simp only [Access.Apart, Access.firstBit, Access.width]
    omega

/-- The bits an access forces are those of its run. -/
theorem forced_eq_none_iff (x : Access) (k : Nat) :
    x.forced k = none ↔ k < x.firstBit ∨ x.firstBit + x.width ≤ k := by
  cases x with
  | store a v => simp only [Access.forced, Access.firstBit, Access.width, ite_eq_right_iff, reduceCtorEq, imp_false]; omega
  | setField a s v => simp only [Access.forced, Access.firstBit, Access.width, ite_eq_right_iff, reduceCtorEq, imp_false]; omega

/-- Two compatible accesses force the same value on a bit they both force. -/
theorem Access.Compatible.forced_eq {x y : Access} (h : x.Compatible y) {k : Nat} {b c : Bool}
    (hx : x.forced k = some b) (hy : y.forced k = some c) : b = c := by
  obtain rfl | apart := h
  · exact Option.some.inj (hx.symm.trans hy)
  · have inX := mt (forced_eq_none_iff x k).2 (by simp [hx])
    have inY := mt (forced_eq_none_iff y k).2 (by simp [hy])
    unfold Access.Apart at apart
    omega

/-- A value forced on a bit is forced by one of the accesses. -/
theorem exists_forced_of_forcedBy {xs : List Access} {k : Nat} {b : Bool} (h : forcedBy xs k = some b) :
    ∃ x ∈ xs, x.forced k = some b := by
  induction xs with
  | nil => cases h
  | cons x xs ih =>
    obtain later | ⟨-, here⟩ := Option.or_eq_some_iff.1 h
    · obtain ⟨y, hy, hb⟩ := ih later
      exact ⟨y, List.mem_cons_of_mem x hy, hb⟩
    · exact ⟨x, List.mem_cons_self, here⟩

/-- A bit that no access of a list forces. -/
theorem forcedBy_eq_none_iff {xs : List Access} {k : Nat} : forcedBy xs k = none ↔ ∀ x ∈ xs, x.forced k = none := by
  induction xs with
  | nil => simp [forcedBy]
  | cons x xs ih => rw [forcedBy, Option.or_eq_none_iff, ih, List.forall_mem_cons, and_comm]

/-- An access compatible with all the others decides the bits of its run. -/
theorem forcedBy_of_compatible {xs : List Access} {x : Access} (hx : x ∈ xs) (compat : ∀ y ∈ xs, y.Compatible x)
    {k : Nat} {b : Bool} (hb : x.forced k = some b) : forcedBy xs k = some b := by
  cases hf : forcedBy xs k with
  | none => exact (forcedBy_eq_none_iff.1 hf x hx).symm.trans hb
  | some c =>
    obtain ⟨y, hy, hc⟩ := exists_forced_of_forcedBy hf
    rw [(compat y hy).forced_eq hc hb]

/-- Lists of the same pairwise compatible accesses force the same bits. -/
theorem forcedBy_congr {xs ys : List Access} (same : ∀ x, x ∈ xs ↔ x ∈ ys)
    (compat : ∀ x ∈ xs, ∀ y ∈ xs, x.Compatible y) : forcedBy xs = forcedBy ys := by
  funext k
  refine Option.ext fun b => ⟨fun h => ?_, fun h => ?_⟩
  · obtain ⟨x, hx, hb⟩ := exists_forced_of_forcedBy h
    exact forcedBy_of_compatible ((same x).1 hx) (fun y hy => compat y ((same y).2 hy) x hx) hb
  · obtain ⟨x, hx, hb⟩ := exists_forced_of_forcedBy h
    exact forcedBy_of_compatible ((same x).2 hx) (fun y hy => compat y hy x ((same x).2 hx)) hb

/-! ### Bytes and fields read from bits -/

theorem read_of_bits {m : Memory} {a : Nat} {v : Byte} (h : ∀ i, i < 8 → m.bit? (8 * a + i) = some (v.getLsbD i)) :
    m.read? a = some v := by
  have holds := bit_isSome m (8 * a)
  rw [show m.bit? (8 * a) = _ from h 0 (by decide), Nat.mul_div_cancel_left a (by decide)] at holds
  obtain ⟨b, hb⟩ := Option.isSome_iff_exists.1 holds.symm
  have same : b = v := BitVec.eq_of_getLsbD_eq fun i hi => Option.some.inj ((bit_of_read hb hi).symm.trans (h i hi))
  rw [hb, same]

/-- A field of a word is the run of ten bits from `10 * s` on (R162). -/
theorem get10_of_bits {m : Memory} {a : Nat} {s : Fin 3} {v : BitVec 10} (holds : (m.readWord? a).isSome = true)
    (h : ∀ i, i < 10 → m.bit? (8 * a + 10 * s.val + i) = some (v.getLsbD i)) : m.get10? a s = some v := by
  obtain ⟨word, hw⟩ := Option.isSome_iff_exists.1 holds
  have same : slotOf word s = v := BitVec.eq_of_getLsbD_eq fun i hi => by
    have bit := (bit_of_readWord hw (by omega)).symm.trans (h i hi)
    simp only [slotOf, p10SlotBits, BitVec.getLsbD_extractLsb', hi, decide_true, Bool.true_and]
    rw [← Option.some.inj bit]
    congr 1; omega
  rw [Memory.get10?, hw, Option.map_some, same]

/-- A run of bits of a word that hold what they held reads as it did. -/
theorem map_extract_congr {m m' : Memory} {a lo n : Nat} (hn : lo + n ≤ 32)
    (holds : (m'.readWord? a).isSome = (m.readWord? a).isSome)
    (bits : ∀ i, i < n → m'.bit? (8 * a + lo + i) = m.bit? (8 * a + lo + i)) :
    (m'.readWord? a).map (fun v => v.extractLsb' lo n) = (m.readWord? a).map fun v => v.extractLsb' lo n := by
  cases hw : m.readWord? a with
  | none =>
    rw [hw, Option.isSome_none, Option.isSome_eq_false_iff, Option.isNone_iff_eq_none] at holds
    rw [holds]
  | some v =>
    rw [hw] at holds
    obtain ⟨v', hw'⟩ := Option.isSome_iff_exists.1 holds
    have same : v'.extractLsb' lo n = v.extractLsb' lo n := BitVec.eq_of_getLsbD_eq fun i hi => by
      have bit := bits i hi
      rw [bit_of_readWord hw' (by omega), bit_of_readWord hw (by omega), Option.some_inj,
        show 8 * a + lo + i - 8 * a = lo + i by omega] at bit
      rw [BitVec.getLsbD_extractLsb', BitVec.getLsbD_extractLsb', bit]
    rw [hw', Option.map_some, Option.map_some, same]

/-! ### What a run leaves -/

/-- Memory reads back what the access wrote. -/
def Access.Holds (m : Memory) : Access → Prop
  | .store a v => m.read? a = some v
  | .setField a s v => m.get10? a s = some v

theorem holds_of_bits {m : Memory} {x : Access} (readable : x.loads = true → (m.readWord? x.addr).isSome = true)
    (h : ∀ k b, x.forced k = some b → m.bit? k = some b) : x.Holds m := by
  cases x with
  | store a v =>
    refine read_of_bits fun i hi => h _ _ ?_
    rw [Access.forced, if_pos (by omega), Nat.add_sub_cancel_left]
  | setField a s v =>
    refine get10_of_bits (readable rfl) fun i hi => h _ _ ?_
    rw [Access.forced, if_pos (by omega), Nat.add_sub_cancel_left]

/-- An access compatible with all the others is read back after a run that ends done. -/
theorem runAccesses_holds {w : Window} {xs : List Access} {m : Memory} {kind : Bool} (hxs : ∀ x ∈ xs, x.loads = kind)
    (done : (runAccesses w xs m).ending = .done) {x : Access} (hx : x ∈ xs) (compat : ∀ y ∈ xs, y.Compatible x) :
    x.Holds (runAccesses w xs m).mem := by
  refine holds_of_bits (fun loads => ?_) fun k b hb => ?_
  · have allLoad : ∀ y ∈ xs, y.loads = true := fun y hy => (hxs y hy).trans ((hxs x hx).symm.trans loads)
    rw [readWord_isSome_congr (runAccesses_isSome w allLoad m)]
    exact ((runAccesses_done_iff hxs).1 done x hx).2 loads
  · rw [runAccesses_bit done, forcedBy_of_compatible hx compat hb, Option.some_or]

/-- Two orders of the same pairwise compatible accesses leave the same transaction when one of them ends done. -/
theorem runAccesses_perm {w : Window} {xs ys : List Access} {m : Memory} {kind : Bool} (hm : m.wf = true)
    (hxs : ∀ x ∈ xs, x.loads = kind) (perm : ys.Perm xs) (compat : ∀ x ∈ xs, ∀ y ∈ xs, x.Compatible y)
    (done : (runAccesses w xs m).ending = .done) : runAccesses w ys m = runAccesses w xs m := by
  have hys : ∀ y ∈ ys, y.loads = kind := fun y hy => hxs y (perm.mem_iff.1 hy)
  have done' : (runAccesses w ys m).ending = .done :=
    (runAccesses_done_iff hys).2 fun y hy => (runAccesses_done_iff hxs).1 done y (perm.mem_iff.1 hy)
  have sameMem : (runAccesses w ys m).mem = (runAccesses w xs m).mem :=
    memory_ext_bits (runAccesses_wf w ys hm) (runAccesses_wf w xs hm) fun k => by
      rw [runAccesses_bit done', runAccesses_bit done, forcedBy_congr (fun x => perm.mem_iff.symm) compat]
  exact congrArg₂ Transaction.mk sameMem (done'.trans done.symm)

end Sys2Proof.Machine

/-! PROOFS. What the three writers share: the visits of a cell (R101, R104), a `DRAW` with nothing to draw (R102), and what a
`DRAW` leaves, told by the accesses of its visits alone. -/
namespace Sys2Proof.Machine

/-! ### The visits -/

theorem pairwise_intRange (lo hi : Int) : (intRange lo hi).Pairwise (· < ·) := List.pairwise_lt_range'

/-- The reference order is rows from the top, in each row columns from the left (R104, D11). -/
theorem visits_pairwise (a : DrawArgs) : a.visits.Pairwise fun p q => p.y < q.y ∨ (p.y = q.y ∧ p.x < q.x) := by
  refine List.pairwise_flatMap.2 ⟨fun y _ => ?_, ?_⟩
  · exact List.pairwise_map.2 ((pairwise_intRange _ _).imp fun hx => .inr ⟨rfl, hx⟩)
  · refine (pairwise_intRange _ _).imp fun hy p hp q hq => .inl ?_
    obtain ⟨_, -, rfl⟩ := List.mem_map.1 hp
    obtain ⟨_, -, rfl⟩ := List.mem_map.1 hq
    exact hy

/-- There are as many visits as the clipped rectangle has pixels (R110). -/
theorem length_visits (a : DrawArgs) : a.visits.length = a.cols.length * a.rows.length := by
  simp [DrawArgs.visits, List.length_flatMap, Nat.mul_comm]

/-- Settles O16: membership is R101, and both the order and the count come from the two ranges of the cell. -/
theorem visitsAreTheInBoundsPixels : Obligations.VisitsAreTheInBoundsPixels := by
  refine fun a => ⟨mem_visits a, visits_pairwise a, ?_⟩
  rw [length_visits, DrawArgs.cols, DrawArgs.rows, length_intRange, length_intRange]
  congr 1 <;> omega

/-! ### Nothing to draw -/

/-- A cell or frame without pixels, or a cell wholly off the frame, has no visits (R102). -/
theorem visits_eq_nil {a : DrawArgs} (h : a.CW = 0 ∨ a.CH = 0 ∨ a.W = 0 ∨ a.H = 0 ∨
    a.X0 + a.CW ≤ 0 ∨ (a.W : Int) ≤ a.X0 ∨ a.Y0 + a.CH ≤ 0 ∨ (a.H : Int) ≤ a.Y0) : a.visits = [] := by
  refine List.eq_nil_iff_forall_not_mem.2 fun p hp => ?_
  have inBounds := (mem_visits a p).1 hp
  omega

/-- With no glyph or nothing to visit, `DrawCell` makes no access (R102). -/
theorem drawCell_nothing {wp : WritePixel} {order : List Pixel} {a : DrawArgs} {s : State} (ho : VisitOrder a order)
    (h : glyph? a.glyph = none ∨ a.visits = []) : drawCell wp order a s = { mem := s.mem, ending := .done } := by
  obtain ⟨-, hd⟩ | ⟨g, hg, hd⟩ := drawCell_cases wp order a s
  · exact hd
  · obtain none | empty := h
    · cases hg.symm.trans none
    · rw [VisitOrder, empty] at ho
      rw [hd, ho.eq_nil, cellAccesses, List.flatMap_nil, runAccesses_nil]

/-- Each `DRAW` concludes the `DrawCell` of its writer (R123, R144, R165). -/
theorem exec_drawI8 (a : DrawArgs) (s : State) :
    exec (.drawI8 a) s = conclude s (drawCell writePixelI8 (i8Order a) a s) := exec_eq _ s

theorem exec_drawP8 (a : DrawArgs) (s : State) :
    exec (.drawP8 a) s = conclude s (drawCell writePixelP8 a.visits a s) := exec_eq _ s

theorem exec_drawP10 (a : DrawArgs) (s : State) :
    exec (.drawP10 a) s = conclude s (drawCell writePixelP10 a.visits a s) := exec_eq _ s

/-- Settles O17: there is no glyph or no visit, so each `DRAW` makes no access. -/
theorem nothingToDrawIsDone : Obligations.NothingToDrawIsDone := by
  intro a i s hi h
  have nothing : glyph? a.glyph = none ∨ a.visits = [] := h.imp (glyph_eq_none _).2 visits_eq_nil
  obtain rfl | rfl | rfl := hi
  · rw [exec_drawI8, drawCell_nothing (i8Order_perm a) nothing, conclude_done]
  · rw [exec_drawP8, drawCell_nothing (List.Perm.refl _) nothing, conclude_done]
  · rw [exec_drawP10, drawCell_nothing (List.Perm.refl _) nothing, conclude_done]

/-! ### What a `DRAW` leaves -/

/-- Every access of the writer reads the word it writes, or none does. -/
def WriterLoads (wp : WritePixel) (kind : Bool) : Prop := ∀ a sx sy k, ∀ x ∈ wp a sx sy k, x.loads = kind

/-- `P` holds of the accesses of every visited pixel. -/
def ForVisits (wp : WritePixel) (rom : GlyphTable) (g : Fin 12) (a : DrawArgs) (P : Access → Prop) : Prop :=
  ∀ p ∈ a.visits, ∀ x ∈ wp a (a.sx p) (a.sy p) (cellInk rom g a p), P x

section
variable {wp : WritePixel} {rom : GlyphTable} {g : Fin 12} {a : DrawArgs} {order : List Pixel} {kind : Bool}

theorem forVisits_iff (ho : VisitOrder a order) {P : Access → Prop} :
    ForVisits wp rom g a P ↔ ∀ x ∈ cellAccesses wp rom g a order, P x := by
  simp only [ForVisits, cellAccesses, List.mem_flatMap, ← ho.mem_iff]
  grind

theorem mem_cellAccesses (ho : VisitOrder a order) {p : Pixel} (hp : p ∈ a.visits) {x : Access}
    (hx : x ∈ wp a (a.sx p) (a.sy p) (cellInk rom g a p)) : x ∈ cellAccesses wp rom g a order :=
  List.mem_flatMap.2 ⟨p, ho.mem_iff.2 hp, hx⟩

theorem cellAccesses_loads (loads : WriterLoads wp kind) : ∀ x ∈ cellAccesses wp rom g a order, x.loads = kind := by
  intro x hx
  obtain ⟨p, -, hxp⟩ := List.mem_flatMap.1 hx
  exact loads _ _ _ _ x hxp

theorem drawCell_eq_run {s : State} (hg : glyph? a.glyph = some g) :
    drawCell wp order a s = runAccesses (a.windowIn s) (cellAccesses wp s.rom g a order) s.mem := by
  simp only [drawCell, hg]

theorem conclude_of_done {s : State} {T : Transaction} (h : T.ending = .done) :
    conclude s T = .next { s with mem := T.mem, reply := some .done } := by simp only [conclude, h]

variable {s t : State} (hg : glyph? a.glyph = some g) (ho : VisitOrder a order)
include hg ho

/-- A `DRAW` ends done exactly when every access of its visits is possible at the start (R41, R48, R225). -/
theorem drawCell_done_iff (loads : WriterLoads wp kind) :
    (drawCell wp order a s).ending = .done ↔ ForVisits wp s.rom g a fun x => x.Possible (a.windowIn s) s.mem := by
  rw [drawCell_eq_run hg, runAccesses_done_iff (cellAccesses_loads loads), forVisits_iff ho]

/-- A `DRAW` all of whose accesses are possible answers `done` and changes memory alone (R66). -/
theorem draw_completes (loads : WriterLoads wp kind)
    (possible : ForVisits wp s.rom g a fun x => x.Possible (a.windowIn s) s.mem) :
    ∃ t, conclude s (drawCell wp order a s) = .next t ∧ t.reply = some .done ∧ sameContext s t :=
  ⟨_, conclude_of_done ((drawCell_done_iff hg ho loads).2 possible), rfl, rfl, rfl, rfl, rfl⟩

/-- An access of a visit that is compatible with those of all visits can be read back. -/
theorem draw_holds (loads : WriterLoads wp kind) (h : conclude s (drawCell wp order a s) = .next t)
    {p : Pixel} (hp : p ∈ a.visits) {x : Access} (hx : x ∈ wp a (a.sx p) (a.sy p) (cellInk s.rom g a p))
    (compat : ForVisits wp s.rom g a fun y => y.Compatible x) : x.Holds t.mem := by
  obtain ⟨done, hmem⟩ := drawCell_next hg h
  rw [hmem]
  exact runAccesses_holds (cellAccesses_loads loads) done (mem_cellAccesses ho hp hx) ((forVisits_iff ho).1 compat)

/-- A byte no visit touches is as before. -/
theorem draw_frame (h : conclude s (drawCell wp order a s) = .next t) {addr : Nat}
    (apart : ForVisits wp s.rom g a fun x => addr < x.addr ∨ x.addr + x.size ≤ addr) :
    t.mem.read? addr = s.mem.read? addr := by
  obtain ⟨-, hmem⟩ := drawCell_next hg h
  rw [hmem]
  exact runAccesses_frame _ _ ((forVisits_iff ho).1 apart)

/-- A run of bits of a word that no visit of a reading writer forces is as before, whether or not the word holds a value. -/
theorem draw_extract_frame (loads : WriterLoads wp true) (h : conclude s (drawCell wp order a s) = .next t) {b lo n : Nat}
    (hn : lo + n ≤ 32)
    (apart : ForVisits wp s.rom g a fun x => x.firstBit + x.width ≤ 8 * b + lo ∨ 8 * b + lo + n ≤ x.firstBit) :
    (t.mem.readWord? b).map (fun v => v.extractLsb' lo n) = (s.mem.readWord? b).map fun v => v.extractLsb' lo n := by
  obtain ⟨done, hmem⟩ := drawCell_next hg h
  rw [hmem]
  refine map_extract_congr hn (readWord_isSome_congr (runAccesses_isSome _ (cellAccesses_loads loads) _) b) fun i hi => ?_
  have untouched : forcedBy (cellAccesses wp s.rom g a order) (8 * b + lo + i) = none :=
    forcedBy_eq_none_iff.2 fun x hx => (forced_eq_none_iff x _).2 (by
      have := (forVisits_iff ho).1 apart x hx
      omega)
  rw [runAccesses_bit done, untouched, Option.none_or]

end

/-! ### The visit order -/

section
variable {wp : WritePixel} {a : DrawArgs} {s : State} {o o' : List Pixel} {kind : Bool}

theorem drawCell_done_order (loads : WriterLoads wp kind) (ho : VisitOrder a o) (ho' : VisitOrder a o')
    (done : (drawCell wp o a s).ending = .done) : (drawCell wp o' a s).ending = .done := by
  cases hg : glyph? a.glyph with
  | none => simp only [drawCell, hg]
  | some g => exact (drawCell_done_iff hg ho' loads).2 ((drawCell_done_iff hg ho loads).1 done)

/-- Whether a `DRAW` faults does not depend on the visit order (R225). -/
theorem drawCell_fault_order (loads : WriterLoads wp kind) (ho : VisitOrder a o) (ho' : VisitOrder a o')
    (fault : ∃ f, (drawCell wp o a s).ending = .fault f) : ∃ f, (drawCell wp o' a s).ending = .fault f := by
  obtain done | faults := drawCell_ending wp o' a s
  · obtain ⟨f, hf⟩ := fault
    cases hf.symm.trans (drawCell_done_order loads ho' ho done)
  · exact faults

/-- When the accesses of the visits are pairwise compatible, a `DRAW` that ends done leaves the same in every order (R109). -/
theorem drawCell_mem_order (loads : WriterLoads wp kind) (hm : s.mem.wf = true) (ho : VisitOrder a o) (ho' : VisitOrder a o')
    (compat : ∀ g, ForVisits wp s.rom g a fun x => ForVisits wp s.rom g a fun y => y.Compatible x)
    (done : (drawCell wp o a s).ending = .done) : drawCell wp o' a s = drawCell wp o a s := by
  cases hg : glyph? a.glyph with
  | none => simp only [drawCell, hg]
  | some g =>
    rw [drawCell_eq_run hg] at done
    rw [drawCell_eq_run hg, drawCell_eq_run hg]
    have pairwise : ∀ y ∈ cellAccesses wp s.rom g a o, ∀ x ∈ cellAccesses wp s.rom g a o, y.Compatible x :=
      fun y hy x hx => (forVisits_iff ho).1 ((forVisits_iff ho).1 (compat g) x hx) y hy
    exact runAccesses_perm hm (cellAccesses_loads loads) ((ho'.trans ho.symm).flatMap_right _) pairwise done

end

end Sys2Proof.Machine

/-! PROOFS. The two 8-bit formats. Each visit stores one luma byte and two chroma bytes, all chroma bytes get one value, and no
chroma byte is a luma byte. So all that can disturb a store is another visit's luma at the same offset, which only an
Interleaved8 frame of odd width has (R109, R125). -/
namespace Sys2Proof.Machine

/-! ### A byte store -/

theorem possible_store (w : Window) (m : Memory) (addr : Nat) (v : Byte) :
    (Access.store addr v).Possible w m ↔ w.covers addr 1 = true := by
  simp [Access.Possible, Access.loads, Access.addr, Access.size]

theorem outside_store (addr a : Nat) (v : Byte) :
    (addr < (Access.store a v).addr ∨ (Access.store a v).addr + (Access.store a v).size ≤ addr) ↔ addr ≠ a := by
  simp only [Access.addr, Access.size]
  omega

/-! ### An 8-bit writer: one luma byte, neutral chroma elsewhere -/

/-- Every access of the writer stores the luma level at `luma`, or 128 at an offset that `chroma` tells. -/
def EightBitWriter (wp : WritePixel) (a : DrawArgs) (luma : Nat → Nat → Nat) (chroma : Nat → Prop) : Prop :=
  ∀ sx sy k, ∀ x ∈ wp a sx sy k,
    x = .store (a.B + luma sx sy) (luma8 k) ∨ ∃ off, chroma off ∧ x = .store (a.B + off) c8Neutral

section
variable {wp : WritePixel} {a : DrawArgs} {luma : Nat → Nat → Nat} {chroma : Nat → Prop} {rom : GlyphTable} {g : Fin 12}
variable (writer : EightBitWriter wp a luma chroma) (noLuma : ∀ p ∈ a.visits, ¬ chroma (luma (a.sx p) (a.sy p)))
include writer noLuma

/-- A chroma store is compatible with every store of the command. -/
theorem chroma_compatible {off : Nat} (ho : chroma off) :
    ForVisits wp rom g a fun y => y.Compatible (.store (a.B + off) c8Neutral) := by
  intro q hq y hy
  obtain rfl | ⟨off', -, rfl⟩ := writer _ _ _ y hy
  · refine compatible_store fun same => absurd ho ?_
    rw [← Nat.add_left_cancel same]
    exact noLuma q hq
  · exact compatible_store fun _ => rfl

/-- A luma store that no other visited pixel shares is compatible with every store of the command. -/
theorem luma_compatible {p : Pixel} (hp : p ∈ a.visits)
    (own : ∀ q ∈ a.visits, luma (a.sx q) (a.sy q) = luma (a.sx p) (a.sy p) → q = p) :
    ForVisits wp rom g a fun y => y.Compatible (.store (a.B + luma (a.sx p) (a.sy p)) (luma8 (cellInk rom g a p))) := by
  intro q hq y hy
  obtain rfl | ⟨off, hoff, rfl⟩ := writer _ _ _ y hy
  · exact compatible_store fun same => by rw [own q hq (Nat.add_left_cancel same)]
  · refine compatible_store fun same => absurd hoff ?_
    rw [Nat.add_left_cancel same]
    exact noLuma p hp

/-- Where no two visited pixels share a luma byte, the stores of the command are pairwise compatible. -/
theorem eightBit_compatible
    (own : ∀ p ∈ a.visits, ∀ q ∈ a.visits, luma (a.sx q) (a.sy q) = luma (a.sx p) (a.sy p) → q = p) :
    ForVisits wp rom g a fun x => ForVisits wp rom g a fun y => y.Compatible x := by
  intro p hp x hx
  obtain rfl | ⟨off, hoff, rfl⟩ := writer _ _ _ x hx
  · exact luma_compatible writer noLuma hp (own p hp)
  · exact chroma_compatible writer noLuma hoff

omit noLuma in
/-- A byte that is no chroma byte and the luma byte of no visited pixel is as before. -/
theorem luma_unvisited {order : List Pixel} {s t : State} (hg : glyph? a.glyph = some g) (ho : VisitOrder a order)
    (h : conclude s (drawCell wp order a s) = .next t) {off : Nat} (hoff : ¬ chroma off)
    (unvisited : ∀ q ∈ a.visits, luma (a.sx q) (a.sy q) ≠ off) :
    t.mem.read? (a.B + off) = s.mem.read? (a.B + off) := by
  refine draw_frame hg ho h fun q hq x hx => ?_
  have elsewhere : ∃ off' v, off' ≠ off ∧ x = .store (a.B + off') v := by
    obtain rfl | ⟨off', hoff', rfl⟩ := writer _ _ _ x hx
    · exact ⟨_, _, unvisited q hq, rfl⟩
    · exact ⟨_, _, fun same => hoff (same ▸ hoff'), rfl⟩
  obtain ⟨off', v, ne, rfl⟩ := elsewhere
  exact (outside_store _ _ v).2 (by omega)

end

/-- The cell of `a` shows no pixel of the column left of its left edge, nor of the column right of its right edge. -/
theorem sx_ne_of_outside {a : DrawArgs} {p q : Pixel} {c : Nat} (hp : p ∈ a.visits) (hq : q ∈ a.visits)
    (outside : (p.x = 0 ∧ c + 1 = a.sx p) ∨ (p.x + 1 = a.CW ∧ c = a.sx p + 1)) : a.sx q ≠ c := by
  obtain ⟨hpx, -⟩ := sx_of_visit hp
  obtain ⟨hqx, -⟩ := sx_of_visit hq
  obtain ⟨hqCW, -⟩ := (mem_visits a q).1 hq
  omega

/-! ### Planar8 -/

theorem writePixelP8_loads : WriterLoads writePixelP8 false := by
  intro a sx sy k x hx
  simp only [writePixelP8, List.mem_cons, List.not_mem_nil, or_false] at hx
  obtain rfl | rfl | rfl := hx <;> rfl

/-- The chroma planes lie behind the luma plane (R142). -/
theorem writePixelP8_writer (a : DrawArgs) : EightBitWriter writePixelP8 a (p8LumaIdx a) (p8C1 a ≤ ·) := by
  intro sx sy k x hx
  simp only [writePixelP8, List.mem_cons, List.not_mem_nil, or_false] at hx
  obtain rfl | rfl | rfl := hx
  · exact .inl rfl
  · exact .inr ⟨p8C1 a + p8ChromaIdx a sx sy, Nat.le_add_right _ _, by rw [Nat.add_assoc]⟩
  · exact .inr ⟨p8C2 a + p8ChromaIdx a sx sy, (p8C1_le_p8C2 a).trans (Nat.le_add_right _ _), by rw [Nat.add_assoc]⟩

theorem p8LumaIdx_not_chroma {a : DrawArgs} {sx sy : Nat} (hx : sx < a.W) (hy : sy < a.H) :
    ¬ p8C1 a ≤ p8LumaIdx a sx sy := Nat.not_le.2 (p8LumaIdx_lt hx hy)

theorem visited_p8LumaIdx_not_chroma {a : DrawArgs} : ∀ p ∈ a.visits, ¬ p8C1 a ≤ p8LumaIdx a (a.sx p) (a.sy p) :=
  fun _ hp => p8LumaIdx_not_chroma (sx_of_visit hp).2 (sy_of_visit hp).2

/-- The stores of a `DRAW.P8` are pairwise compatible: R109 case (a). -/
theorem drawP8_compatible (rom : GlyphTable) (g : Fin 12) (a : DrawArgs) :
    ForVisits writePixelP8 rom g a fun x => ForVisits writePixelP8 rom g a fun y => y.Compatible x :=
  eightBit_compatible (writePixelP8_writer a) visited_p8LumaIdx_not_chroma fun _ hp _ hq => visit_eq_of_p8LumaIdx hp hq

/-- What the visit of `p` stores is there after the `DRAW.P8`. -/
theorem execDrawP8_holds {a : DrawArgs} {s t : State} {g : Fin 12} (hg : glyph? a.glyph = some g)
    (h : exec (.drawP8 a) s = .next t) {p : Pixel} (hp : p ∈ a.visits) {x : Access}
    (hx : x ∈ writePixelP8 a (a.sx p) (a.sy p) (cellInk s.rom g a p)) : x.Holds t.mem :=
  draw_holds hg (List.Perm.refl _) writePixelP8_loads h hp hx (drawP8_compatible s.rom g a p hp x hx)

theorem execDrawP8_chroma {a : DrawArgs} {s t : State} {g : Fin 12} (hg : glyph? a.glyph = some g)
    (h : exec (.drawP8 a) s = .next t) {p : Pixel} (hp : p ∈ a.visits) :
    t.mem.read? (a.B + p8C1 a + p8ChromaIdx a (a.sx p) (a.sy p)) = some 128 ∧
    t.mem.read? (a.B + p8C2 a + p8ChromaIdx a (a.sx p) (a.sy p)) = some 128 :=
  ⟨execDrawP8_holds (x := .store _ c8Neutral) hg h hp (by simp [writePixelP8]),
    execDrawP8_holds (x := .store _ c8Neutral) hg h hp (by simp [writePixelP8])⟩

/-- Settles O22: the stores are compatible, so each visited pixel reads back, and no other byte is stored to. -/
theorem drawP8WritesItsCell : Obligations.DrawP8WritesItsCell := by
  intro a s g hg covered
  have possible : ForVisits writePixelP8 s.rom g a fun x => x.Possible (a.windowIn s) s.mem :=
    fun p hp => by simpa [writePixelP8, possible_store] using covered p hp
  obtain ⟨t, h, reply, context⟩ := draw_completes hg (List.Perm.refl _) writePixelP8_loads possible
  rw [exec_drawP8]
  refine ⟨t, h, reply, context, fun p hp => ⟨execDrawP8_luma hg h hp, execDrawP8_chroma hg h hp⟩, fun addr untouched => ?_⟩
  exact draw_frame hg (List.Perm.refl _) h fun p hp => by simpa [writePixelP8, outside_store] using untouched p hp

/-- Two columns of one pair have one chroma byte in each plane (R141). -/
theorem p8ChromaIdx_pair {a : DrawArgs} {sx sx' sy : Nat} (h : sx / 2 = sx' / 2) :
    p8ChromaIdx a sx sy = p8ChromaIdx a sx' sy := by rw [p8ChromaIdx, p8ChromaIdx, h]

/-- The column beside a planar cell keeps its luma. -/
theorem execDrawP8_luma_beside {a : DrawArgs} {s t : State} {g : Fin 12} (hg : glyph? a.glyph = some g)
    (h : exec (.drawP8 a) s = .next t) {p : Pixel} (hp : p ∈ a.visits) {c : Nat} (hc : c < a.W)
    (outside : (p.x = 0 ∧ c + 1 = a.sx p) ∨ (p.x + 1 = a.CW ∧ c = a.sx p + 1)) :
    t.mem.read? (a.B + p8LumaIdx a c (a.sy p)) = s.mem.read? (a.B + p8LumaIdx a c (a.sy p)) := by
  refine luma_unvisited (writePixelP8_writer a) hg (List.Perm.refl _) h (p8LumaIdx_not_chroma hc (sy_of_visit hp).2)
    fun q hq same => ?_
  exact sx_ne_of_outside hp hq outside (p8LumaIdx_inj (sx_of_visit hq).2 hc same).1

/-- Settles O24: the neighbour shares its pair's chroma bytes, and its own luma byte is no visited pixel's. -/
theorem planarEdgeNeighbourLosesChromaOnly : Obligations.PlanarEdgeNeighbourLosesChromaOnly := by
  intro a s t g hg h p hp
  obtain ⟨chroma1, chroma2⟩ := execDrawP8_chroma hg h hp
  obtain ⟨-, onFrame⟩ := sx_of_visit hp
  refine ⟨fun left odd => ?_, fun right even inside => ?_⟩
  · rw [p8ChromaIdx_pair (show (a.sx p - 1) / 2 = a.sx p / 2 by omega)]
    exact ⟨chroma1, chroma2, execDrawP8_luma_beside hg h hp (by omega) (.inl ⟨left, by omega⟩)⟩
  · rw [p8ChromaIdx_pair (show (a.sx p + 1) / 2 = a.sx p / 2 by omega)]
    exact ⟨chroma1, chroma2, execDrawP8_luma_beside hg h hp inside (.inr ⟨right, rfl⟩)⟩

/-- Settles O35: the stores of a `DRAW.P8` are pairwise compatible. -/
theorem planarVisitOrderDoesNotMatter : Obligations.PlanarVisitOrderDoesNotMatter := fun a s _ _ hm ho ho' =>
  ⟨drawCell_mem_order writePixelP8_loads hm ho ho' fun g => drawP8_compatible s.rom g a,
    drawCell_fault_order writePixelP8_loads ho ho'⟩

/-! ### Interleaved8 -/

theorem writePixelI8_loads : WriterLoads writePixelI8 false := by
  intro a sx sy k x hx
  simp only [writePixelI8, List.mem_cons, List.not_mem_nil, or_false] at hx
  obtain rfl | rfl | rfl := hx <;> rfl

/-- The chroma bytes lie at even offsets (R121). -/
theorem writePixelI8_writer (a : DrawArgs) : EightBitWriter writePixelI8 a (i8LumaOff a) (· % 2 = 0) := by
  intro sx sy k x hx
  have even := i8Group_even a sx sy
  simp only [writePixelI8, List.mem_cons, List.not_mem_nil, or_false] at hx
  obtain rfl | rfl | rfl := hx
  · exact .inl rfl
  · exact .inr ⟨i8Chroma1 a sx sy, even, rfl⟩
  · exact .inr ⟨i8Chroma2 a sx sy, by unfold i8Chroma2; omega, rfl⟩

/-- The luma bytes lie at odd offsets (R121). -/
theorem i8LumaOff_not_chroma (a : DrawArgs) (sx sy : Nat) : ¬ i8LumaOff a sx sy % 2 = 0 := by
  have even := i8Group_even a sx sy
  unfold i8LumaOff
  split <;> omega

theorem execDrawI8_chroma {a : DrawArgs} {s t : State} {g : Fin 12} (hg : glyph? a.glyph = some g)
    (h : exec (.drawI8 a) s = .next t) {p : Pixel} (hp : p ∈ a.visits) :
    t.mem.read? (a.B + i8Chroma1 a (a.sx p) (a.sy p)) = some 128 ∧
    t.mem.read? (a.B + i8Chroma2 a (a.sx p) (a.sy p)) = some 128 := by
  have holds {off : Nat} (even : off % 2 = 0)
      (hx : .store (a.B + off) c8Neutral ∈ writePixelI8 a (a.sx p) (a.sy p) (cellInk s.rom g a p)) :
      Access.Holds t.mem (.store (a.B + off) c8Neutral) :=
    draw_holds hg (i8Order_perm a) writePixelI8_loads h hp hx
      (chroma_compatible (writePixelI8_writer a) (fun _ _ => i8LumaOff_not_chroma a _ _) even)
  have even := i8Group_even a (a.sx p) (a.sy p)
  exact ⟨holds even (by simp [writePixelI8]), holds (by unfold i8Chroma2; omega) (by simp [writePixelI8])⟩

/-- In any visit order, a luma byte ends with the level of the last visit that has it (R109, R125 item 3). -/
theorem drawI8_last_luma {a : DrawArgs} {s t : State} {g : Fin 12} {pre post : List Pixel} {q : Pixel}
    (hg : glyph? a.glyph = some g) (h : conclude s (drawCell writePixelI8 (pre ++ q :: post) a s) = .next t)
    (last : ∀ r ∈ post, i8LumaOff a (a.sx r) (a.sy r) ≠ i8LumaOff a (a.sx q) (a.sy q)) :
    t.mem.read? (a.B + i8LumaOff a (a.sx q) (a.sy q)) = some (luma8 (cellInk s.rom g a q)) := by
  obtain ⟨done, hmem⟩ := drawCell_next hg h
  have parts : cellAccesses writePixelI8 s.rom g a (pre ++ q :: post) =
      cellAccesses writePixelI8 s.rom g a pre ++ cellAccesses writePixelI8 s.rom g a (q :: post) := List.flatMap_append
  rw [parts] at done hmem
  have joined := runAccesses_append (ys := cellAccesses writePixelI8 s.rom g a (q :: post)) (runAccesses_done_left done)
  rw [joined] at done hmem
  rw [hmem]
  refine runAccesses_read_store done (fun x hx => ?_) (.inl ?_)
  · obtain ⟨r, hr, hxr⟩ := List.mem_flatMap.1 hx
    obtain rfl | ⟨off, even, rfl⟩ := writePixelI8_writer a _ _ _ x hxr
    · obtain rfl | later := List.mem_cons.1 hr
      · exact .inl rfl
      · have elsewhere := last r later
        exact .inr ((outside_store _ _ _).2 (by omega))
    · have odd := i8LumaOff_not_chroma a (a.sx q) (a.sy q)
      exact .inr ((outside_store _ _ _).2 (by omega))
  · exact List.mem_flatMap.2 ⟨q, List.mem_cons_self, by simp [writePixelI8]⟩

/-- Settles O38: the visits before `q` do not matter, and those after it leave its luma byte alone. -/
theorem laterVisitDecidesASharedLumaByte : Obligations.LaterVisitDecidesASharedLumaByte :=
  fun _ _ _ _ _ _ hg _ done last => drawI8_last_luma hg (conclude_of_done done) last

/-- Of the members of a list that have a property, one is the last. -/
theorem exists_last {α : Type} {P : α → Prop} {l : List α} (h : ∃ x ∈ l, P x) :
    ∃ pre x post, l = pre ++ x :: post ∧ P x ∧ ∀ y ∈ post, ¬ P y := by
  induction l with
  | nil => simp at h
  | cons x xs ih =>
    by_cases later : ∃ y ∈ xs, P y
    · obtain ⟨pre, y, post, rfl, hy⟩ := ih later
      exact ⟨x :: pre, y, post, rfl, hy⟩
    · obtain ⟨y, hy, hPy⟩ := h
      obtain rfl | hy := List.mem_cons.1 hy
      · exact ⟨[], y, xs, rfl, hPy, fun z hz hPz => later ⟨z, hz, hPz⟩⟩
      · exact absurd ⟨y, hy, hPy⟩ later

/-- The luma byte of a visited pixel holds the level of a visited pixel that has this byte. -/
theorem execDrawI8_luma_shared {a : DrawArgs} {s t : State} {g : Fin 12} (hg : glyph? a.glyph = some g)
    (h : exec (.drawI8 a) s = .next t) {p : Pixel} (hp : p ∈ a.visits) :
    ∃ q ∈ a.visits, i8LumaOff a (a.sx q) (a.sy q) = i8LumaOff a (a.sx p) (a.sy p) ∧
      t.mem.read? (a.B + i8LumaOff a (a.sx p) (a.sy p)) = some (luma8 (cellInk s.rom g a q)) := by
  obtain ⟨pre, q, post, order, hq, last⟩ :=
    exists_last (P := fun q => i8LumaOff a (a.sx q) (a.sy q) = i8LumaOff a (a.sx p) (a.sy p))
      ⟨p, (i8Order_perm a).mem_iff.2 hp, rfl⟩
  have visited : q ∈ a.visits := (i8Order_perm a).mem_iff.1 (by rw [order]; simp)
  rw [exec_drawI8, order] at h
  refine ⟨q, visited, hq, ?_⟩
  rw [← hq] at last ⊢
  exact drawI8_last_luma hg h last

/-- For even `W` a visited pixel is told by its luma byte (R126). -/
theorem visit_eq_of_i8LumaOff {a : DrawArgs} (hw : a.W % 2 = 0) {p q : Pixel} (hp : p ∈ a.visits) (hq : q ∈ a.visits)
    (h : i8LumaOff a (a.sx q) (a.sy q) = i8LumaOff a (a.sx p) (a.sy p)) : q = p := by
  rw [i8LumaOff_of_even hw, i8LumaOff_of_even hw] at h
  exact visit_eq_of_p8LumaIdx hp hq (by omega)

/-- Settles O18: chroma stores are compatible with all, a luma byte is decided by its last visit, no other byte is stored to. -/
theorem drawI8WritesItsCell : Obligations.DrawI8WritesItsCell := by
  intro a s g hg covered
  have possible : ForVisits writePixelI8 s.rom g a fun x => x.Possible (a.windowIn s) s.mem :=
    fun p hp => by simpa [writePixelI8, possible_store] using covered p hp
  obtain ⟨t, h, reply, context⟩ := draw_completes hg (i8Order_perm a) writePixelI8_loads possible
  rw [exec_drawI8]
  refine ⟨t, h, reply, context, fun p hp => ?_, fun addr untouched => ?_⟩
  · obtain ⟨chroma1, chroma2⟩ := execDrawI8_chroma hg h hp
    obtain ⟨q, hq, shared, luma⟩ := execDrawI8_luma_shared hg h hp
    exact ⟨chroma1, chroma2, q, hq, shared, fun hw => visit_eq_of_i8LumaOff hw hp hq shared, luma⟩
  · exact draw_frame hg (i8Order_perm a) h fun p hp => by simpa [writePixelI8, outside_store] using untouched p hp

/-- For even `W` the two columns of a pair share their group (R121, R124). -/
theorem i8Group_pair {a : DrawArgs} (hw : a.W % 2 = 0) {sx sx' : Nat} (sy : Nat) (h : sx / 2 = sx' / 2) :
    i8Group a sx sy = i8Group a sx' sy := by
  have parity : sy * a.W % 2 = 0 := by simp [Nat.mul_mod, hw]
  unfold i8Group i8GroupBytes
  omega

/-- For even `W` the column beside an interleaved cell keeps its luma. -/
theorem execDrawI8_luma_beside {a : DrawArgs} {s t : State} {g : Fin 12} (hg : glyph? a.glyph = some g) (hw : a.W % 2 = 0)
    (h : exec (.drawI8 a) s = .next t) {p : Pixel} (hp : p ∈ a.visits) {c : Nat} (hc : c < a.W)
    (outside : (p.x = 0 ∧ c + 1 = a.sx p) ∨ (p.x + 1 = a.CW ∧ c = a.sx p + 1)) :
    t.mem.read? (a.B + i8LumaOff a c (a.sy p)) = s.mem.read? (a.B + i8LumaOff a c (a.sy p)) := by
  refine luma_unvisited (writePixelI8_writer a) hg (i8Order_perm a) h (i8LumaOff_not_chroma a c (a.sy p)) fun q hq same => ?_
  have sameIdx : p8LumaIdx a (a.sx q) (a.sy q) = p8LumaIdx a c (a.sy p) := by
    rw [i8LumaOff_of_even hw, i8LumaOff_of_even hw] at same
    omega
  exact sx_ne_of_outside hp hq outside (p8LumaIdx_inj (sx_of_visit hq).2 hc sameIdx).1

/-- Settles O20: the neighbour shares its pair's group, and its own luma byte is no visited pixel's. -/
theorem interleavedEdgeNeighbourLosesChromaOnly : Obligations.InterleavedEdgeNeighbourLosesChromaOnly := by
  refine ⟨fun a sx sy hw => ⟨i8Group_pair hw sy (by omega), i8Group_pair hw sy (by omega)⟩, fun a s t g hg hw h p hp => ?_⟩
  obtain ⟨chroma1, chroma2⟩ := execDrawI8_chroma hg h hp
  obtain ⟨-, onFrame⟩ := sx_of_visit hp
  simp only [i8Chroma1, i8Chroma2] at chroma1 chroma2 ⊢
  refine ⟨fun left odd => ?_, fun right even => ?_⟩
  · rw [i8Group_pair hw (a.sy p) (show (a.sx p - 1) / 2 = a.sx p / 2 by omega)]
    exact ⟨chroma1, chroma2, execDrawI8_luma_beside hg hw h hp (by omega) (.inl ⟨left, by omega⟩)⟩
  · have inside : a.sx p + 1 < a.W := by omega
    rw [i8Group_pair hw (a.sy p) (show (a.sx p + 1) / 2 = a.sx p / 2 by omega)]
    exact ⟨inside, chroma1, chroma2, execDrawI8_luma_beside hg hw h hp inside (.inr ⟨right, rfl⟩)⟩

/-! ### Where two Interleaved8 pixels share a luma byte -/

/-- For odd `W` two pixels of one luma byte are one pixel, or the last of an even row and the first of the next (R125). -/
theorem i8LumaOff_collision {a : DrawArgs} (hw : a.W % 2 = 1) {sx sy sx' sy' : Nat} (hx : sx < a.W) (hx' : sx' < a.W)
    (h : i8LumaOff a sx sy = i8LumaOff a sx' sy') (le : p8LumaIdx a sx sy ≤ p8LumaIdx a sx' sy') :
    (sx = sx' ∧ sy = sy') ∨ (sy % 2 = 0 ∧ sx = a.W - 1 ∧ sx' = 0 ∧ sy' = sy + 1) := by
  have sameByte : sx % 2 = sx' % 2 ∧ p8LumaIdx a sx sy / 2 = p8LumaIdx a sx' sy' / 2 := by
    unfold i8LumaOff i8Group i8GroupBytes at h
    unfold p8LumaIdx
    split at h <;> split at h <;> omega
  obtain ⟨parity, group⟩ := sameByte
  by_cases same : p8LumaIdx a sx sy = p8LumaIdx a sx' sy'
  · exact .inl (p8LumaIdx_inj hx hx' same)
  · have next : p8LumaIdx a sx' sy' = p8LumaIdx a sx sy + 1 ∧ p8LumaIdx a sx sy % 2 = 0 := by omega
    obtain ⟨next, evenIdx⟩ := next
    -- inside a row the next pixel has the other parity, so the next index begins a row
    have rowEnd : sx = a.W - 1 := by
      by_contra inside
      have column := (p8LumaIdx_inj hx' (show sx + 1 < a.W by omega) (sy := sy') (sy' := sy) next).1
      omega
    have wrapped : p8LumaIdx a sx' sy' = p8LumaIdx a 0 (sy + 1) := by
      rw [next, p8LumaIdx, p8LumaIdx, Nat.succ_mul]
      omega
    obtain ⟨column, row⟩ := p8LumaIdx_inj hx' (show 0 < a.W by omega) wrapped
    have evenRow : sy % 2 = 0 := by
      have product : sy * a.W % 2 = sy % 2 := by simp [Nat.mul_mod, hw]
      unfold p8LumaIdx at evenIdx
      omega
    exact .inr ⟨evenRow, rowEnd, column, row⟩

theorem shows_of_visit {a : DrawArgs} {p : Pixel} (hp : p ∈ a.visits) : a.shows (a.sx p) (a.sy p) = true := by
  obtain ⟨hCW, hCH, -⟩ := (mem_visits a p).1 hp
  obtain ⟨hx, hW⟩ := sx_of_visit hp
  obtain ⟨hy, hH⟩ := sy_of_visit hp
  simp only [DrawArgs.shows, Bool.and_eq_true, decide_eq_true_eq]
  omega

/-- The cell shows no two pixels of one luma byte: R109 cases (c) and (d). -/
def NoSharedLuma (a : DrawArgs) : Prop :=
  a.W % 2 = 0 ∨ ∀ sy : Nat, sy % 2 = 0 → ¬ (a.shows (a.W - 1) sy = true ∧ a.shows 0 (sy + 1) = true)

theorem visit_eq_of_noSharedLuma {a : DrawArgs} (h : NoSharedLuma a) {p q : Pixel} (hp : p ∈ a.visits) (hq : q ∈ a.visits)
    (shared : i8LumaOff a (a.sx q) (a.sy q) = i8LumaOff a (a.sx p) (a.sy p)) : q = p := by
  obtain hw | noRowEnd := h
  · exact visit_eq_of_i8LumaOff hw hp hq shared
  · by_cases hw : a.W % 2 = 0
    · exact visit_eq_of_i8LumaOff hw hp hq shared
    have odd : a.W % 2 = 1 := by omega
    have ordered {p q : Pixel} (hp : p ∈ a.visits) (hq : q ∈ a.visits)
        (shared : i8LumaOff a (a.sx q) (a.sy q) = i8LumaOff a (a.sx p) (a.sy p))
        (le : p8LumaIdx a (a.sx q) (a.sy q) ≤ p8LumaIdx a (a.sx p) (a.sy p)) : q = p := by
      obtain ⟨column, row⟩ | ⟨evenRow, lastColumn, firstColumn, nextRow⟩ :=
        i8LumaOff_collision odd (sx_of_visit hq).2 (sx_of_visit hp).2 shared le
      · exact visit_eq_of_p8LumaIdx hp hq (by rw [column, row])
      · refine absurd ⟨?_, ?_⟩ (noRowEnd (a.sy q) evenRow)
        · rw [← lastColumn]; exact shows_of_visit hq
        · rw [← firstColumn, ← nextRow]; exact shows_of_visit hp
    obtain le | le := Nat.le_total (p8LumaIdx a (a.sx q) (a.sy q)) (p8LumaIdx a (a.sx p) (a.sy p))
    · exact ordered hp hq shared le
    · exact (ordered hq hp shared.symm le).symm

/-- Settles O37: with no luma byte shared the stores are pairwise compatible. -/
theorem interleavedVisitOrderMattersOnlyAtRowEnds : Obligations.InterleavedVisitOrderMattersOnlyAtRowEnds := by
  intro a s o o' hm ho ho'
  refine ⟨fun noShared => ?_, drawCell_fault_order writePixelI8_loads ho ho'⟩
  refine drawCell_mem_order writePixelI8_loads hm ho ho' fun g => ?_
  exact eightBit_compatible (writePixelI8_writer a) (fun _ _ => i8LumaOff_not_chroma a _ _)
    fun p hp q hq => visit_eq_of_noSharedLuma noShared hp hq

end Sys2Proof.Machine

/-! PROOFS. Packed10. A visit writes three fields of its block, and a field is told by its row, its block and its (word, slot)
pair (R161, R163). The packing table gives every position its own luma field, and no luma field is a chroma field. -/
namespace Sys2Proof.Machine

/-! ### The fields of a frame -/

/-- A place in a row-major array of rows of `n` is told by its index. -/
theorem rowMajor_inj {n x y x' y' : Nat} (hx : x < n) (hx' : x' < n) (h : y * n + x = y' * n + x') : x = x' ∧ y = y' := by
  have column : x = x' := by simpa [Nat.mod_eq_of_lt, hx, hx'] using congrArg (· % n) h
  have row : y * n = y' * n := by omega
  exact ⟨column, Nat.eq_of_mul_eq_mul_right (Nat.zero_lt_of_lt hx) row⟩

/-- The index of a word among the words of the buffer (R161). -/
def p10WordIdx (a : DrawArgs) (sx sy : Nat) (ws : WordSlot) : Nat := (sy * p10Blocks a.W + sx / 6) * 4 + ws.word.val

/-- The words a `DRAW.P10` touches lie at multiples of four from the base (R161). -/
theorem p10Addr_eq (a : DrawArgs) (sx sy : Nat) (ws : WordSlot) : p10Addr a sx sy ws = a.B + 4 * p10WordIdx a sx sy ws := by
  unfold p10Addr p10WordOff p10Stride p10WordIdx p10BlockPixels p10BlockWords p10WordBytes
  ring

/-- The column lies in a block of its scan line; the frame's last block may hold columns off the frame (R161). -/
def InBlocks (a : DrawArgs) (sx : Nat) : Prop := sx / 6 < p10Blocks a.W

theorem inBlocks_of_lt {a : DrawArgs} {sx : Nat} (h : sx < a.W) : InBlocks a sx := by
  unfold InBlocks p10Blocks p10BlockPixels
  omega

theorem p10WordIdx_inj {a : DrawArgs} {sx sy sx' sy' : Nat} {ws ws' : WordSlot} (hx : InBlocks a sx) (hx' : InBlocks a sx')
    (h : p10WordIdx a sx sy ws = p10WordIdx a sx' sy' ws') : sx / 6 = sx' / 6 ∧ sy = sy' ∧ ws.word = ws'.word := by
  unfold p10WordIdx at h
  have block : sy * p10Blocks a.W + sx / 6 = sy' * p10Blocks a.W + sx' / 6 := by omega
  obtain ⟨sameBlock, sameRow⟩ := rowMajor_inj hx hx' block
  exact ⟨sameBlock, sameRow, by omega⟩

/-- Fields of words at multiples of four are apart unless they are one field. -/
theorem setField_apart {b k k' : Nat} {sl sl' : Fin 3} {v v' : BitVec 10} (h : k = k' → sl ≠ sl') :
    (Access.setField (b + 4 * k) sl v).Apart (.setField (b + 4 * k') sl' v') := by
  simp only [Access.Apart, Access.firstBit, Access.width]
  by_cases same : k = k'
  · have := h same
    omega
  · omega

/-- Two fields of a frame are apart unless row, block, word and slot agree. -/
theorem p10_apart {a : DrawArgs} {sx sy sx' sy' : Nat} {ws ws' : WordSlot} {v v' : BitVec 10} (hx : InBlocks a sx)
    (hx' : InBlocks a sx') (h : ¬ (sx / 6 = sx' / 6 ∧ sy = sy' ∧ ws = ws')) :
    (Access.setField (p10Addr a sx sy ws) ws.slot v).Apart (.setField (p10Addr a sx' sy' ws') ws'.slot v') := by
  rw [p10Addr_eq, p10Addr_eq]
  refine setField_apart fun sameWord sameSlot => h ?_
  obtain ⟨block, row, word⟩ := p10WordIdx_inj hx hx' sameWord
  exact ⟨block, row, congrArg₂ WordSlot.mk word sameSlot⟩

/-! ### The packing table -/

/-- Every position of a block has its own luma field (R163). -/
theorem lumaWS_inj {sx sx' : Nat} (h : lumaWS sx = lumaWS sx') : sx % 6 = sx' % 6 := by
  have table : ∀ i j : Fin 6, lumaTable[i] = lumaTable[j] → i = j := by decide
  exact congrArg Fin.val (table _ _ h)

/-- No luma field is a chroma field (R163). -/
theorem lumaWS_not_chroma (sx sx' : Nat) : lumaWS sx ∉ [chroma1WS sx', chroma2WS sx'] := by
  have table : ∀ i j : Fin 6, lumaTable[i] ∉ [chroma1Table[j], chroma2Table[j]] := by decide
  exact table _ _

/-- Positions 0/1, 2/3 and 4/5 of a block are pairs (R163). -/
theorem chromaTable_pair : ∀ i j : Fin 6, i.val / 2 = j.val / 2 →
    chroma1Table[i] = chroma1Table[j] ∧ chroma2Table[i] = chroma2Table[j] := by decide

/-- Two columns of one pair have the same chroma fields in their block (R163). -/
theorem chromaWS_pair {sx sx' : Nat} (h : sx / 2 = sx' / 2) : chroma1WS sx = chroma1WS sx' ∧ chroma2WS sx = chroma2WS sx' :=
  chromaTable_pair _ _ (by simp only [p10Pos]; omega)

theorem p10Addr_pair (a : DrawArgs) {sx sx' : Nat} (sy : Nat) (ws : WordSlot) (h : sx / 2 = sx' / 2) :
    p10Addr a sx sy ws = p10Addr a sx' sy ws := by
  have block : sx / 6 = sx' / 6 := by omega
  rw [p10Addr_eq, p10Addr_eq, p10WordIdx, p10WordIdx, block]

/-! ### The accesses of a visit -/

theorem writePixelP10_loads : WriterLoads writePixelP10 true := by
  intro a sx sy k x hx
  simp only [writePixelP10, List.mem_cons, List.not_mem_nil, or_false] at hx
  obtain rfl | rfl | rfl := hx <;> rfl

/-- A visit writes its luma level, and 512 to its chroma fields (R164). -/
theorem mem_writePixelP10 {a : DrawArgs} {sx sy : Nat} {k : Bool} {x : Access} :
    x ∈ writePixelP10 a sx sy k ↔
      x = .setField (p10Addr a sx sy (lumaWS sx)) (lumaWS sx).slot (luma10 k) ∨
      ∃ ws ∈ [chroma1WS sx, chroma2WS sx], x = .setField (p10Addr a sx sy ws) ws.slot c10Neutral := by
  simp [writePixelP10]

/-- Every access of a visit writes one of the pixel's three fields. -/
theorem exists_field_of_mem {a : DrawArgs} {sx sy : Nat} {k : Bool} {x : Access} (hx : x ∈ writePixelP10 a sx sy k) :
    ∃ ws ∈ [lumaWS sx, chroma1WS sx, chroma2WS sx], ∃ v, x = .setField (p10Addr a sx sy ws) ws.slot v := by
  obtain rfl | ⟨ws, hws, rfl⟩ := mem_writePixelP10.1 hx
  · exact ⟨_, List.mem_cons_self, _, rfl⟩
  · exact ⟨ws, List.mem_cons_of_mem _ hws, _, rfl⟩

/-- A visited pixel is told by its luma field. -/
theorem visit_eq_of_lumaField {a : DrawArgs} {p q : Pixel} (hp : p ∈ a.visits) (hq : q ∈ a.visits)
    (h : a.sx q / 6 = a.sx p / 6 ∧ a.sy q = a.sy p ∧ lumaWS (a.sx q) = lumaWS (a.sx p)) : q = p := by
  obtain ⟨block, row, field⟩ := h
  have position := lumaWS_inj field
  have column : a.sx q = a.sx p := by omega
  exact visit_eq_of_p8LumaIdx hp hq (by rw [column, row])

/-- The field writes of a `DRAW.P10` are pairwise compatible: R109 case (b). -/
theorem drawP10_compatible (rom : GlyphTable) (g : Fin 12) (a : DrawArgs) :
    ForVisits writePixelP10 rom g a fun x => ForVisits writePixelP10 rom g a fun y => y.Compatible x := by
  intro p hp x hx q hq y hy
  have hpB := inBlocks_of_lt (sx_of_visit hp).2
  have hqB := inBlocks_of_lt (sx_of_visit hq).2
  obtain rfl | ⟨ws, hws, rfl⟩ := mem_writePixelP10.1 hx
  · obtain rfl | ⟨ws', hws', rfl⟩ := mem_writePixelP10.1 hy
    · by_cases same : q = p
      · subst same; exact .inl rfl
      · exact .inr (p10_apart hqB hpB (mt (visit_eq_of_lumaField hp hq) same))
    · exact .inr (p10_apart hqB hpB fun ⟨_, _, field⟩ => lumaWS_not_chroma _ _ (field ▸ hws'))
  · obtain rfl | ⟨ws', hws', rfl⟩ := mem_writePixelP10.1 hy
    · exact .inr (p10_apart hqB hpB fun ⟨_, _, field⟩ => lumaWS_not_chroma _ _ (field ▸ hws))
    · by_cases same : a.sx q / 6 = a.sx p / 6 ∧ a.sy q = a.sy p ∧ ws' = ws
      · obtain ⟨block, row, rfl⟩ := same
        refine .inl ?_
        rw [p10Addr_eq, p10Addr_eq, p10WordIdx, p10WordIdx, block, row]
      · exact .inr (p10_apart hqB hpB same)

/-- Settles O36: the field writes of a `DRAW.P10` are pairwise compatible. -/
theorem packedVisitOrderDoesNotMatter : Obligations.PackedVisitOrderDoesNotMatter := fun a s _ _ hm ho ho' =>
  ⟨drawCell_mem_order writePixelP10_loads hm ho ho' fun g => drawP10_compatible s.rom g a,
    drawCell_fault_order writePixelP10_loads ho ho'⟩

/-! ### What a `DRAW.P10` leaves -/

section
variable {a : DrawArgs} {s t : State} {g : Fin 12} (hg : glyph? a.glyph = some g) (h : exec (.drawP10 a) s = .next t)
include hg h

/-- What the visit of `p` writes is there after the `DRAW.P10`. -/
theorem execDrawP10_holds {p : Pixel} (hp : p ∈ a.visits) {x : Access}
    (hx : x ∈ writePixelP10 a (a.sx p) (a.sy p) (cellInk s.rom g a p)) : x.Holds t.mem :=
  draw_holds hg (List.Perm.refl _) writePixelP10_loads h hp hx (drawP10_compatible s.rom g a p hp x hx)

theorem execDrawP10_luma {p : Pixel} (hp : p ∈ a.visits) :
    t.mem.get10? (p10Addr a (a.sx p) (a.sy p) (lumaWS (a.sx p))) (lumaWS (a.sx p)).slot =
      some (luma10 (cellInk s.rom g a p)) :=
  execDrawP10_holds hg h hp (mem_writePixelP10.2 (.inl rfl))

theorem execDrawP10_chroma {p : Pixel} (hp : p ∈ a.visits) {ws : WordSlot}
    (hws : ws ∈ [chroma1WS (a.sx p), chroma2WS (a.sx p)]) :
    t.mem.get10? (p10Addr a (a.sx p) (a.sy p) ws) ws.slot = some 512 :=
  execDrawP10_holds (x := .setField _ _ c10Neutral) hg h hp (mem_writePixelP10.2 (.inr ⟨ws, hws, rfl⟩))

/-- A run of bits of a word that lies apart from every field the visits write is as before. -/
theorem execDrawP10_extract {b lo n : Nat} (hn : lo + n ≤ 32)
    (apart : ∀ p ∈ a.visits, ∀ ws ∈ [lumaWS (a.sx p), chroma1WS (a.sx p), chroma2WS (a.sx p)], ∀ v,
      let x := Access.setField (p10Addr a (a.sx p) (a.sy p) ws) ws.slot v
      x.firstBit + x.width ≤ 8 * b + lo ∨ 8 * b + lo + n ≤ x.firstBit) :
    (t.mem.readWord? b).map (fun v => v.extractLsb' lo n) = (s.mem.readWord? b).map fun v => v.extractLsb' lo n := by
  refine draw_extract_frame hg (List.Perm.refl _) writePixelP10_loads h hn fun p hp x hx => ?_
  obtain ⟨ws, hws, v, rfl⟩ := exists_field_of_mem hx
  exact apart p hp ws hws v

/-- A field apart from every field the visits write reads as before. -/
theorem execDrawP10_field {b : Nat} {sl : Fin 3}
    (apart : ∀ p ∈ a.visits, ∀ ws ∈ [lumaWS (a.sx p), chroma1WS (a.sx p), chroma2WS (a.sx p)], ∀ v,
      (Access.setField (p10Addr a (a.sx p) (a.sy p) ws) ws.slot v).Apart (.setField b sl 0)) :
    t.mem.get10? b sl = s.mem.get10? b sl :=
  execDrawP10_extract hg h (lo := 10 * sl.val) (n := 10) (by omega) apart

end

/-- Bits 31:30 of a word at a multiple of four belong to no field (R160, D19). -/
theorem field_below_top_bits (b k k' : Nat) (sl : Fin 3) (v : BitVec 10) :
    (Access.setField (b + 4 * k') sl v).firstBit + (Access.setField (b + 4 * k') sl v).width ≤ 8 * (b + 4 * k) + 30 ∨
    8 * (b + 4 * k) + 30 + 2 ≤ (Access.setField (b + 4 * k') sl v).firstBit := by
  simp only [Access.firstBit, Access.width]
  obtain before | same | behind := Nat.lt_trichotomy k' k
  · omega
  · omega
  · omega

/-- Settles O25: the field writes are compatible, so each visited pixel reads back; every other field, bits 31:30 of each word
and every byte outside the words lie apart from all of them. -/
theorem drawP10WritesItsCell : Obligations.DrawP10WritesItsCell := by
  intro a s g hg ready
  have possible : ForVisits writePixelP10 s.rom g a fun x => x.Possible (a.windowIn s) s.mem := by
    intro p hp x hx
    obtain ⟨ws, hws, v, rfl⟩ := exists_field_of_mem hx
    obtain ⟨covered, readable⟩ := ready p hp ws hws
    exact ⟨covered, fun _ => readable⟩
  obtain ⟨t, h, reply, context⟩ := draw_completes hg (List.Perm.refl _) writePixelP10_loads possible
  rw [exec_drawP10]
  refine ⟨t, h, reply, context, fun p hp => ⟨?_, ?_, ?_⟩, fun k sl other => ?_, fun k => ?_, fun addr outside => ?_⟩
  · exact execDrawP10_luma hg h hp
  · exact execDrawP10_chroma hg h hp (by simp)
  · exact execDrawP10_chroma hg h hp (by simp)
  · refine execDrawP10_field hg h fun p hp ws hws v => ?_
    have differs := other p hp ws hws
    rw [p10Addr_eq] at differs ⊢
    exact setField_apart fun same => differs (by rw [same])
  · refine execDrawP10_extract hg h (by decide) fun p hp ws hws v => ?_
    rw [p10Addr_eq]
    exact field_below_top_bits _ _ _ _ v
  · refine draw_frame hg (List.Perm.refl _) h fun p hp x hx => ?_
    obtain ⟨ws, hws, v, rfl⟩ := exists_field_of_mem hx
    exact outside p hp ws hws

/-- Settles O27: the neighbour shares its pair's chroma fields, and its own luma field is no field a visit writes. -/
theorem packedEdgeNeighbourLosesChromaOnly : Obligations.PackedEdgeNeighbourLosesChromaOnly := by
  intro a s t g hg h p hp c beside
  obtain ⟨-, onFrame⟩ := sx_of_visit hp
  have pair : c / 2 = a.sx p / 2 := by omega
  have inBlocks : InBlocks a c := by
    unfold InBlocks p10Blocks p10BlockPixels
    omega
  have outside : (p.x = 0 ∧ c + 1 = a.sx p) ∨ (p.x + 1 = a.CW ∧ c = a.sx p + 1) :=
    beside.imp (fun ⟨left, _, hc⟩ => ⟨left, hc⟩) fun ⟨right, _, hc⟩ => ⟨right, hc⟩
  obtain ⟨field1, field2⟩ := chromaWS_pair pair
  rw [field1, field2, p10Addr_pair a _ _ pair, p10Addr_pair a _ _ pair]
  refine ⟨execDrawP10_chroma hg h hp (by simp), execDrawP10_chroma hg h hp (by simp), ?_⟩
  refine execDrawP10_field hg h fun q hq ws hws v => ?_
  refine p10_apart (inBlocks_of_lt (sx_of_visit hq).2) inBlocks fun ⟨block, _, field⟩ => ?_
  obtain rfl | chroma := List.mem_cons.1 hws
  · have position := lumaWS_inj field
    exact sx_ne_of_outside hp hq outside (by omega)
  · exact lumaWS_not_chroma _ _ (field ▸ chroma)

end Sys2Proof.Machine

/-! PROOFS. A label left of the frame (R205). Each of its cells is off the frame: the host leaves its command out, or the
command has nothing to visit (R102, R199). -/
namespace Sys2Proof.Machine

/-- The command answers `done` and changes nothing else, from every state. -/
def DrawsNothing (i : Instr) : Prop := ∀ s : State, exec i s = .next { s with reply := some .done }

theorem drawsNothing_formatCommand (fmt : PixelFormat) {a : DrawArgs} (h : a.X0 + a.CW ≤ 0) :
    DrawsNothing (formatCommand fmt a) := by
  intro s
  refine nothingToDrawIsDone a (formatCommand fmt a) s ?_ (by omega)
  cases fmt with
  | interleaved8 => exact .inl rfl
  | planar8 => exact .inr (.inl rfl)
  | packed10 => exact .inr (.inr rfl)

/-- Commands that draw nothing change the reply alone. -/
theorem runCommands_drawsNothing {is : List Instr} (h : ∀ i ∈ is, DrawsNothing i) (s : State) :
    ∃ r, runCommands is s = .next { s with reply := r } := by
  induction is generalizing s with
  | nil => exact ⟨s.reply, rfl⟩
  | cons i is ih =>
    obtain ⟨first, rest⟩ := List.forall_mem_cons.1 h
    obtain ⟨r, hr⟩ := ih rest { s with reply := some .done }
    exact ⟨r, by simp only [runCommands, first s, hr]⟩

theorem fitsSigned_iff (v : Int) : fitsSigned v = true ↔ -2 ^ 31 ≤ v ∧ v < 2 ^ 31 := by simp [fitsSigned]

/-- A cell width is a 32-bit number (R191, D24). -/
theorem cellWidth_lt (c : HostConfig) : c.cellWidth < 2 ^ 32 := by
  have := c.cellSize.isLt
  unfold HostConfig.cellWidth
  omega

/-- For a cell left of the frame the host issues no command, or one that draws nothing (R199). -/
theorem cellCommand_left {c : HostConfig} (dst : Word) (y : Int) {cx : Int} (g : BitVec 4) (h : cx + c.cellWidth ≤ 0) :
    ∃ now, cellCommand c dst y cx g = .ok now ∧ ∀ i ∈ now, DrawsNothing i := by
  unfold cellCommand
  split
  · next encodable =>
    refine ⟨_, rfl, fun i hi => ?_⟩
    obtain rfl := List.mem_singleton.1 hi
    simp only [cellEncodable, Bool.and_eq_true, fitsSigned_iff] at encodable
    obtain ⟨⟨⟨⟨lo, hi⟩, -⟩, -⟩, -⟩ := encodable
    refine drawsNothing_formatCommand _ ?_
    rw [DrawArgs.X0, DrawArgs.CW, BitVec.toInt_ofInt_eq_self (by decide) lo hi, BitVec.toNat_ofNat,
      Nat.mod_eq_of_lt (cellWidth_lt c)]
    exact h
  · have off : cellOffFrame c cx y = true := by simp [cellOffFrame, h]
    rw [if_pos off]
    exact ⟨[], rfl, nofun⟩

/-- A label left of the frame draws nothing (R205). -/
theorem labelCommands_left {c : HostConfig} (dst : Word) (y : Int) {cx : Int} {cs : List Char}
    (h : cx + cs.length * c.cellWidth ≤ 0) :
    ∃ commands, labelCommands c dst y cx cs = .ok commands ∧ ∀ i ∈ commands, DrawsNothing i := by
  induction cs generalizing cx with
  | nil => exact ⟨[], rfl, nofun⟩
  | cons ch rest ih =>
    rw [List.length_cons, Nat.cast_succ, Int.add_mul, Int.one_mul] at h
    have widths : 0 ≤ (rest.length : Int) * c.cellWidth := by positivity
    obtain ⟨later, hlater, laterNothing⟩ := ih (cx := cx + c.cellWidth) (by omega)
    cases hch : glyphIndex ch with
    | none => exact ⟨later, by simp only [labelCommands, hlater, hch], laterNothing⟩
    | some g =>
      obtain ⟨now, hnow, nowNothing⟩ := cellCommand_left dst y g (show cx + c.cellWidth ≤ 0 by omega)
      refine ⟨now ++ later, by simp only [labelCommands, hlater, hch, hnow], fun i hi => ?_⟩
      exact (List.mem_append.1 hi).elim (nowNothing i) (laterNothing i)

/-- An in-place burn past validation runs the label's commands in the buffer's own window (R201). -/
theorem burnInPlace_of_runs {buf : Word} {len : Nat} {time : TimeCode} {x y : Int} {s u : State} {commands : List Instr}
    (hw : s.cfg.width ≠ 0) (hh : s.cfg.height ≠ 0) (hlen : s.cfg.frameSize ≤ len)
    (hl : labelCommands s.cfg buf y x (label time) = .ok commands)
    (hrun : runCommands commands { s with window := len } = .next u) :
    burnInPlace (some buf) len time x y s = .next (u.answer .success) := by
  have geometry : ¬ (s.cfg.width = 0 ∨ s.cfg.height = 0) := not_or.2 ⟨hw, hh⟩
  simp only [burnInPlace, burn, if_neg geometry, if_neg (Nat.not_lt.2 hlen), burnValidated, ne_eq, not_true_eq_false,
    false_and, if_false, if_true, hl, hrun]

/-- Settles O47: every command of the label draws nothing. -/
theorem burnLeftOfTheFrameChangesNothing : Obligations.BurnLeftOfTheFrameChangesNothing := by
  intro buf len time x y s hw hh hlen left
  obtain ⟨commands, hl, nothing⟩ := labelCommands_left buf y left
  obtain ⟨r, hrun⟩ := runCommands_drawsNothing nothing { s with window := len }
  rw [burnInPlace_of_runs hw hh hlen hl hrun]
  rfl

end Sys2Proof.Machine

/-! PROOFS. The 8-bit writers never read the buffer (R122, R143). Their accesses are byte stores, so the window alone decides
whether they can be made, and a byte ends with the last value stored to it or as it was. -/
namespace Sys2Proof.Machine

/-- A byte store is as possible on any memory as on another. -/
theorem possible_of_not_loads {w : Window} {m m' : Memory} {x : Access} (kind : x.loads = false) (h : x.Possible w m) :
    x.Possible w m' := by
  obtain ⟨covered, -⟩ := h
  exact ⟨covered, fun loads => by cases kind.symm.trans loads⟩

/-- Byte stores run on two memories leave a byte as it was in both, or with one value in both. -/
theorem stores_leave_or_agree {w : Window} {xs : List Access} (stores : ∀ x ∈ xs, x.loads = false) {m m' : Memory}
    (done : (runAccesses w xs m).ending = .done) (done' : (runAccesses w xs m').ending = .done) (addr : Nat) :
    ((runAccesses w xs m).mem.read? addr = m.read? addr ∧ (runAccesses w xs m').mem.read? addr = m'.read? addr) ∨
      (runAccesses w xs m').mem.read? addr = (runAccesses w xs m).mem.read? addr := by
  induction xs generalizing m m' with
  | nil => exact .inl ⟨rfl, rfl⟩
  | cons x xs ih =>
    obtain ⟨here, later⟩ := List.forall_mem_cons.1 stores
    obtain ⟨possible, -⟩ := List.forall_mem_cons.1 ((runAccesses_done_iff stores).1 done)
    obtain ⟨n, hn⟩ := (possible_iff w m x).1 possible
    obtain ⟨n', hn'⟩ := (possible_iff w m' x).1 (possible_of_not_loads here possible)
    rw [runAccesses_cons_ok _ hn] at done ⊢
    rw [runAccesses_cons_ok _ hn'] at done' ⊢
    obtain ⟨kept, kept'⟩ | agree := ih later done done'
    · rw [kept, kept']
      cases x with
      | setField a s v => cases here
      | store a v =>
        obtain ⟨-, rfl⟩ := (memWrite8_ok _ _ _ _ _).1 hn
        obtain ⟨-, rfl⟩ := (memWrite8_ok _ _ _ _ _).1 hn'
        by_cases stored : addr = a
        · exact .inr (by rw [stored, read_write_same, read_write_same])
        · exact .inl ⟨read_write_other m v stored, read_write_other m' v stored⟩
    · exact .inr agree

/-- A `DRAW` of a writer that only stores completes whatever memory holds, and leaves the same in the bytes it changes. -/
theorem storing_draw_ignores_memory {wp : WritePixel} {order : List Pixel} {a : DrawArgs} {s s' t : State}
    (loads : WriterLoads wp false) (hrom : s'.rom = s.rom) (hwindow : s'.window = s.window)
    (h : conclude s (drawCell wp order a s) = .next t) :
    ∃ t', conclude s' (drawCell wp order a s') = .next t' ∧
      ∀ addr : Nat, (t.mem.read? addr = s.mem.read? addr ∧ t'.mem.read? addr = s'.mem.read? addr) ∨
        t'.mem.read? addr = t.mem.read? addr := by
  cases hg : glyph? a.glyph with
  | none =>
    simp only [drawCell, hg, conclude_done, Host.Outcome.next.injEq] at h ⊢
    subst h
    exact ⟨_, rfl, fun _ => .inl ⟨rfl, rfl⟩⟩
  | some g =>
    obtain ⟨done, hmem⟩ := drawCell_next hg h
    have window : a.windowIn s' = a.windowIn s := by rw [DrawArgs.windowIn, DrawArgs.windowIn, hwindow]
    have stores := cellAccesses_loads (rom := s.rom) (g := g) (a := a) (order := order) loads
    have done' : (runAccesses (a.windowIn s) (cellAccesses wp s.rom g a order) s'.mem).ending = .done :=
      (runAccesses_done_iff stores).2 fun x hx => possible_of_not_loads (stores x hx) ((runAccesses_done_iff stores).1 done x hx)
    rw [drawCell_eq_run hg, hrom, window, hmem]
    exact ⟨_, conclude_of_done done', stores_leave_or_agree stores done done'⟩

/-- Settles O33: both writers only store, and the order of the visits depends on the operands alone. -/
theorem eightBitWritersIgnoreOldContent : Obligations.EightBitWritersIgnoreOldContent := by
  intro a i s s' t hi hrom hwindow h
  obtain rfl | rfl := hi
  · rw [exec_drawI8] at h ⊢
    exact storing_draw_ignores_memory writePixelI8_loads hrom hwindow h
  · rw [exec_drawP8] at h ⊢
    exact storing_draw_ignores_memory writePixelP8_loads hrom hwindow h

end Sys2Proof.Machine

/-! PROOFS. Where the bytes of an Interleaved8 pixel lie in its frame (R121, R126), and the one frame byte past the buffer
(R125 item 4, R250): the second chroma byte of the last pixel, when the frame has an odd number of pixels. -/
namespace Sys2Proof.Machine

theorem p8LumaIdx_of_even {a : DrawArgs} (hw : a.W % 2 = 0) (sx sy : Nat) :
    p8LumaIdx a sx sy / 2 = sy * a.W / 2 + sx / 2 := by
  have parity : sy * a.W % 2 = 0 := by simp [Nat.mul_mod, hw]
  unfold p8LumaIdx
  omega

/-- For even `W` a row takes `2 * W` bytes, four for each pair of columns (R126). -/
theorem i8Group_of_even {a : DrawArgs} (hw : a.W % 2 = 0) (sx sy : Nat) :
    i8Group a sx sy = sy * (2 * a.W) + sx / 2 * 4 := by
  have parity : sy * a.W % 2 = 0 := by simp [Nat.mul_mod, hw]
  have row : sy * (2 * a.W) = 2 * (sy * a.W) := Nat.mul_left_comm _ _ _
  unfold i8Group i8GroupBytes
  omega

theorem i8LumaOff_row_of_even {a : DrawArgs} (hw : a.W % 2 = 0) (sx sy : Nat) :
    i8LumaOff a sx sy = sy * (2 * a.W) + 2 * sx + 1 := by
  have row : sy * (2 * a.W) = 2 * (sy * a.W) := Nat.mul_left_comm _ _ _
  rw [i8LumaOff_of_even hw, p8LumaIdx]
  omega

/-- The last pixel of a frame has the last index. -/
theorem p8LumaIdx_last {a : DrawArgs} (hw : 0 < a.W) (hh : 0 < a.H) : p8LumaIdx a (a.W - 1) (a.H - 1) + 1 = p8C1 a := by
  obtain ⟨h, rows⟩ := Nat.exists_eq_add_one_of_ne_zero (Nat.ne_zero_of_lt hh)
  rw [p8LumaIdx, p8C1, rows, Nat.add_sub_cancel, Nat.mul_succ, Nat.mul_comm h]
  omega

/-- The last index of a frame is that of its last pixel, and even only when width and height are odd. -/
theorem last_of_p8LumaIdx {a : DrawArgs} {sx sy : Nat} (hx : sx < a.W) (hy : sy < a.H) (last : p8LumaIdx a sx sy + 1 = p8C1 a)
    (even : p8LumaIdx a sx sy % 2 = 0) : a.W % 2 = 1 ∧ a.H % 2 = 1 ∧ sx = a.W - 1 ∧ sy = a.H - 1 := by
  have oddProduct : a.W * a.H % 2 = 1 := by unfold p8C1 at last; omega
  obtain ⟨oddWidth, oddHeight⟩ := Nat.odd_mul.1 (Nat.odd_iff.2 oddProduct)
  have corner := p8LumaIdx_last (Nat.zero_lt_of_lt hx) (Nat.zero_lt_of_lt hy)
  obtain ⟨column, row⟩ := p8LumaIdx_inj hx (show a.W - 1 < a.W by omega) (Nat.succ.inj (last.trans corner.symm))
  exact ⟨Nat.odd_iff.1 oddWidth, Nat.odd_iff.1 oddHeight, column, row⟩

/-- The buffer holds the luma byte and the first chroma byte of every pixel. It holds the second
chroma byte too, but for the last pixel of a frame of odd width and height (R250). -/
theorem i8_offsets_lt {a : DrawArgs} {sx sy : Nat} (hx : sx < a.W) (hy : sy < a.H) :
    i8LumaOff a sx sy < 2 * a.W * a.H ∧ i8Chroma1 a sx sy < 2 * a.W * a.H ∧ (i8Chroma2 a sx sy < 2 * a.W * a.H ∨
      (a.W % 2 = 1 ∧ a.H % 2 = 1 ∧ sx = a.W - 1 ∧ sy = a.H - 1)) := by
  have inFrame : p8LumaIdx a sx sy < p8C1 a := p8LumaIdx_lt hx hy
  have size : 2 * a.W * a.H = 2 * p8C1 a := Nat.mul_assoc _ _ _
  have group : i8Group a sx sy = p8LumaIdx a sx sy / 2 * 4 := rfl
  simp only [i8LumaOff, i8Chroma1, i8Chroma2, group, size]
  by_cases last : p8LumaIdx a sx sy + 1 = p8C1 a ∧ p8LumaIdx a sx sy % 2 = 0
  · obtain ⟨atEnd, even⟩ := last
    have corner := last_of_p8LumaIdx hx hy atEnd even
    rw [if_pos (by omega)]
    omega
  · split <;> omega

theorem i8Chroma2_last {a : DrawArgs} (hw : a.W % 2 = 1) (hh : a.H % 2 = 1) :
    i8Chroma2 a (a.W - 1) (a.H - 1) = 2 * a.W * a.H := by
  have corner := p8LumaIdx_last (a := a) (by omega) (by omega)
  have oddProduct : p8C1 a % 2 = 1 := Nat.odd_iff.1 (Nat.odd_mul.2 ⟨Nat.odd_iff.2 hw, Nat.odd_iff.2 hh⟩)
  have size : 2 * a.W * a.H = 2 * p8C1 a := Nat.mul_assoc _ _ _
  have group : i8Group a (a.W - 1) (a.H - 1) = p8LumaIdx a (a.W - 1) (a.H - 1) / 2 * 4 := rfl
  unfold i8Chroma2
  omega

/-- Settles O19: for even `W` rows and pairs of columns do not overlap, and no frame of even width is overrun. -/
theorem interleavedOffsetsForEvenWidth : Obligations.InterleavedOffsetsForEvenWidth := by
  intro a sx sy hw hx hy
  obtain ⟨luma, chroma1, chroma2⟩ := i8_offsets_lt hx hy
  have group := i8Group_of_even hw sx sy
  exact ⟨p8LumaIdx_of_even hw sx sy, group, i8LumaOff_row_of_even hw sx sy, group, congrArg (· + 2) group, by omega,
    luma, chroma1, by omega⟩

/-! ### The overrun -/

/-- The screen pixels a cell shows are those of its visits. -/
theorem visit_of_shows {a : DrawArgs} {sx sy : Nat} (h : a.shows sx sy = true) :
    ∃ p ∈ a.visits, a.sx p = sx ∧ a.sy p = sy := by
  simp only [DrawArgs.shows, Bool.and_eq_true, decide_eq_true_eq] at h
  refine ⟨⟨(sx - a.X0).toNat, (sy - a.Y0).toNat⟩, (mem_visits a _).2 ?_, ?_, ?_⟩
  · dsimp only; omega
  · dsimp only [DrawArgs.sx]; omega
  · dsimp only [DrawArgs.sy]; omega

/-- A `DRAW.I8` completes when its window reaches to the end of the buffer, or one byte past it where the cell shows the last
pixel of a frame of odd width and height. -/
theorem execDrawI8_completes {a : DrawArgs} {s : State} {n : Nat} (size : 2 * a.W * a.H ≤ n)
    (overrun : a.W % 2 = 1 → a.H % 2 = 1 → a.shows (a.W - 1) (a.H - 1) = true → 2 * a.W * a.H < n)
    (inWindow : n ≤ s.window) (inSpace : a.B + n ≤ 2 ^ Config.addrBits) : Completes (exec (.drawI8 a) s) := by
  rw [exec_drawI8]
  cases hg : glyph? a.glyph with
  | none => exact ⟨_, by rw [drawCell_nothing (i8Order_perm a) (.inl hg), conclude_done]⟩
  | some g =>
    have possible : ForVisits writePixelI8 s.rom g a fun x => x.Possible (a.windowIn s) s.mem := by
      intro p hp
      obtain ⟨luma, chroma1, chroma2⟩ := i8_offsets_lt (sx_of_visit hp).2 (sy_of_visit hp).2
      have chroma2 : i8Chroma2 a (a.sx p) (a.sy p) < n := by
        obtain inside | ⟨oddWidth, oddHeight, column, row⟩ := chroma2
        · omega
        · rw [column, row, i8Chroma2_last oddWidth oddHeight]
          exact overrun oddWidth oddHeight (column ▸ row ▸ shows_of_visit hp)
      simp only [writePixelI8, List.forall_mem_cons, possible_store, covers_iff, windowIn_base, windowIn_len]
      exact ⟨by omega, by omega, by omega, nofun⟩
    obtain ⟨t, ht, -⟩ := draw_completes hg (i8Order_perm a) writePixelI8_loads possible
    exact ⟨t, ht⟩

/-- Byte stores can fault only at the window. -/
theorem stores_fault {w : Window} {xs : List Access} (stores : ∀ x ∈ xs, x.loads = false) {m : Memory} {f : Fault}
    (h : (runAccesses w xs m).ending = .fault f) : f = .outOfWindow := by
  induction xs generalizing m with
  | nil => cases h
  | cons x xs ih =>
    obtain ⟨here, later⟩ := List.forall_mem_cons.1 stores
    cases hx : x.perform w m with
    | ok m' => rw [runAccesses_cons_ok _ hx] at h; exact ih later h
    | error f' =>
      rw [runAccesses_cons_error _ hx] at h
      cases h
      cases x with
      | setField a s v => cases here
      | store a v => exact ((memWrite8_error _ _ _ _ _).1 hx).2

/-- A `DRAW` of a writer that only stores stops at the window when one of its stores lies outside. -/
theorem storing_draw_faults {wp : WritePixel} {order : List Pixel} {a : DrawArgs} {s : State} {g : Fin 12}
    (hg : glyph? a.glyph = some g) (ho : VisitOrder a order) (loads : WriterLoads wp false) {p : Pixel} (hp : p ∈ a.visits)
    {x : Access} (hx : x ∈ wp a (a.sx p) (a.sy p) (cellInk s.rom g a p))
    (outside : ¬ (a.windowIn s).covers x.addr x.size = true) :
    conclude s (drawCell wp order a s) = .fault .outOfWindow := by
  obtain done | ⟨f, faults⟩ := drawCell_ending wp order a s
  · obtain ⟨covered, -⟩ := (drawCell_done_iff hg ho loads).1 done p hp x hx
    exact absurd covered outside
  · have cause : f = .outOfWindow := by
      rw [drawCell_eq_run hg] at faults
      exact stores_fault (cellAccesses_loads loads) faults
    simp only [conclude, faults, cause]

/-- Settles O21: the second chroma byte of the last pixel is the one byte past the buffer, and the other bytes lie in it. -/
theorem onlyOddInterleavedFramesAreOverrun : Obligations.OnlyOddInterleavedFramesAreOverrun := by
  refine ⟨fun a s size inSpace noOverrun => ?_, fun a s g hg oddWidth oddHeight shown => ?_⟩
  · exact execDrawI8_completes (Nat.le_refl _) (fun hw hh shown => absurd ⟨hw, hh, shown⟩ noOverrun) size inSpace
  · obtain ⟨p, hp, column, row⟩ := visit_of_shows shown
    have past : i8Chroma2 a (a.sx p) (a.sy p) = 2 * a.W * a.H := by
      rw [column, row, i8Chroma2_last oddWidth oddHeight]
    refine ⟨fun exactSize => ?_, fun size inSpace => ?_⟩
    · rw [exec_drawI8]
      refine storing_draw_faults (x := .store (a.B + i8Chroma2 a (a.sx p) (a.sy p)) c8Neutral) hg (i8Order_perm a)
        writePixelI8_loads hp (by simp [writePixelI8]) ?_
      rw [covers_iff, windowIn_base, windowIn_len, Access.addr, Access.size]
      omega
    · obtain ⟨t, ht⟩ := execDrawI8_completes (n := 2 * a.W * a.H + 1) (by omega) (fun _ _ _ => by omega) size inSpace
      refine ⟨t, ht, ?_⟩
      rw [← past]
      exact (execDrawI8_chroma hg ht hp).2

end Sys2Proof.Machine

/-! PROOFS. An in-place burn as one list of accesses (R199, R201, R205). Its commands share the window of the buffer, so they
run their accesses as if one command made them all. Which accesses these are is told by the screen pixels the label shows: a
cell the host leaves out shows none. -/
namespace Sys2Proof.Machine

/-! ### The commands of a label -/

/-- The operands of the command for glyph `g` at `(cx, y)` (R199). -/
def cellArgs (c : HostConfig) (dst : Word) (y cx : Int) (g : BitVec 4) : DrawArgs :=
  { glyph := g, x0 := .ofInt 32 cx, y0 := .ofInt 32 y, cw := .ofNat 32 c.cellWidth, ch := .ofNat 32 c.cellHeight,
    width := .ofNat 32 c.width, height := .ofNat 32 c.height, base := dst }

theorem cellCommand_encodable {c : HostConfig} (dst : Word) {y cx : Int} (g : BitVec 4) (h : cellEncodable c cx y = true) :
    cellCommand c dst y cx g = .ok [formatCommand c.format (cellArgs c dst y cx g)] := if_pos h

theorem cellCommand_omitted {c : HostConfig} (dst : Word) {y cx : Int} (g : BitVec 4) (h : ¬ cellEncodable c cx y = true)
    (off : cellOffFrame c cx y = true) : cellCommand c dst y cx g = .ok [] := (if_neg h).trans (if_pos off)

/-- `a` is the command of a recognised character of `cs`, the first of which is at `(cx, y)`, that a descriptor can express. -/
def IsLabelCell (c : HostConfig) (dst : Word) (y cx : Int) (cs : List Char) (a : DrawArgs) : Prop :=
  ∃ (i : Nat) (ch : Char) (g : BitVec 4), cs[i]? = some ch ∧ glyphIndex ch = some g ∧
    cellEncodable c (cx + i * c.cellWidth) y = true ∧ a = cellArgs c dst y (cx + i * c.cellWidth) g

/-- The cursor advances one cell width for every character (R199). -/
theorem cursor_succ (cx : Int) (i w : Nat) : cx + w + i * w = cx + (i + 1 : Nat) * w := by
  rw [Nat.cast_succ, Int.add_mul, Int.one_mul]
  omega

theorem isLabelCell_cons {c : HostConfig} {dst : Word} {y cx : Int} {ch : Char} {cs : List Char} {a : DrawArgs} :
    IsLabelCell c dst y cx (ch :: cs) a ↔
      (∃ g, glyphIndex ch = some g ∧ cellEncodable c cx y = true ∧ a = cellArgs c dst y cx g) ∨
        IsLabelCell c dst y (cx + c.cellWidth) cs a := by
  simp only [IsLabelCell, cursor_succ]
  constructor
  · rintro ⟨i, ch', g, at_i, recognised, encodable, rfl⟩
    cases i with
    | zero =>
      obtain rfl := Option.some.inj at_i
      rw [Nat.cast_zero, Int.zero_mul, Int.add_zero] at encodable ⊢
      exact .inl ⟨g, recognised, encodable, rfl⟩
    | succ i => exact .inr ⟨i, ch', g, at_i, recognised, encodable, rfl⟩
  · rintro (⟨g, recognised, encodable, rfl⟩ | ⟨i, ch', g, at_i, recognised, encodable, rfl⟩)
    · exact ⟨0, ch, g, rfl, recognised, by simpa using encodable, by simp⟩
    · exact ⟨i + 1, ch', g, at_i, recognised, encodable, rfl⟩

theorem labelExpressible_tail {c : HostConfig} {cx y : Int} {n : Nat} (h : LabelExpressible c cx y (n + 1)) :
    LabelExpressible c (cx + c.cellWidth) y n := by
  intro i hi
  rw [cursor_succ]
  exact h (i + 1) (by omega)

/-- The commands of a label whose cells are expressible or off the frame are those of its expressible cells. -/
theorem labelCommands_cells {c : HostConfig} (dst : Word) {y cx : Int} {cs : List Char}
    (h : LabelExpressible c cx y cs.length) :
    ∃ cells : List DrawArgs, labelCommands c dst y cx cs = .ok (cells.map (formatCommand c.format)) ∧
      ∀ a, a ∈ cells ↔ IsLabelCell c dst y cx cs a := by
  induction cs generalizing cx with
  | nil => exact ⟨[], rfl, fun a => by simp [IsLabelCell]⟩
  | cons ch rest ih =>
    obtain ⟨later, hlater, mem_later⟩ := ih (labelExpressible_tail h)
    have first : cellEncodable c cx y = true ∨ cellOffFrame c cx y = true := by simpa using h 0 (by simp)
    simp only [isLabelCell_cons, labelCommands, hlater]
    cases hch : glyphIndex ch with
    | none => exact ⟨later, rfl, fun a => by simp [mem_later]⟩
    | some g =>
      by_cases encodable : cellEncodable c cx y = true
      · refine ⟨cellArgs c dst y cx g :: later, by simp [cellCommand_encodable dst g encodable], fun a => ?_⟩
        simp [mem_later, encodable]
      · refine ⟨later, by simp [cellCommand_omitted dst g encodable (first.resolve_left encodable)], fun a => ?_⟩
        simp [mem_later, encodable]

/-! ### Commands as accesses -/

/-- `WritePixel` of a format (R122, R143, R164). -/
def formatWriter : PixelFormat → WritePixel
  | .interleaved8 => writePixelI8
  | .planar8 => writePixelP8
  | .packed10 => writePixelP10

/-- The order the model gives a `DRAW` of a format. -/
def formatOrder (fmt : PixelFormat) (a : DrawArgs) : List Pixel := modelOrder (formatCommand fmt a)

theorem formatOrder_perm (fmt : PixelFormat) (a : DrawArgs) : VisitOrder a (formatOrder fmt a) := by
  cases fmt with
  | interleaved8 => exact i8Order_perm a
  | planar8 => exact List.Perm.refl _
  | packed10 => exact List.Perm.refl _

theorem exec_formatCommand (fmt : PixelFormat) (a : DrawArgs) (s : State) :
    exec (formatCommand fmt a) s = conclude s (drawCell (formatWriter fmt) (formatOrder fmt a) a s) := by
  cases fmt with
  | interleaved8 => exact exec_drawI8 a s
  | planar8 => exact exec_drawP8 a s
  | packed10 => exact exec_drawP10 a s

/-- Every access of a format reads the word it writes, or none does. -/
theorem formatWriter_loads (fmt : PixelFormat) : WriterLoads (formatWriter fmt) (fmt == .packed10) := by
  cases fmt with
  | interleaved8 => exact writePixelI8_loads
  | planar8 => exact writePixelP8_loads
  | packed10 => exact writePixelP10_loads

/-- The accesses a `DRAW` of a format makes (R64, R108). -/
def drawAccesses (fmt : PixelFormat) (rom : GlyphTable) (a : DrawArgs) : List Access :=
  match glyph? a.glyph with
  | none => []
  | some g => cellAccesses (formatWriter fmt) rom g a (formatOrder fmt a)

theorem drawCell_drawAccesses (fmt : PixelFormat) (a : DrawArgs) (s : State) :
    drawCell (formatWriter fmt) (formatOrder fmt a) a s =
      runAccesses (a.windowIn s) (drawAccesses fmt s.rom a) s.mem := by
  unfold drawAccesses
  cases hg : glyph? a.glyph with
  | none => simp only [drawCell, hg, runAccesses_nil]
  | some g => simp only [drawCell_eq_run hg]

theorem mem_drawAccesses {fmt : PixelFormat} {rom : GlyphTable} {a : DrawArgs} {z : Access} :
    z ∈ drawAccesses fmt rom a ↔ ∃ g, glyph? a.glyph = some g ∧ ∃ p ∈ a.visits,
      z ∈ formatWriter fmt a (a.sx p) (a.sy p) (cellInk rom g a p) := by
  unfold drawAccesses
  cases hg : glyph? a.glyph with
  | none => simp
  | some g => simp [cellAccesses, (formatOrder_perm fmt a).mem_iff]

/-- `DRAW` commands in one window run their accesses one after another, as one command would. -/
theorem runCommands_draws {fmt : PixelFormat} {cells : List DrawArgs} {s : State} {w : Window}
    (window : ∀ a ∈ cells, a.windowIn s = w)
    (done : (runAccesses w (cells.flatMap (drawAccesses fmt s.rom)) s.mem).ending = .done) :
    ∃ r, runCommands (cells.map (formatCommand fmt)) s =
      .next { s with mem := (runAccesses w (cells.flatMap (drawAccesses fmt s.rom)) s.mem).mem, reply := r } := by
  induction cells generalizing s with
  | nil => exact ⟨s.reply, rfl⟩
  | cons a cells ih =>
    obtain ⟨here, later⟩ := List.forall_mem_cons.1 window
    rw [List.flatMap_cons] at done ⊢
    have first := runAccesses_done_left done
    rw [runAccesses_append first] at done ⊢
    have runs : exec (formatCommand fmt a) s =
        .next { s with mem := (runAccesses w (drawAccesses fmt s.rom a) s.mem).mem, reply := some .done } := by
      rw [exec_formatCommand, drawCell_drawAccesses, here, conclude_of_done first]
    obtain ⟨r, hr⟩ := ih (s := { s with mem := _, reply := some .done }) later done
    exact ⟨r, by simp only [List.map_cons, runCommands, runs, hr]⟩

/-! ### The geometry of a cell -/

/-- An expressible cell has its own geometry as operands: no field is cut off (R61, R191, R199). -/
theorem cellArgs_geometry {c : HostConfig} {dst : Word} {y cx : Int} {g : BitVec 4} (h : cellEncodable c cx y = true) :
    (cellArgs c dst y cx g).X0 = cx ∧ (cellArgs c dst y cx g).Y0 = y ∧ (cellArgs c dst y cx g).CW = c.cellWidth ∧
      (cellArgs c dst y cx g).CH = c.cellHeight ∧ (cellArgs c dst y cx g).W = c.width ∧
      (cellArgs c dst y cx g).H = c.height := by
  simp only [cellEncodable, Bool.and_eq_true, fitsSigned_iff, decide_eq_true_eq] at h
  obtain ⟨⟨⟨⟨xlo, xhi⟩, ylo, yhi⟩, width⟩, height⟩ := h
  refine ⟨BitVec.toInt_ofInt_eq_self (by decide) xlo xhi, BitVec.toInt_ofInt_eq_self (by decide) ylo yhi, ?_, ?_, ?_, ?_⟩
  · exact (BitVec.toNat_ofNat ..).trans (Nat.mod_eq_of_lt (cellWidth_lt c))
  · exact (BitVec.toNat_ofNat ..).trans (Nat.mod_eq_of_lt c.cellSize.isLt)
  · exact (BitVec.toNat_ofNat ..).trans (Nat.mod_eq_of_lt width)
  · exact (BitVec.toNat_ofNat ..).trans (Nat.mod_eq_of_lt height)

/-- The operands the offsets of a frame depend on: its geometry and its base. -/
def frameArgs (c : HostConfig) (dst : Word) : DrawArgs :=
  { glyph := 0, x0 := 0, y0 := 0, cw := 0, ch := 0, width := .ofNat 32 c.width, height := .ofNat 32 c.height, base := dst }

theorem formatWriter_cellArgs (fmt : PixelFormat) (c : HostConfig) (dst : Word) (y cx : Int) (g : BitVec 4) :
    formatWriter fmt (cellArgs c dst y cx g) = formatWriter fmt (frameArgs c dst) := by
  cases fmt <;> rfl

theorem frameArgs_W (c : HostConfig) (dst : Word) : (frameArgs c dst).W = c.width % 2 ^ 32 := BitVec.toNat_ofNat ..

theorem frameArgs_B (c : HostConfig) (dst : Word) : (frameArgs c dst).B = dst.toNat := rfl

/-! ### The pixels of a label -/

section
variable {c : HostConfig} {x y : Int} {time : TimeCode} {sx sy px py : Nat} {g : Fin 12}

/-- A screen pixel shows one pixel of one character. -/
theorem labelShows_unique {px' py' : Nat} {g' : Fin 12} (h : LabelShows c x y time sx sy g px py)
    (h' : LabelShows c x y time sx sy g' px' py') : g = g' ∧ px = px' ∧ py = py' := by
  obtain ⟨i, ch, index, at_i, hindex, hg, hpx, hpy, -, -, hsx, hsy⟩ := h
  obtain ⟨i', ch', index', at_i', hindex', hg', hpx', hpy', -, -, hsx', hsy'⟩ := h'
  have sameColumn : i * c.cellWidth + px = i' * c.cellWidth + px' := by
    zify
    omega
  obtain ⟨rfl, rfl⟩ := rowMajor_inj hpx hpx' sameColumn
  obtain rfl := Option.some.inj (at_i.symm.trans at_i')
  obtain rfl := Option.some.inj (hindex.symm.trans hindex')
  exact ⟨Option.some.inj (hg.symm.trans hg'), rfl, by omega⟩

/-- What a label shows lies in its rectangle (R205). -/
theorem onLabel_of_labelShows (h : LabelShows c x y time sx sy g px py) : OnLabel c x y (label time).length sx sy := by
  obtain ⟨i, ch, index, at_i, -, -, hpx, hpy, width, height, hsx, hsy⟩ := h
  obtain ⟨inLabel, -⟩ := List.getElem?_eq_some_iff.1 at_i
  have cells : (i + 1) * c.cellWidth ≤ (label time).length * c.cellWidth := Nat.mul_le_mul_right _ inLabel
  zify [Nat.succ_mul] at cells
  have before : 0 ≤ (i : Int) * c.cellWidth := by positivity
  exact ⟨width, height, by omega, by omega, by omega, by omega⟩

/-- A pixel the label shows is in a cell on the frame, so its command is expressible. -/
theorem encodable_of_labelShows (expressible : LabelExpressible c x y (label time).length)
    (h : LabelShows c x y time sx sy g px py) :
    ∃ (i : Nat) (ch : Char) (index : BitVec 4), (label time)[i]? = some ch ∧ glyphIndex ch = some index ∧
      glyph? index = some g ∧ cellEncodable c (x + i * c.cellWidth) y = true ∧
      px < c.cellWidth ∧ py < c.cellHeight ∧ sx < c.width ∧ sy < c.height ∧
      (sx : Int) = x + i * c.cellWidth + px ∧ (sy : Int) = y + py := by
  obtain ⟨i, ch, index, at_i, hindex, hg, hpx, hpy, width, height, hsx, hsy⟩ := h
  obtain ⟨inLabel, -⟩ := List.getElem?_eq_some_iff.1 at_i
  have onFrame : ¬ cellOffFrame c (x + i * c.cellWidth) y = true := by
    simp only [cellOffFrame, Bool.or_eq_true, decide_eq_true_eq]
    omega
  exact ⟨i, ch, index, at_i, hindex, hg, (expressible i inLabel).resolve_right onFrame, hpx, hpy, width, height, hsx, hsy⟩

/-- A label that shows a pixel has a frame whose geometry fits a descriptor. -/
theorem frameArgs_of_labelShows (dst : Word) (expressible : LabelExpressible c x y (label time).length)
    (h : LabelShows c x y time sx sy g px py) : (frameArgs c dst).W = c.width ∧ (frameArgs c dst).H = c.height := by
  obtain ⟨i, ch, index, -, -, -, encodable, -⟩ := encodable_of_labelShows expressible h
  obtain ⟨-, -, -, -, width, height⟩ := cellArgs_geometry (dst := dst) (g := index) encodable
  exact ⟨width, height⟩

theorem onFrame_of_labelShows (dst : Word) (expressible : LabelExpressible c x y (label time).length)
    (h : LabelShows c x y time sx sy g px py) : sx < (frameArgs c dst).W ∧ sy < (frameArgs c dst).H := by
  obtain ⟨width, height, -⟩ := onLabel_of_labelShows h
  obtain ⟨W, H⟩ := frameArgs_of_labelShows dst expressible h
  exact ⟨W ▸ width, H ▸ height⟩

end

/-! ### The accesses of a label -/

/-- `z` is an access of the visit of a screen pixel that the label shows. -/
def LabelAccess (c : HostConfig) (dst : Word) (rom : GlyphTable) (x y : Int) (time : TimeCode) (z : Access) : Prop :=
  ∃ sx sy g px py, LabelShows c x y time sx sy g px py ∧
    z ∈ formatWriter c.format (frameArgs c dst) sx sy (ink rom g c.cellWidth c.cellHeight px py)

/-- The visits of the label's cells are those of the pixels it shows. -/
theorem labelAccess_iff {c : HostConfig} {dst : Word} {rom : GlyphTable} {x y : Int} {time : TimeCode}
    (expressible : LabelExpressible c x y (label time).length) (z : Access) :
    (∃ a, IsLabelCell c dst y x (label time) a ∧ z ∈ drawAccesses c.format rom a) ↔ LabelAccess c dst rom x y time z := by
  constructor
  · rintro ⟨_, ⟨i, ch, index, at_i, hindex, encodable, rfl⟩, hz⟩
    obtain ⟨X0, Y0, CW, CH, W, H⟩ := cellArgs_geometry (dst := dst) (g := index) encodable
    obtain ⟨g, hg, p, hp, hz⟩ := mem_drawAccesses.1 hz
    obtain ⟨hpx, hpy, -⟩ := (mem_visits _ p).1 hp
    obtain ⟨hsx, width⟩ := sx_of_visit hp
    obtain ⟨hsy, height⟩ := sy_of_visit hp
    rw [formatWriter_cellArgs, cellInk] at hz
    rw [CW] at hz hpx
    rw [CH] at hz hpy
    exact ⟨_, _, g, p.x, p.y, ⟨i, ch, index, at_i, hindex, hg, hpx, hpy, W ▸ width, H ▸ height,
      hsx.trans (congrArg (· + _) X0), hsy.trans (congrArg (· + _) Y0)⟩, hz⟩
  · rintro ⟨sx, sy, g, px, py, shown, hz⟩
    obtain ⟨i, ch, index, at_i, hindex, hg, encodable, hpx, hpy, width, height, hsx, hsy⟩ :=
      encodable_of_labelShows expressible shown
    obtain ⟨X0, Y0, CW, CH, W, H⟩ := cellArgs_geometry (dst := dst) (g := index) encodable
    refine ⟨_, ⟨i, ch, index, at_i, hindex, encodable, rfl⟩, mem_drawAccesses.2 ⟨g, hg, ⟨px, py⟩, ?_, ?_⟩⟩
    · rw [mem_visits, X0, Y0, CW, CH, W, H]
      dsimp only
      omega
    · rw [formatWriter_cellArgs, cellInk, DrawArgs.sx, DrawArgs.sy, X0, Y0, CW, CH, ← hsx, ← hsy]
      exact hz

/-- An in-place burn past validation performs the accesses of the label in the buffer's own window, and succeeds when they can
all be made (R199, R200, R201). -/
theorem burnInPlace_runs {buf : Word} {len : Nat} {time : TimeCode} {x y : Int} {s : State}
    (hw : s.cfg.width ≠ 0) (hh : s.cfg.height ≠ 0) (hlen : s.cfg.frameSize ≤ len)
    (expressible : LabelExpressible s.cfg x y (label time).length)
    (possible : ∀ z, LabelAccess s.cfg buf s.rom x y time z → z.Possible { base := buf.toNat, len := len } s.mem) :
    ∃ (xs : List Access) (t : State), (∀ z, z ∈ xs ↔ LabelAccess s.cfg buf s.rom x y time z) ∧
      (∀ z ∈ xs, z.loads = (s.cfg.format == .packed10)) ∧
      (runAccesses { base := buf.toNat, len := len } xs s.mem).ending = .done ∧
      burnInPlace (some buf) len time x y s = .next t ∧ t.reply = some (.status .success) ∧
      t.rom = s.rom ∧ t.cfg = s.cfg ∧ t.inputs = s.inputs ∧
      t.mem = (runAccesses { base := buf.toNat, len := len } xs s.mem).mem := by
  obtain ⟨cells, hl, mem_cells⟩ := labelCommands_cells buf expressible
  have accesses : ∀ z, z ∈ cells.flatMap (drawAccesses s.cfg.format s.rom) ↔ LabelAccess s.cfg buf s.rom x y time z :=
    fun z => by simp only [List.mem_flatMap, mem_cells, labelAccess_iff expressible]
  have loads : ∀ z ∈ cells.flatMap (drawAccesses s.cfg.format s.rom), z.loads = (s.cfg.format == .packed10) := by
    intro z hz
    obtain ⟨sx, sy, g, px, py, -, hz⟩ := (accesses z).1 hz
    exact formatWriter_loads _ _ _ _ _ z hz
  have done := (runAccesses_done_iff loads).2 fun z hz => possible z ((accesses z).1 hz)
  have window : ∀ a ∈ cells, a.windowIn { s with window := len } = { base := buf.toNat, len := len } := by
    intro a ha
    obtain ⟨i, ch, g, -, -, -, rfl⟩ := (mem_cells a).1 ha
    rfl
  obtain ⟨r, hrun⟩ := runCommands_draws (s := { s with window := len }) window done
  exact ⟨_, _, accesses, loads, done, burnInPlace_of_runs hw hh hlen hl hrun, rfl, rfl, rfl, rfl, rfl⟩

end Sys2Proof.Machine

/-! PROOFS. A label in an 8-bit format (R205). The pixels a label shows have luma bytes of their own where those of the frame
are told apart, and every chroma byte gets one value, so all its stores can be read back. -/
namespace Sys2Proof.Machine

section
variable {c : HostConfig} {dst : Word} {rom : GlyphTable} {x y : Int} {time : TimeCode} {luma : Nat → Nat → Nat}
  {chroma : Nat → Prop}

/-- No chroma byte is the luma byte of a frame pixel, and no two frame pixels share a luma byte. -/
def OwnLuma (a : DrawArgs) (luma : Nat → Nat → Nat) (chroma : Nat → Prop) : Prop :=
  ∀ sx sy, sx < a.W → sy < a.H → ¬ chroma (luma sx sy) ∧
    ∀ sx' sy', sx' < a.W → sy' < a.H → luma sx sy = luma sx' sy' → sx = sx' ∧ sy = sy'

/-- The stores of a label are pairwise compatible where every frame pixel has its own luma byte. -/
theorem labelAccess_compatible (expressible : LabelExpressible c x y (label time).length)
    (writer : EightBitWriter (formatWriter c.format) (frameArgs c dst) luma chroma) (own : OwnLuma (frameArgs c dst) luma chroma)
    {z z' : Access} (hz : LabelAccess c dst rom x y time z) (hz' : LabelAccess c dst rom x y time z') : z.Compatible z' := by
  obtain ⟨sx, sy, g, px, py, shown, hz⟩ := hz
  obtain ⟨sx', sy', g', px', py', shown', hz'⟩ := hz'
  obtain ⟨hx, hy⟩ := onFrame_of_labelShows dst expressible shown
  obtain ⟨hx', hy'⟩ := onFrame_of_labelShows dst expressible shown'
  obtain ⟨noChroma, told⟩ := own sx sy hx hy
  obtain ⟨noChroma', -⟩ := own sx' sy' hx' hy'
  obtain rfl | ⟨off, isChroma, rfl⟩ := writer _ _ _ z hz
  · obtain rfl | ⟨off', isChroma', rfl⟩ := writer _ _ _ z' hz'
    · refine compatible_store fun same => ?_
      obtain ⟨rfl, rfl⟩ := told sx' sy' hx' hy' (Nat.add_left_cancel same)
      obtain ⟨rfl, rfl, rfl⟩ := labelShows_unique shown shown'
      rfl
    · exact compatible_store fun same => absurd isChroma' (Nat.add_left_cancel same ▸ noChroma)
  · obtain rfl | ⟨off', isChroma', rfl⟩ := writer _ _ _ z' hz'
    · exact compatible_store fun same => absurd isChroma (Nat.add_left_cancel same ▸ noChroma')
    · exact compatible_store fun _ => rfl

end

/-- An in-place burn in an 8-bit format whose stores lie in the buffer succeeds; every store of the label can be read back, and
every other byte is as before. -/
theorem eightBitBurn_leaves {luma : Nat → Nat → Nat} {chroma : Nat → Prop} {buf : Word} {len : Nat} {time : TimeCode} {x y : Int}
    {s : State} (hw : s.cfg.width ≠ 0) (hh : s.cfg.height ≠ 0) (hlen : s.cfg.frameSize ≤ len)
    (expressible : LabelExpressible s.cfg x y (label time).length)
    (writer : EightBitWriter (formatWriter s.cfg.format) (frameArgs s.cfg buf) luma chroma)
    (own : OwnLuma (frameArgs s.cfg buf) luma chroma)
    (possible : ∀ z, LabelAccess s.cfg buf s.rom x y time z → z.Possible { base := buf.toNat, len := len } s.mem) :
    ∃ t, burnInPlace (some buf) len time x y s = .next t ∧ t.reply = some (.status .success) ∧
      t.rom = s.rom ∧ t.cfg = s.cfg ∧ t.inputs = s.inputs ∧
      (∀ z, LabelAccess s.cfg buf s.rom x y time z → z.Holds t.mem) ∧
      ∀ addr, (∀ z, LabelAccess s.cfg buf s.rom x y time z → addr < z.addr ∨ z.addr + z.size ≤ addr) →
        t.mem.read? addr = s.mem.read? addr := by
  obtain ⟨xs, t, accesses, loads, done, burnt, reply, hrom, hcfg, hinputs, hmem⟩ :=
    burnInPlace_runs hw hh hlen expressible possible
  refine ⟨t, burnt, reply, hrom, hcfg, hinputs, fun z hz => ?_, fun addr apart => ?_⟩
  · rw [hmem]
    exact runAccesses_holds loads done ((accesses z).2 hz) fun z' hz' =>
      labelAccess_compatible expressible writer own ((accesses z').1 hz') hz
  · rw [hmem]
    exact runAccesses_frame _ _ fun z hz => apart z ((accesses z).1 hz)

/-! ### Interleaved8 of even width -/

theorem interleaved_ownLuma {a : DrawArgs} (hw : a.W % 2 = 0) : OwnLuma a (i8LumaOff a) (· % 2 = 0) := by
  refine fun sx sy hx _ => ⟨i8LumaOff_not_chroma a sx sy, fun sx' sy' hx' _ same => ?_⟩
  rw [i8LumaOff_of_even hw, i8LumaOff_of_even hw] at same
  exact p8LumaIdx_inj hx hx' (by omega)

/-- The stores of a shown pixel of an even frame, at the offsets of R126, all inside the buffer. -/
theorem interleaved_stores {c : HostConfig} {x y : Int} {time : TimeCode} {sx sy px py : Nat} {g : Fin 12} (dst : Word)
    (even : c.width % 2 = 0) (expressible : LabelExpressible c x y (label time).length)
    (shown : LabelShows c x y time sx sy g px py) (k : Bool) :
    writePixelI8 (frameArgs c dst) sx sy k =
      [ .store (dst.toNat + (sy * (2 * c.width) + 2 * sx + 1)) (luma8 k),
        .store (dst.toNat + (sy * (2 * c.width) + sx / 2 * 4)) c8Neutral,
        .store (dst.toNat + (sy * (2 * c.width) + sx / 2 * 4 + 2)) c8Neutral ] ∧
    sy * (2 * c.width) + 2 * sx + 1 < 2 * c.width * c.height ∧
    sy * (2 * c.width) + sx / 2 * 4 + 2 < 2 * c.width * c.height := by
  obtain ⟨W, H⟩ := frameArgs_of_labelShows dst expressible shown
  obtain ⟨hx, hy⟩ := onFrame_of_labelShows dst expressible shown
  obtain ⟨-, -, luma, chroma1, chroma2, -, luma_lt, -, chroma2_lt⟩ :=
    interleavedOffsetsForEvenWidth (frameArgs c dst) sx sy (W ▸ even) hx hy
  rw [W] at luma chroma1 chroma2
  rw [luma, W, H] at luma_lt
  rw [chroma2, W, H] at chroma2_lt
  rw [writePixelI8, luma, chroma1, chroma2, frameArgs_B]
  exact ⟨rfl, luma_lt, chroma2_lt⟩

/-- Settles O51: the label's stores lie in the buffer at the offsets of R126, and can all be read back. -/
theorem interleavedBurnLeavesTheLabel : Obligations.InterleavedBurnLeavesTheLabel := by
  intro buf len time x y s hfmt hw hh even size inSpace expressible
  have frameSize : s.cfg.frameSize = 2 * s.cfg.width * s.cfg.height := by
    simp only [HostConfig.frameSize, expectedSize, hfmt]
    rw [Nat.mul_comm, Nat.mul_assoc]
  have evenFrame : (frameArgs s.cfg buf).W % 2 = 0 := by rw [frameArgs_W]; omega
  have writer : formatWriter s.cfg.format = writePixelI8 := by rw [hfmt]; rfl
  have possible : ∀ z, LabelAccess s.cfg buf s.rom x y time z → z.Possible { base := buf.toNat, len := len } s.mem := by
    rintro z ⟨sx, sy, g, px, py, shown, hz⟩
    obtain ⟨stores, luma, chroma⟩ := interleaved_stores buf even expressible shown
      (ink s.rom g s.cfg.cellWidth s.cfg.cellHeight px py)
    rw [writer, stores] at hz
    revert z
    simp only [List.forall_mem_cons, possible_store, covers_iff]
    exact ⟨by omega, by omega, by omega, nofun⟩
  obtain ⟨t, burnt, reply, rom, cfg, inputs, holds, frame⟩ :=
    eightBitBurn_leaves hw hh (frameSize ▸ size) expressible (writer ▸ writePixelI8_writer _) (interleaved_ownLuma evenFrame)
      possible
  refine ⟨t, burnt, reply, rom, cfg, inputs, fun sx sy px py g shown => ?_, fun addr untouched => frame addr ?_⟩
  · obtain ⟨stores, -⟩ := interleaved_stores buf even expressible shown (ink s.rom g s.cfg.cellWidth s.cfg.cellHeight px py)
    have visited : ∀ z ∈ writePixelI8 (frameArgs s.cfg buf) sx sy (ink s.rom g s.cfg.cellWidth s.cfg.cellHeight px py),
        z.Holds t.mem := fun z hz => holds z ⟨sx, sy, g, px, py, shown, writer ▸ hz⟩
    simpa [stores, Access.Holds, luma8, y8Fg, y8Bg, c8Neutral] using visited
  · rintro z ⟨sx, sy, g, px, py, shown, hz⟩
    obtain ⟨stores, -⟩ := interleaved_stores buf even expressible shown (ink s.rom g s.cfg.cellWidth s.cfg.cellHeight px py)
    have apart := untouched sx sy (onLabel_of_labelShows shown)
    rw [writer, stores] at hz
    revert z
    simpa only [List.forall_mem_cons, outside_store, List.not_mem_nil, false_implies, implies_true, and_true] using apart

end Sys2Proof.Machine

/-! PROOFS. Where the bytes of a Planar8 pixel lie in its frame (R141, R142). A chroma row ends where the next begins, so the
index of a pixel stays below the `floor(W / 2) * H` bytes of its plane, but for the last column of an odd frame; and there the
plane has `floor(H / 2)` bytes to spare (R147). -/
namespace Sys2Proof.Machine

/-- The bytes of a chroma plane's rows: `floor(W / 2)` in each (R141). -/
def p8ChromaBytes (a : DrawArgs) : Nat := a.H * (a.W / 2)

/-- Frame rows are two chroma rows long, and one pixel more when `W` is odd. -/
theorem p8C1_eq_chromaBytes (a : DrawArgs) : p8C1 a = 2 * p8ChromaBytes a + a.H * (a.W % 2) := by
  calc a.W * a.H = a.H * (2 * (a.W / 2) + a.W % 2) := by rw [Nat.div_add_mod, Nat.mul_comm]
    _ = 2 * (a.H * (a.W / 2)) + a.H * (a.W % 2) := by rw [Nat.mul_add, Nat.mul_left_comm]

theorem p8C1_of_even {a : DrawArgs} (hw : a.W % 2 = 0) : p8C1 a = 2 * p8ChromaBytes a := by
  rw [p8C1_eq_chromaBytes, hw, Nat.mul_zero, Nat.add_zero]

theorem p8C1_of_odd {a : DrawArgs} (hw : a.W % 2 = 1) : p8C1 a = 2 * p8ChromaBytes a + a.H := by
  rw [p8C1_eq_chromaBytes, hw, Nat.mul_one]

/-- For odd `W` the rows of a chroma plane take `H * (W - 1) / 2` bytes, the bound of R147. -/
theorem p8ChromaBytes_of_odd {a : DrawArgs} (hw : a.W % 2 = 1) : p8ChromaBytes a = a.H * (a.W - 1) / 2 := by
  rw [p8ChromaBytes, Nat.mul_div_assoc _ (show 2 ∣ a.W - 1 by omega)]
  congr 1
  omega

/-- A chroma index lies as far below the end of the plane's rows as its column from the end of its row. -/
theorem p8ChromaIdx_add_le {a : DrawArgs} {sx sy : Nat} (hy : sy < a.H) :
    p8ChromaIdx a sx sy + a.W / 2 ≤ p8ChromaBytes a + sx / 2 := by
  have rows : (sy + 1) * (a.W / 2) ≤ p8ChromaBytes a := Nat.mul_le_mul_right _ hy
  rw [Nat.succ_mul] at rows
  unfold p8ChromaIdx
  omega

theorem p8ChromaIdx_lt_of_even {a : DrawArgs} {sx sy : Nat} (hw : a.W % 2 = 0) (hx : sx < a.W) (hy : sy < a.H) :
    p8ChromaIdx a sx sy < p8ChromaBytes a := by
  have index := p8ChromaIdx_add_le (sx := sx) hy
  omega

theorem p8ChromaIdx_le {a : DrawArgs} {sx sy : Nat} (hx : sx < a.W) (hy : sy < a.H) :
    p8ChromaIdx a sx sy ≤ p8ChromaBytes a := by
  have index := p8ChromaIdx_add_le (sx := sx) hy
  omega

theorem p8C2_eq (a : DrawArgs) : p8C2 a = p8C1 a + p8C1 a / 2 := rfl

/-- The buffer holds the second chroma byte of every pixel. -/
theorem p8C2_add_chromaIdx_lt {a : DrawArgs} {sx sy : Nat} (hx : sx < a.W) (hy : sy < a.H) :
    p8C2 a + p8ChromaIdx a sx sy < 2 * p8C1 a := by
  rw [p8C2_eq]
  obtain even | odd := Nat.mod_two_eq_zero_or_one a.W
  · have frame := p8C1_of_even even
    have index := p8ChromaIdx_lt_of_even even hx hy
    omega
  · have frame := p8C1_of_odd odd
    have index := p8ChromaIdx_le hx hy
    omega

/-- The buffer holds the three bytes of every pixel (R147). -/
theorem p8_offsets_lt {a : DrawArgs} {sx sy : Nat} (hx : sx < a.W) (hy : sy < a.H) :
    p8LumaIdx a sx sy < 2 * a.W * a.H ∧ p8C1 a + p8ChromaIdx a sx sy < 2 * a.W * a.H ∧
      p8C2 a + p8ChromaIdx a sx sy < 2 * a.W * a.H := by
  have luma := p8LumaIdx_lt hx hy
  have planes := p8C1_le_p8C2 a
  have chroma2 := p8C2_add_chromaIdx_lt hx hy
  rw [show 2 * a.W * a.H = 2 * p8C1 a from Nat.mul_assoc _ _ _]
  exact ⟨by omega, by omega, chroma2⟩

theorem expectedSize_planar8 (w h : Nat) : expectedSize .planar8 w h = 2 * w * h := by
  rw [expectedSize, Nat.mul_comm, Nat.mul_assoc]

/-- A `DRAW.P8` completes when its window holds a buffer of the expected size. -/
theorem execDrawP8_completes {a : DrawArgs} {s : State} (size : 2 * a.W * a.H ≤ s.window)
    (inSpace : a.B + 2 * a.W * a.H ≤ 2 ^ Config.addrBits) : Completes (exec (.drawP8 a) s) := by
  cases hg : glyph? a.glyph with
  | none => exact ⟨_, by rw [exec_drawP8, drawCell_nothing (List.Perm.refl _) (.inl hg), conclude_done]⟩
  | some g =>
    have covered : ∀ p ∈ a.visits, (a.windowIn s).covers (a.B + p8LumaIdx a (a.sx p) (a.sy p)) 1 = true ∧
        (a.windowIn s).covers (a.B + p8C1 a + p8ChromaIdx a (a.sx p) (a.sy p)) 1 = true ∧
        (a.windowIn s).covers (a.B + p8C2 a + p8ChromaIdx a (a.sx p) (a.sy p)) 1 = true := by
      intro p hp
      obtain ⟨luma, chroma1, chroma2⟩ := p8_offsets_lt (sx_of_visit hp).2 (sy_of_visit hp).2
      simp only [covers_iff, windowIn_base, windowIn_len]
      omega
    obtain ⟨t, ht, -⟩ := drawP8WritesItsCell a s g hg covered
    exact ⟨t, ht⟩

/-- Settles O23: the bounds follow from the rows of the planes, for even and for odd `W`. -/
theorem planarStoresStayInTheBuffer : Obligations.PlanarStoresStayInTheBuffer := by
  refine ⟨fun a sx sy hx hy => ?_, fun a s size inSpace => ?_⟩
  · have luma := p8LumaIdx_lt hx hy
    have size : 2 * a.W * a.H = 2 * p8C1 a := Nat.mul_assoc _ _ _
    have pixels : a.W * a.H = p8C1 a := rfl
    refine ⟨Nat.le_sub_one_of_lt luma, fun even => ?_, fun odd => ?_, p8_offsets_lt hx hy⟩
    · have frame := p8C1_of_even even
      have index := p8ChromaIdx_lt_of_even even hx hy
      rw [p8C2_eq, pixels, size]
      omega
    · have frame := p8C1_of_odd odd
      have index := p8ChromaIdx_le hx hy
      rw [p8C2_eq, pixels, size, ← p8ChromaBytes_of_odd odd]
      omega
  · rw [expectedSize_planar8] at size inSpace
    exact execDrawP8_completes size inSpace

end Sys2Proof.Machine

/-! PROOFS. A Planar8 label in place (R205): the frame's luma bytes lie before its chroma planes, each pixel's its own. -/
namespace Sys2Proof.Machine

theorem planar_ownLuma (a : DrawArgs) : OwnLuma a (p8LumaIdx a) (p8C1 a ≤ ·) :=
  fun _ _ hx hy => ⟨p8LumaIdx_not_chroma hx hy, fun _ _ hx' _ same => p8LumaIdx_inj hx hx' same⟩

section
variable {c : HostConfig} {dst : Word} {rom : GlyphTable} {x y : Int} {time : TimeCode}

/-- The stores of a Planar8 label are three for each pixel it shows, at the offsets of R141 and R142 in the host's own frame. -/
theorem forall_planarLabelAccess {P : Access → Prop} (planar : c.format = .planar8)
    (expressible : LabelExpressible c x y (label time).length) :
    (∀ z, LabelAccess c dst rom x y time z → P z) ↔
      ∀ sx sy g px py, LabelShows c x y time sx sy g px py →
        P (.store (dst.toNat + (sy * c.width + sx)) (luma8 (ink rom g c.cellWidth c.cellHeight px py))) ∧
        P (.store (dst.toNat + c.width * c.height + (sy * (c.width / 2) + sx / 2)) c8Neutral) ∧
        P (.store (dst.toNat + (c.width * c.height + c.width * c.height / 2) + (sy * (c.width / 2) + sx / 2)) c8Neutral) := by
  have stores : ∀ sx sy g px py, LabelShows c x y time sx sy g px py → ∀ k,
      formatWriter c.format (frameArgs c dst) sx sy k =
        [.store (dst.toNat + (sy * c.width + sx)) (luma8 k),
          .store (dst.toNat + c.width * c.height + (sy * (c.width / 2) + sx / 2)) c8Neutral,
          .store (dst.toNat + (c.width * c.height + c.width * c.height / 2) + (sy * (c.width / 2) + sx / 2)) c8Neutral] := by
    intro sx sy g px py shown k
    obtain ⟨W, H⟩ := frameArgs_of_labelShows dst expressible shown
    rw [planar, formatWriter, writePixelP8, p8C1, p8C2, p8LumaIdx, p8ChromaIdx, frameArgs_B, W, H]
  constructor
  · intro every sx sy g px py shown
    have visit : ∀ z ∈ formatWriter c.format (frameArgs c dst) sx sy (ink rom g c.cellWidth c.cellHeight px py), P z :=
      fun z hz => every z ⟨sx, sy, g, px, py, shown, hz⟩
    simpa [stores sx sy g px py shown] using visit
  · rintro every z ⟨sx, sy, g, px, py, shown, hz⟩
    rw [stores sx sy g px py shown] at hz
    revert z
    simpa using every sx sy g px py shown

end

/-- The stores of a shown pixel lie in a buffer of the expected size. -/
theorem planarLabel_offsets_lt {c : HostConfig} {x y : Int} {time : TimeCode} {sx sy px py : Nat} {g : Fin 12}
    (expressible : LabelExpressible c x y (label time).length) (shown : LabelShows c x y time sx sy g px py) :
    sy * c.width + sx < 2 * c.width * c.height ∧
      c.width * c.height + (sy * (c.width / 2) + sx / 2) < 2 * c.width * c.height ∧
      c.width * c.height + c.width * c.height / 2 + (sy * (c.width / 2) + sx / 2) < 2 * c.width * c.height := by
  obtain ⟨W, H⟩ := frameArgs_of_labelShows 0 expressible shown
  obtain ⟨hx, hy⟩ := onFrame_of_labelShows 0 expressible shown
  simpa only [p8C1, p8C2, p8LumaIdx, p8ChromaIdx, W, H] using p8_offsets_lt hx hy

/-- Settles O48: the label's stores lie in the buffer at the offsets of R141 and R142, and can all be read back. -/
theorem planarBurnLeavesTheLabel : Obligations.PlanarBurnLeavesTheLabel := by
  intro buf len time x y s planar hw hh size inSpace encodable
  have expressible : LabelExpressible s.cfg x y (label time).length := fun i hi => .inl (encodable i hi)
  have frameSize : s.cfg.frameSize = 2 * s.cfg.width * s.cfg.height := by
    rw [HostConfig.frameSize, planar, expectedSize_planar8]
  have writer : EightBitWriter (formatWriter s.cfg.format) (frameArgs s.cfg buf) (p8LumaIdx (frameArgs s.cfg buf))
      (p8C1 (frameArgs s.cfg buf) ≤ ·) := planar ▸ writePixelP8_writer _
  have possible : ∀ z, LabelAccess s.cfg buf s.rom x y time z → z.Possible { base := buf.toNat, len := len } s.mem := by
    refine (forall_planarLabelAccess planar expressible).2 fun sx sy g px py shown => ?_
    have inBuffer := planarLabel_offsets_lt expressible shown
    simp only [possible_store, covers_iff]
    omega
  obtain ⟨t, burnt, reply, rom, cfg, inputs, holds, frame⟩ :=
    eightBitBurn_leaves hw hh (frameSize ▸ size) expressible writer (planar_ownLuma _) possible
  refine ⟨t, burnt, reply, rom, cfg, inputs, ?_, fun addr untouched => frame addr ?_⟩
  · intro i px py sx sy ch index g at_i hindex hg hpx hpy width height hsx hsy
    rw [Nat.add_assoc]
    exact (forall_planarLabelAccess planar expressible).1 holds sx sy g px py
      ⟨i, ch, index, at_i, hindex, hg, hpx, hpy, width, height, hsx, hsy⟩
  · refine (forall_planarLabelAccess planar expressible).2 fun sx sy g px py shown => ?_
    obtain ⟨width, height, left, right, top, bottom⟩ := onLabel_of_labelShows shown
    simpa only [outside_store, Nat.add_assoc] using untouched sx sy width height left right top bottom

end Sys2Proof.Machine

/-! PROOFS. `Set10` (R162): of the 32 bits of its word it replaces the ten of one slot, so it keeps every run of bits apart from
them (D19), and it stops where the word cannot be read. -/
namespace Sys2Proof.Machine

theorem readWord_writeWord_same (m : Memory) (a : Nat) (v : Word) : (m.writeWord a v).readWord? a = some v := by
  have bytes : ∀ i, i < 4 → (m.writeWord a v).read? (a + i) = some (wordByte v i) := by
    intro i hi
    rw [read_writeWord]
    obtain rfl | rfl | rfl | rfl : i = 0 ∨ i = 1 ∨ i = 2 ∨ i = 3 := by omega
    all_goals simp
  have byte0 := bytes 0 (by decide)
  rw [Nat.add_zero] at byte0
  simp only [Memory.readWord?, byte0, bytes 1 (by decide), bytes 2 (by decide), bytes 3 (by decide), wordOfBytes_wordByte]

/-- The slot a field write names reads as the value written (R162). -/
theorem extract_withSlot_same (old : Word) (s : Fin 3) (x : BitVec 10) :
    (withSlot old s x).extractLsb' (10 * s.val) 10 = x := by
  refine BitVec.eq_of_getLsbD_eq fun i hi => ?_
  rw [BitVec.getLsbD_extractLsb', getLsbD_withSlot old s x (by omega), if_pos (by omega), Nat.add_sub_cancel_left]
  simp [hi]

/-- A run of bits apart from the slot a field write names reads as before (R162, D19). -/
theorem extract_withSlot_apart (old : Word) (s : Fin 3) (x : BitVec 10) {lo n : Nat} (hn : lo + n ≤ 32)
    (apart : lo + n ≤ 10 * s.val ∨ 10 * s.val + 10 ≤ lo) :
    (withSlot old s x).extractLsb' lo n = old.extractLsb' lo n := by
  refine BitVec.eq_of_getLsbD_eq fun i hi => ?_
  rw [BitVec.getLsbD_extractLsb', BitVec.getLsbD_extractLsb', getLsbD_withSlot old s x (by omega), if_neg (by omega)]

/-- Settles O15: the word written is the old one with a slot replaced, and a word that cannot be read stops the access. -/
theorem set10ChangesOneField : Obligations.Set10ChangesOneField := by
  intro w a k x m
  refine ⟨fun outside => ?_, fun covered unread => ?_, fun old covered hold => ?_⟩
  · exact (set10_error _ _ _ _ _ _).2 (.inl ⟨outside, rfl⟩)
  · exact (set10_error _ _ _ _ _ _).2 (.inr ⟨covered, unread, rfl⟩)
  · refine ⟨m.writeWord a (withSlot old k x), withSlot old k x, (set10_ok _ _ _ _ _ _).2 ⟨old, covered, hold, rfl⟩,
      readWord_writeWord_same _ _ _, extract_withSlot_same old k x, fun j other => ?_, ?_, fun addr outside => ?_⟩
    · exact extract_withSlot_apart old k x (by omega) (by omega)
    · exact extract_withSlot_apart old k x (by decide) (by omega)
    · exact read_writeWord_outside m _ outside

end Sys2Proof.Machine

/-! PROOFS. Where the words of a Packed10 pixel lie in its frame (R161, R168): in the pixel's scan line, and so in the
`ceil(W / 6) * 16 * H` bytes of the buffer. A `DRAW.P10` whose window holds the buffer can then stop only at a word that holds
no value. -/
namespace Sys2Proof.Machine

theorem expectedSize_packed10 (w h : Nat) : expectedSize .packed10 w h = (w + 5) / 6 * 16 * h := rfl

/-- The buffer has four words for each block of each scan line (R160, R161). -/
theorem expectedSize_eq_words (a : DrawArgs) : expectedSize .packed10 a.W a.H = 4 * (a.H * p10Blocks a.W * 4) := by
  unfold expectedSize p10Stride p10BlockWords p10WordBytes
  ring

/-- The words of a frame pixel's block are words of the buffer (R168). -/
theorem p10WordIdx_lt {a : DrawArgs} {sx sy : Nat} (hx : sx < a.W) (hy : sy < a.H) (ws : WordSlot) :
    p10WordIdx a sx sy ws < a.H * p10Blocks a.W * 4 := by
  have block : sx / 6 < p10Blocks a.W := inBlocks_of_lt hx
  have lines : (sy + 1) * p10Blocks a.W ≤ a.H * p10Blocks a.W := Nat.mul_le_mul_right _ hy
  rw [Nat.succ_mul] at lines
  have word := ws.word.isLt
  unfold p10WordIdx
  omega

/-- The bytes of a frame pixel's words lie in the buffer (R168). -/
theorem p10Addr_in_buffer {a : DrawArgs} {sx sy : Nat} (hx : sx < a.W) (hy : sy < a.H) (ws : WordSlot) :
    a.B ≤ p10Addr a sx sy ws ∧ p10Addr a sx sy ws + 4 ≤ a.B + expectedSize .packed10 a.W a.H := by
  have word := p10WordIdx_lt hx hy ws
  rw [p10Addr_eq, expectedSize_eq_words]
  omega

section
variable {a : DrawArgs} {sx sy : Nat} (hx : sx < a.W) (hy : sy < a.H)
include hx hy

/-- A window that holds the buffer covers the words of a frame pixel (R41, R168). -/
theorem p10Addr_covered {w : Window} (base : w.base = a.B) (size : expectedSize .packed10 a.W a.H ≤ w.len)
    (inSpace : a.B + expectedSize .packed10 a.W a.H ≤ 2 ^ Config.addrBits) (ws : WordSlot) :
    w.covers (p10Addr a sx sy ws) 4 = true := by
  have inBuffer := p10Addr_in_buffer hx hy ws
  rw [covers_iff]
  omega

/-- The words of a frame pixel hold values when the buffer does (R48). -/
theorem p10Addr_readable {m : Memory} (holds : m.initialised a.B (expectedSize .packed10 a.W a.H)) (ws : WordSlot) :
    (m.readWord? (p10Addr a sx sy ws)).isSome = true := by
  have inBuffer := p10Addr_in_buffer hx hy ws
  refine (readWord_isSome _ _).2 fun i hi => ?_
  obtain ⟨off, place⟩ := Nat.exists_eq_add_of_le (show a.B ≤ p10Addr a sx sy ws + i by omega)
  rw [place]
  exact holds off (by omega)

/-- An access of a frame pixel's visit is possible when the window holds the buffer and the buffer holds values. -/
theorem writePixelP10_possible {w : Window} {m : Memory} {k : Bool} {x : Access} (hmem : x ∈ writePixelP10 a sx sy k)
    (base : w.base = a.B) (size : expectedSize .packed10 a.W a.H ≤ w.len)
    (inSpace : a.B + expectedSize .packed10 a.W a.H ≤ 2 ^ Config.addrBits)
    (holds : m.initialised a.B (expectedSize .packed10 a.W a.H)) : x.Possible w m := by
  obtain ⟨ws, -, v, rfl⟩ := exists_field_of_mem hmem
  exact ⟨p10Addr_covered hx hy base size inSpace ws, fun _ => p10Addr_readable hx hy holds ws⟩

end

/-- Accesses inside the window stop at no window fault (R41). -/
theorem runAccesses_inWindow {w : Window} {xs : List Access} (covered : ∀ x ∈ xs, w.covers x.addr x.size = true) (m : Memory) :
    (runAccesses w xs m).ending ≠ .fault .outOfWindow := by
  induction xs generalizing m with
  | nil => nofun
  | cons x xs ih =>
    obtain ⟨here, later⟩ := List.forall_mem_cons.1 covered
    cases hx : x.perform w m with
    | ok m' => rw [runAccesses_cons_ok _ hx]; exact ih later m'
    | error f =>
      rw [runAccesses_cons_error _ hx]
      rintro ⟨⟩
      cases x with
      | store a v =>
        obtain ⟨outside, -⟩ := (memWrite8_error _ _ _ _ _).1 hx
        exact Bool.false_ne_true (outside.symm.trans here)
      | setField a s v =>
        obtain ⟨outside, -⟩ | ⟨-, -, uninitialised⟩ := (set10_error _ _ _ _ _ _).1 hx
        · exact Bool.false_ne_true (outside.symm.trans here)
        · cases uninitialised

theorem ending_of_conclude_fault {s : State} {T : Transaction} {f : Fault} (h : conclude s T = .fault f) :
    T.ending = .fault f := by
  unfold conclude at h
  split at h <;> cases h
  assumption

section
variable {a : DrawArgs} {s : State} (size : expectedSize .packed10 a.W a.H ≤ s.window)
  (inSpace : a.B + expectedSize .packed10 a.W a.H ≤ 2 ^ Config.addrBits)
include size inSpace

/-- A `DRAW.P10` whose window holds the buffer stops at no window fault (R168). -/
theorem execDrawP10_inWindow : exec (.drawP10 a) s ≠ .fault .outOfWindow := by
  intro h
  rw [exec_drawP10] at h
  have faults := ending_of_conclude_fault h
  obtain ⟨-, hd⟩ | ⟨g, -, hd⟩ := drawCell_cases writePixelP10 a.visits a s
  · rw [hd] at faults; cases faults
  · rw [hd] at faults
    refine runAccesses_inWindow ((forVisits_iff (List.Perm.refl _)).1 fun p hp x hx => ?_) _ faults
    obtain ⟨ws, -, v, rfl⟩ := exists_field_of_mem hx
    exact p10Addr_covered (sx_of_visit hp).2 (sy_of_visit hp).2 rfl size inSpace ws

/-- A `DRAW.P10` whose window holds a buffer of values completes. -/
theorem execDrawP10_completes (holds : s.mem.initialised a.B (expectedSize .packed10 a.W a.H)) :
    Completes (exec (.drawP10 a) s) := by
  rw [exec_drawP10]
  cases hg : glyph? a.glyph with
  | none => exact ⟨_, by rw [drawCell_nothing (List.Perm.refl _) (.inl hg), conclude_done]⟩
  | some g =>
    obtain ⟨t, ht, -⟩ := draw_completes (s := s) hg (List.Perm.refl _) writePixelP10_loads fun p hp x hx =>
      writePixelP10_possible (sx_of_visit hp).2 (sy_of_visit hp).2 hx rfl size inSpace holds
    exact ⟨t, ht⟩

end

/-- Settles O26: the words of a frame pixel lie in its scan line and in the buffer. -/
theorem packedAccessesStayInTheBuffer : Obligations.PackedAccessesStayInTheBuffer := by
  refine ⟨fun a sx sy hx hy => ?_, fun a s size inSpace => ?_⟩
  · have stride : p10Stride a.W = (a.W + 5) / 6 * 16 := rfl
    refine ⟨by omega, by omega, by omega, by omega, fun w k hk => ?_⟩
    obtain ⟨-, inBuffer⟩ := p10Addr_in_buffer hx hy ⟨w, 0⟩
    rw [p10Addr, expectedSize_packed10] at inBuffer
    dsimp only at inBuffer
    omega
  · exact ⟨execDrawP10_inWindow size inSpace, execDrawP10_completes size inSpace⟩

end Sys2Proof.Machine

/-! PROOFS. A gray Packed10 buffer (R170). A chroma field is one that some visit sets to 512, or one no visit writes, which the
gray word already holds at 512; a luma field of a pixel the cell does not show is one no visit writes. -/
namespace Sys2Proof.Machine

/-- Every word of the frame is gray: each of its three fields is 512. -/
def GrayFrame (a : DrawArgs) (m : Memory) : Prop :=
  ∀ k : Nat, 4 * k < expectedSize .packed10 a.W a.H → m.readWord? (a.B + 4 * k) = some 0x20080200

theorem slotOf_gray : ∀ sl : Fin 3, slotOf 0x20080200 sl = 512 := by decide

theorem get10_gray {a : DrawArgs} {m : Memory} (gray : GrayFrame a m) {sx sy : Nat} (hx : sx < a.W) (hy : sy < a.H)
    (ws : WordSlot) : m.get10? (p10Addr a sx sy ws) ws.slot = some 512 := by
  have word := p10WordIdx_lt hx hy ws
  rw [p10Addr_eq, Memory.get10?, gray _ (by rw [expectedSize_eq_words]; omega), Option.map_some, slotOf_gray]

/-- The columns of a block have its words in common (R161). -/
theorem p10Addr_block (a : DrawArgs) {sx sx' : Nat} (sy : Nat) (ws : WordSlot) (h : sx / 6 = sx' / 6) :
    p10Addr a sx sy ws = p10Addr a sx' sy ws := by
  rw [p10Addr_eq, p10Addr_eq, p10WordIdx, p10WordIdx, h]

/-- The visit of `p` writes the field `ws` of the block of screen pixel `(sx, sy)`. -/
def VisitWrites (a : DrawArgs) (p : Pixel) (sx sy : Nat) (ws : WordSlot) : Prop :=
  a.sx p / 6 = sx / 6 ∧ a.sy p = sy ∧ ws ∈ [lumaWS (a.sx p), chroma1WS (a.sx p), chroma2WS (a.sx p)]

section
variable {a : DrawArgs} {s t : State} {g : Fin 12} (hg : glyph? a.glyph = some g) (h : exec (.drawP10 a) s = .next t)
  {sx sy : Nat} (hx : sx < a.W)
include hg h hx

/-- A field no visit writes reads as before. -/
theorem execDrawP10_unwritten {ws : WordSlot} (unwritten : ∀ p ∈ a.visits, ¬ VisitWrites a p sx sy ws) :
    t.mem.get10? (p10Addr a sx sy ws) ws.slot = s.mem.get10? (p10Addr a sx sy ws) ws.slot := by
  refine execDrawP10_field hg h fun p hp ws' hws' v => ?_
  refine p10_apart (inBlocks_of_lt (sx_of_visit hp).2) (inBlocks_of_lt hx) fun ⟨block, row, field⟩ => ?_
  exact unwritten p hp ⟨block, row, field ▸ hws'⟩

/-- A chroma field of a gray frame is 512 after a `DRAW.P10`, whether a visit writes it or not. -/
theorem execDrawP10_gray_chroma (gray : GrayFrame a s.mem) (hy : sy < a.H) {ws : WordSlot}
    (chroma : ws ∈ [chroma1WS sx, chroma2WS sx]) : t.mem.get10? (p10Addr a sx sy ws) ws.slot = some 512 := by
  by_cases written : ∃ p ∈ a.visits, VisitWrites a p sx sy ws
  · obtain ⟨p, hp, block, rfl, hws⟩ := written
    obtain rfl | hws := List.mem_cons.1 hws
    · exact absurd chroma (lumaWS_not_chroma _ _)
    · rw [← p10Addr_block a _ ws block]
      exact execDrawP10_chroma hg h hp hws
  · rw [execDrawP10_unwritten hg h hx fun p hp writes => written ⟨p, hp, writes⟩]
    exact get10_gray gray hx hy ws

/-- The luma field of a pixel the cell does not show is written by no visit. -/
theorem execDrawP10_luma_unshown (hidden : ¬ a.shows sx sy = true) :
    t.mem.get10? (p10Addr a sx sy (lumaWS sx)) (lumaWS sx).slot =
      s.mem.get10? (p10Addr a sx sy (lumaWS sx)) (lumaWS sx).slot := by
  refine execDrawP10_unwritten hg h hx fun p hp ⟨block, row, hws⟩ => hidden ?_
  obtain field | chroma := List.mem_cons.1 hws
  · have position := lumaWS_inj field
    rw [← row, show sx = a.sx p by omega]
    exact shows_of_visit hp
  · exact absurd chroma (lumaWS_not_chroma _ _)

end

/-- Settles O28: chroma fields stay or become 512, and a luma field is the pixel's own where the cell shows it. -/
theorem grayPackedBufferReadsBack : Obligations.GrayPackedBufferReadsBack := by
  intro a s t g hg gray h sx sy hx hy
  refine ⟨?_, execDrawP10_gray_chroma hg h hx gray hy (by simp), execDrawP10_gray_chroma hg h hx gray hy (by simp)⟩
  split
  · next shown =>
    obtain ⟨p, hp, rfl, rfl⟩ := visit_of_shows shown
    have column : ((a.sx p : Int) - a.X0).toNat = p.x := by have := (sx_of_visit hp).1; omega
    have row : ((a.sy p : Int) - a.Y0).toNat = p.y := by have := (sy_of_visit hp).1; omega
    rw [column, row]
    exact execDrawP10_luma hg h hp
  · next hidden =>
    rw [execDrawP10_luma_unshown hg h hx hidden]
    exact get10_gray gray hx hy _

end Sys2Proof.Machine

/-! PROOFS. A Packed10 label in place (R205). The field writes of two frame pixels are one and the same or force disjoint runs
of bits, so each of the label's can be read back. They touch no other field, no bits 31:30 and no byte outside their words. -/
namespace Sys2Proof.Machine

/-! ### The field writes of two frame pixels -/

/-- Two field writes are compatible when they write the same value wherever they write the same field. -/
theorem p10_compatible {a : DrawArgs} {sx sy sx' sy' : Nat} {ws ws' : WordSlot} {v v' : BitVec 10} (hx : sx < a.W)
    (hx' : sx' < a.W) (h : sx / 6 = sx' / 6 → sy = sy' → ws = ws' → v = v') :
    (Access.setField (p10Addr a sx sy ws) ws.slot v).Compatible (.setField (p10Addr a sx' sy' ws') ws'.slot v') := by
  by_cases same : sx / 6 = sx' / 6 ∧ sy = sy' ∧ ws = ws'
  · obtain ⟨block, rfl, rfl⟩ := same
    rw [h block rfl rfl, p10Addr_block a _ _ block]
    exact .inl rfl
  · exact .inr (p10_apart (inBlocks_of_lt hx) (inBlocks_of_lt hx') same)

/-- The accesses of two frame pixels are compatible when a pixel has one ink. -/
theorem writePixelP10_compatible {a : DrawArgs} {sx sy sx' sy' : Nat} {k k' : Bool} {z z' : Access} (hx : sx < a.W)
    (hx' : sx' < a.W) (oneInk : sx = sx' → sy = sy' → k = k') (hz : z ∈ writePixelP10 a sx sy k)
    (hz' : z' ∈ writePixelP10 a sx' sy' k') : z.Compatible z' := by
  obtain rfl | ⟨ws, hws, rfl⟩ := mem_writePixelP10.1 hz
  · obtain rfl | ⟨ws', hws', rfl⟩ := mem_writePixelP10.1 hz'
    · refine p10_compatible hx hx' fun block row field => ?_
      have position := lumaWS_inj field
      rw [oneInk (by omega) row]
    · exact p10_compatible hx hx' fun _ _ field => absurd (field ▸ hws') (lumaWS_not_chroma _ _)
  · obtain rfl | ⟨ws', hws', rfl⟩ := mem_writePixelP10.1 hz'
    · exact p10_compatible hx hx' fun _ _ field => absurd (field ▸ hws) (lumaWS_not_chroma _ _)
    · exact p10_compatible hx hx' fun _ _ _ => rfl

/-- A run of bits of a word that no access of a reading run forces is as before, whether or not the word holds a value. -/
theorem runAccesses_extract_frame {w : Window} {xs : List Access} {m : Memory} {b lo n : Nat}
    (loads : ∀ x ∈ xs, x.loads = true) (done : (runAccesses w xs m).ending = .done) (hn : lo + n ≤ 32)
    (apart : ∀ x ∈ xs, x.firstBit + x.width ≤ 8 * b + lo ∨ 8 * b + lo + n ≤ x.firstBit) :
    ((runAccesses w xs m).mem.readWord? b).map (fun v => v.extractLsb' lo n) =
      (m.readWord? b).map fun v => v.extractLsb' lo n := by
  refine map_extract_congr hn (readWord_isSome_congr (runAccesses_isSome w loads m) b) fun i hi => ?_
  have untouched : forcedBy xs (8 * b + lo + i) = none := forcedBy_eq_none_iff.2 fun x hx => by
    have := apart x hx
    exact (forced_eq_none_iff x _).2 (by omega)
  rw [runAccesses_bit done, untouched, Option.none_or]

/-! ### The field writes of a label -/

/-- The address of a word as the statements about burns write it, from the base and the width alone (R161). -/
theorem p10Addr_eq_packedWordAddr (a : DrawArgs) (sx sy : Nat) (ws : WordSlot) :
    p10Addr a sx sy ws = packedWordAddr a.B a.W sx sy ws := by
  rw [packedWordAddr, Nat.mul_comm 4]
  rfl

/-- The words of a buffer lie at multiples of four from its base. -/
theorem packedWordAddr_eq (buf w sx sy : Nat) (ws : WordSlot) :
    packedWordAddr buf w sx sy ws = buf + 4 * ((sy * p10Blocks w + sx / 6) * 4 + ws.word.val) := by
  unfold packedWordAddr p10Stride p10BlockWords p10WordBytes
  ring

section
variable {c : HostConfig} {dst : Word} {rom : GlyphTable} {x y : Int} {time : TimeCode} (packed : c.format = .packed10)
  (expressible : LabelExpressible c x y (label time).length)
include packed expressible

/-- An access of a label is one of a shown pixel's field writes, in the host's own frame. -/
theorem packedLabelAccess {z : Access} (hz : LabelAccess c dst rom x y time z) :
    ∃ sx sy, OnLabel c x y (label time).length sx sy ∧ ∃ ws ∈ [lumaWS sx, chroma1WS sx, chroma2WS sx], ∃ v,
      z = .setField (packedWordAddr dst.toNat c.width sx sy ws) ws.slot v := by
  obtain ⟨sx, sy, g, px, py, shown, hz⟩ := hz
  obtain ⟨W, -⟩ := frameArgs_of_labelShows dst expressible shown
  rw [packed] at hz
  obtain ⟨ws, hws, v, rfl⟩ := exists_field_of_mem hz
  exact ⟨sx, sy, onLabel_of_labelShows shown, ws, hws, v, by rw [p10Addr_eq_packedWordAddr, W, frameArgs_B]⟩

/-- The field writes of a label are pairwise compatible: a pixel it shows has one ink. -/
theorem packedLabelAccess_compatible {z z' : Access} (hz : LabelAccess c dst rom x y time z)
    (hz' : LabelAccess c dst rom x y time z') : z.Compatible z' := by
  obtain ⟨sx, sy, g, px, py, shown, hz⟩ := hz
  obtain ⟨sx', sy', g', px', py', shown', hz'⟩ := hz'
  rw [packed] at hz hz'
  refine writePixelP10_compatible (onFrame_of_labelShows dst expressible shown).1
    (onFrame_of_labelShows dst expressible shown').1 ?_ hz hz'
  rintro rfl rfl
  obtain ⟨rfl, rfl, rfl⟩ := labelShows_unique shown shown'
  rfl

/-- The field writes of a label are possible in a buffer of the expected size that holds values (R48, R168). -/
theorem packedLabelAccess_possible {len : Nat} {m : Memory} (size : expectedSize .packed10 c.width c.height ≤ len)
    (inSpace : dst.toNat + expectedSize .packed10 c.width c.height ≤ 2 ^ Config.addrBits)
    (holds : m.initialised dst.toNat (expectedSize .packed10 c.width c.height)) {z : Access}
    (hz : LabelAccess c dst rom x y time z) : z.Possible { base := dst.toNat, len := len } m := by
  obtain ⟨sx, sy, g, px, py, shown, hz⟩ := hz
  obtain ⟨W, H⟩ := frameArgs_of_labelShows dst expressible shown
  obtain ⟨hx, hy⟩ := onFrame_of_labelShows dst expressible shown
  rw [packed] at hz
  rw [← W, ← H] at size inSpace holds
  exact writePixelP10_possible hx hy hz rfl size inSpace holds

/-- A memory that reads back the label's field writes shows each of its pixels: its luma level, and neutral chroma. -/
theorem packedLabel_fields {m : Memory} (holds : ∀ z, LabelAccess c dst rom x y time z → z.Holds m) {sx sy px py : Nat}
    {g : Fin 12} (shown : LabelShows c x y time sx sy g px py) :
    m.get10? (packedWordAddr dst.toNat c.width sx sy (lumaWS sx)) (lumaWS sx).slot =
      some (luma10 (ink rom g c.cellWidth c.cellHeight px py)) ∧
    ∀ ws ∈ [chroma1WS sx, chroma2WS sx],
      m.get10? (packedWordAddr dst.toNat c.width sx sy ws) ws.slot = some c10Neutral := by
  obtain ⟨W, -⟩ := frameArgs_of_labelShows dst expressible shown
  have visited : ∀ z ∈ writePixelP10 (frameArgs c dst) sx sy (ink rom g c.cellWidth c.cellHeight px py), z.Holds m :=
    fun z hz => holds z ⟨sx, sy, g, px, py, shown, packed ▸ hz⟩
  rw [← W, ← frameArgs_B c dst]
  simp only [← p10Addr_eq_packedWordAddr]
  exact ⟨visited _ (mem_writePixelP10.2 (.inl rfl)), fun ws hws => visited _ (mem_writePixelP10.2 (.inr ⟨ws, hws, rfl⟩))⟩

end

/-- Settles O52: the label's field writes are possible and pairwise compatible, so each pixel it shows reads back; every other
field, bits 31:30 of each word and every byte outside the words lie apart from all of them. -/
theorem packedBurnLeavesTheLabel : Obligations.PackedBurnLeavesTheLabel := by
  intro buf len time x y s packed hw hh size inSpace initialised expressible
  have frameSize : s.cfg.frameSize = expectedSize .packed10 s.cfg.width s.cfg.height := by rw [HostConfig.frameSize, packed]
  rw [← expectedSize_packed10] at size inSpace initialised
  obtain ⟨xs, t, accesses, loads, done, burnt, reply, rom, cfg, inputs, hmem⟩ :=
    burnInPlace_runs hw hh (frameSize ▸ size) expressible fun z =>
      packedLabelAccess_possible packed expressible size inSpace initialised
  rw [packed] at loads
  have holds : ∀ z, LabelAccess s.cfg buf s.rom x y time z → z.Holds t.mem := fun z hz =>
    hmem ▸ runAccesses_holds loads done ((accesses z).2 hz) fun z' hz' =>
      packedLabelAccess_compatible packed expressible ((accesses z').1 hz') hz
  have field := fun z (hz : z ∈ xs) => packedLabelAccess packed expressible ((accesses z).1 hz)
  refine ⟨t, burnt, reply, rom, cfg, inputs, fun sx sy px py g shown => ?_, fun k sl other => ?_, fun k => ?_,
    fun addr outside => ?_⟩
  · obtain ⟨luma, chroma⟩ := packedLabel_fields packed expressible holds shown
    exact ⟨luma, chroma _ (by simp), chroma _ (by simp)⟩
  · rw [hmem]
    refine runAccesses_extract_frame (lo := 10 * sl.val) (n := 10) loads done (by omega) fun z hz => ?_
    obtain ⟨sx, sy, onLabel, ws, hws, v, rfl⟩ := field z hz
    have differs := other sx sy onLabel ws hws
    rw [packedWordAddr_eq] at differs ⊢
    exact setField_apart (v' := 0) fun same => differs (by rw [same])
  · rw [hmem]
    refine runAccesses_extract_frame loads done (by decide) fun z hz => ?_
    obtain ⟨sx, sy, -, ws, -, v, rfl⟩ := field z hz
    rw [packedWordAddr_eq]
    exact field_below_top_bits _ _ _ _ v
  · rw [hmem]
    refine runAccesses_frame _ _ fun z hz => ?_
    obtain ⟨sx, sy, onLabel, ws, hws, v, rfl⟩ := field z hz
    exact outside sx sy onLabel ws hws

end Sys2Proof.Machine

/-! PROOFS. The checks of `burn` (R193 to R195), one equation each, and the one status they decide (R200, R221). -/
namespace Sys2Proof.Machine

/-! ### The checks -/

theorem burn_nullPointer {a : BurnArgs} (s : State) (h : a.src = none ∨ a.dst = none) :
    burn a s = .next (s.answer .invalidArgument) := by
  unfold burn
  split
  · next hsrc hdst => simp [hsrc, hdst] at h
  · rfl

section
variable {a : BurnArgs} {s : State} {src dst : Word} (hsrc : a.src = some src) (hdst : a.dst = some dst)
include hsrc hdst

theorem burn_unconfigured (h : s.cfg.width = 0 ∨ s.cfg.height = 0) : burn a s = .next (s.answer .notConfigured) := by
  simp only [burn, hsrc, hdst, if_pos h]

theorem burn_shortSource (hw : s.cfg.width ≠ 0) (hh : s.cfg.height ≠ 0) (short : a.srcLen < s.cfg.frameSize) :
    burn a s = .next (s.answer .bufferTooSmall) := by
  simp only [burn, hsrc, hdst, if_neg (not_or.2 ⟨hw, hh⟩), if_pos short]

theorem burn_pastValidation (hw : s.cfg.width ≠ 0) (hh : s.cfg.height ≠ 0) (size : s.cfg.frameSize ≤ a.srcLen) :
    burn a s =
      burnValidated { base := src.toNat, len := a.srcLen } { base := dst.toNat, len := a.dstLen } dst a s := by
  simp only [burn, hsrc, hdst, if_neg (not_or.2 ⟨hw, hh⟩), if_neg (Nat.not_lt.2 size)]

end

/-- The expected size, as R42 writes it out. -/
theorem frameSize_eq (c : HostConfig) :
    c.frameSize = if c.format = .packed10 then (c.width + 5) / 6 * 16 * c.height else 2 * c.width * c.height := by
  unfold HostConfig.frameSize
  cases c.format with
  | interleaved8 => exact (Nat.mul_comm _ 2).trans (Nat.mul_assoc 2 _ _).symm
  | planar8 => exact expectedSize_planar8 _ _
  | packed10 => exact expectedSize_packed10 _ _

/-- Settles O40: the step performs `configure` on the rest of the script. -/
theorem configureReplacesTheRecord : Obligations.ConfigureReplacesTheRecord := by
  intro s w h f c rest inputs
  simp only [step, inputs, perform]
  cases c <;> rfl

/-- Settles O41: each check answers from the state as it was. -/
theorem burnChecksInOrderAndWritesNothing : Obligations.BurnChecksInOrderAndWritesNothing := by
  refine fun a s => ⟨burn_nullPointer s, fun src dst hsrc hdst => ⟨burn_unconfigured hsrc hdst, fun hw hh short => ?_⟩⟩
  rw [← frameSize_eq] at short
  exact burn_shortSource hsrc hdst hw hh short

/-! ### The status -/

/-- The status the checks of `burn` decide, before anything is written. -/
def burnStatus (a : BurnArgs) (s : State) : Status :=
  if a.src = none ∨ a.dst = none then .invalidArgument
  else if s.cfg.width = 0 ∨ s.cfg.height = 0 then .notConfigured
  else if a.srcLen < s.cfg.frameSize then .bufferTooSmall
  else .success

/-- Past validation a burn that answers answers success (R200). -/
theorem burnValidated_reply {src dst : Window} {addr : Word} {a : BurnArgs} {s t : State}
    (h : burnValidated src dst addr a s = .next t) : t.reply = some (.status .success) := by
  obtain ⟨-, -, u, -, -, -, rfl⟩ := burnValidated_next h
  rfl

/-- A burn that answers answers the status its checks decide. -/
theorem burn_reply {a : BurnArgs} {s t : State} (h : burn a s = .next t) : t.reply = some (.status (burnStatus a s)) := by
  unfold burnStatus
  split
  · next null =>
    rw [burn_nullPointer s null] at h
    cases h
    rfl
  · next pointers =>
    obtain ⟨hsrc, hdst⟩ := not_or.1 pointers
    obtain ⟨src, hsrc⟩ := Option.ne_none_iff_exists'.1 hsrc
    obtain ⟨dst, hdst⟩ := Option.ne_none_iff_exists'.1 hdst
    split
    · next unconfigured =>
      rw [burn_unconfigured hsrc hdst unconfigured] at h
      cases h
      rfl
    · next geometry =>
      obtain ⟨hw, hh⟩ := not_or.1 geometry
      split
      · next short =>
        rw [burn_shortSource hsrc hdst hw hh short] at h
        cases h
        rfl
      · next size =>
        rw [burn_pastValidation hsrc hdst hw hh (Nat.not_lt.1 size)] at h
        exact burnValidated_reply h

theorem burnStatus_eq_iff (a : BurnArgs) (s : State) :
    (burnStatus a s = .invalidArgument ↔ (a.src = none ∨ a.dst = none)) ∧
    (burnStatus a s = .notConfigured ↔ a.src ≠ none ∧ a.dst ≠ none ∧ (s.cfg.width = 0 ∨ s.cfg.height = 0)) ∧
    (burnStatus a s = .bufferTooSmall ↔
      a.src ≠ none ∧ a.dst ≠ none ∧ s.cfg.width ≠ 0 ∧ s.cfg.height ≠ 0 ∧ a.srcLen < s.cfg.frameSize) ∧
    (burnStatus a s = .success ↔
      a.src ≠ none ∧ a.dst ≠ none ∧ s.cfg.width ≠ 0 ∧ s.cfg.height ≠ 0 ∧ s.cfg.frameSize ≤ a.srcLen) := by
  unfold burnStatus
  split_ifs <;> grind

/-- Settles O50: the code seen is that of the status the checks decide, and a code tells its status (D20). -/
theorem statusCodesTellTheOutcome : Obligations.StatusCodesTellTheOutcome := by
  refine ⟨fun a s t h => ?_, fun s w ht f c => configure_codeSeen s w ht f c⟩
  simpa only [codeSeen_eq, burn_reply h, Option.some.injEq, Reply.status.injEq] using burnStatus_eq_iff a s

end Sys2Proof.Machine

/-! PROOFS. The label of a timecode (R197) and its commands (R198, R199): each of its characters has a glyph, so it has one cell
for each of them. -/
namespace Sys2Proof.Machine

/-! ### Decimal representations -/

/-- The value of a list of digits is the library's. -/
theorem decimalValue_eq_ofDigitChars (cs : List Char) : decimalValue cs = Nat.ofDigitChars 10 cs 0 :=
  Nat.ofDigitChars_eq_foldl.symm

theorem dec_of_lt {n : Nat} (h : n < 10) : dec n = [n.digitChar] := Nat.toDigits_of_lt_base h

theorem dec_of_le {n : Nat} (h : 10 ≤ n) : dec n = dec (n / 10) ++ [(n % 10).digitChar] :=
  Nat.toDigits_of_base_le (by decide) h

/-- A number that is not 0 is written without leading zeros. -/
theorem dec_head_ne_zero {n : Nat} (h : n ≠ 0) : (dec n).head? ≠ some '0' := by
  induction n using Nat.strongRecOn with
  | ind n ih =>
    obtain small | large := Nat.lt_or_ge n 10
    · simpa [dec_of_lt small, Nat.digitChar_eq_zero] using h
    · have digits : dec (n / 10) ≠ [] := Nat.toDigits_ne_nil
      rw [dec_of_le large, List.head?_append_of_ne_nil _ digits]
      exact ih (n / 10) (by omega) (by omega)

theorem isDigit_of_mem_dec {n : Nat} {c : Char} (h : c ∈ dec n) : c.isDigit = true :=
  Nat.isDigit_of_mem_toDigits (by decide) (by decide) h

theorem isDecimal_dec (n : Nat) : IsDecimal n (dec n) := by
  refine ⟨List.all_eq_true.2 fun c => isDigit_of_mem_dec, ?_, ?_⟩
  · rw [decimalValue_eq_ofDigitChars]
    exact Nat.ofDigitChars_ten_toDigits
  · obtain rfl | nonzero := eq_or_ne n 0
    · exact .inl (Nat.toDigits_zero 10)
    · exact .inr ⟨Nat.toDigits_ne_nil, dec_head_ne_zero nonzero⟩

/-! ### The fields of a label -/

theorem pad2_of_lt {n : Nat} (h : n < 10) : pad2 n = '0' :: dec n := if_pos h

theorem pad2_of_le {n : Nat} (h : 10 ≤ n) : pad2 n = dec n := if_neg (Nat.not_lt.2 h)

theorem two_le_length_dec {n : Nat} (h : 10 ≤ n) : 2 ≤ (dec n).length := by
  have short : (dec n).length ≤ 1 ↔ n < 10 := Nat.length_toDigits_le_iff (by decide) (by decide)
  omega

theorem length_dec_le_two {n : Nat} (h : n < 100) : (dec n).length ≤ 2 :=
  (Nat.length_toDigits_le_iff (by decide) (by decide)).2 h

/-- A field of the label: at least two digits, one `0` of padding below 10, exactly two digits below 100 (R197). -/
theorem pad2_spec (n : Nat) :
    2 ≤ (pad2 n).length ∧
    ((n < 10 ∧ ∃ e, pad2 n = '0' :: e ∧ e.length = 1 ∧ IsDecimal n e) ∨ (10 ≤ n ∧ IsDecimal n (pad2 n))) ∧
    (n < 100 → (pad2 n).length = 2) := by
  obtain small | large := Nat.lt_or_ge n 10
  · have one : (dec n).length = 1 := by rw [dec_of_lt small, List.length_singleton]
    rw [pad2_of_lt small, List.length_cons, one]
    exact ⟨le_rfl, .inl ⟨small, dec n, rfl, one, isDecimal_dec n⟩, fun _ => rfl⟩
  · rw [pad2_of_le large]
    have two := two_le_length_dec large
    exact ⟨two, .inr ⟨large, isDecimal_dec n⟩, fun h => Nat.le_antisymm (length_dec_le_two h) two⟩

/-- Settles O42: hour, minute and second are padded fields, and the decimal is a plain one. -/
theorem labelIsTheTimecode : Obligations.LabelIsTheTimecode := by
  refine fun t => ⟨pad2 t.hour, pad2 t.minute, pad2 t.second, dec t.decimal, rfl, isDecimal_dec t.decimal, ?_⟩
  simp only [List.forall_mem_cons]
  exact ⟨pad2_spec t.hour, pad2_spec t.minute, pad2_spec t.second, nofun⟩

/-! ### The glyphs of a label -/

theorem glyphIndex_eq_none {c : Char} (h : c ∉ glyphSymbols) : glyphIndex c = none := by
  rw [glyphIndex, List.idxOf?_eq_none_iff.2 h, Option.map_none]

/-- The symbols name the bitmaps of the table (R64, R198). -/
theorem exists_glyph_of_mem {c : Char} (h : c ∈ glyphSymbols) :
    ∃ (g : BitVec 4) (n : Fin 12), glyphIndex c = some g ∧ glyph? g = some n ∧ n.val = g.toNat := by
  obtain ⟨i, hi⟩ := Option.isSome_iff_exists.1 (List.isSome_idxOf?.2 h)
  obtain ⟨small, -⟩ := List.idxOf?_eq_some_iff.1 hi
  have small : i < 12 := small
  have index : (BitVec.ofNat 4 i).toNat = i := (BitVec.toNat_ofNat ..).trans (Nat.mod_eq_of_lt (by omega))
  exact ⟨.ofNat 4 i, ⟨i, small⟩, by rw [glyphIndex, hi, Option.map_some], (glyph_eq_some _ _).2 index, index.symm⟩

theorem mem_glyphSymbols_of_isDigit {c : Char} (h : c.isDigit = true) : c ∈ glyphSymbols := by
  obtain ⟨lo, hi⟩ : 48 ≤ c.toNat ∧ c.toNat ≤ 57 := by
    simpa [Char.isDigit, UInt32.le_iff_toNat_le] using h
  rw [← Char.ofNat_toNat c]
  generalize c.toNat = n at lo hi
  interval_cases n <;> decide

theorem mem_glyphSymbols_of_mem_pad2 {n : Nat} {c : Char} (h : c ∈ pad2 n) : c ∈ glyphSymbols := by
  unfold pad2 at h
  split at h
  · obtain rfl | h := List.mem_cons.1 h
    · decide
    · exact mem_glyphSymbols_of_isDigit (isDigit_of_mem_dec h)
  · exact mem_glyphSymbols_of_isDigit (isDigit_of_mem_dec h)

/-- A label is made of digits, colons and a period (R197), which all have a glyph. -/
theorem mem_glyphSymbols_of_mem_label {t : TimeCode} {c : Char} (h : c ∈ label t) : c ∈ glyphSymbols := by
  simp only [label, List.mem_append, List.mem_cons] at h
  obtain hour | rfl | minute | rfl | second | rfl | decimal := h
  · exact mem_glyphSymbols_of_mem_pad2 hour
  · decide
  · exact mem_glyphSymbols_of_mem_pad2 minute
  · decide
  · exact mem_glyphSymbols_of_mem_pad2 second
  · decide
  · exact mem_glyphSymbols_of_isDigit (isDigit_of_mem_dec decimal)

/-- Settles O43: the characters of a label are among the twelve symbols. -/
theorem labelSymbolsHaveGlyphs : Obligations.LabelSymbolsHaveGlyphs :=
  ⟨by decide, fun _ unknown => glyphIndex_eq_none unknown, fun _ _ h =>
    exists_glyph_of_mem (mem_glyphSymbols_of_mem_label h)⟩

/-! ### One command a character -/

/-- Where every cell is encodable and every character has a glyph, the commands are those of the characters, in order. -/
theorem labelCommands_encodable {c : HostConfig} (dst : Word) {y cx : Int} {cs : List Char}
    (encodable : ∀ i : Nat, i < cs.length → cellEncodable c (cx + i * c.cellWidth) y = true)
    (known : ∀ ch ∈ cs, ch ∈ glyphSymbols) :
    ∃ cells : List DrawArgs, labelCommands c dst y cx cs = .ok (cells.map (formatCommand c.format)) ∧
      cells.length = cs.length ∧ ∀ (i : Nat) (ch : Char) (g : BitVec 4), cs[i]? = some ch → glyphIndex ch = some g →
        cells[i]? = some (cellArgs c dst y (cx + i * c.cellWidth) g) := by
  induction cs generalizing cx with
  | nil => exact ⟨[], rfl, rfl, nofun⟩
  | cons ch rest ih =>
    obtain ⟨here, later⟩ := List.forall_mem_cons.1 known
    obtain ⟨g, -, hg, -⟩ := exists_glyph_of_mem here
    have first : cellEncodable c cx y = true := by simpa using encodable 0 (by simp)
    obtain ⟨cells, hcells, length, each⟩ := ih (cx := cx + c.cellWidth)
      (fun i hi => cursor_succ cx i _ ▸ encodable (i + 1) (Nat.succ_lt_succ hi)) later
    refine ⟨cellArgs c dst y cx g :: cells, ?_, congrArg (· + 1) length, fun i ch' g' at_i hg' => ?_⟩
    · simp only [labelCommands, hcells, hg, cellCommand_encodable dst g first, List.map_cons, List.singleton_append]
    · cases i with
      | zero =>
        obtain rfl := Option.some.inj at_i
        obtain rfl := Option.some.inj (hg.symm.trans hg')
        rw [Nat.cast_zero, Int.zero_mul, Int.add_zero, List.getElem?_cons_zero]
      | succ i =>
        rw [← cursor_succ]
        exact each i ch' g' at_i hg'

/-- Settles O44: the cells of a label are one for each of its characters, and their operands are their geometry. -/
theorem labelCommandsAdvanceOneCell : Obligations.LabelCommandsAdvanceOneCell := by
  intro c dst x y t encodable
  obtain ⟨cells, commands, length, each⟩ :=
    labelCommands_encodable dst encodable fun _ h => mem_glyphSymbols_of_mem_label h
  refine ⟨_, commands, (List.length_map _).trans length, fun i ch g at_i hg => ?_⟩
  obtain ⟨inLabel, -⟩ := List.getElem?_eq_some_iff.1 at_i
  obtain ⟨X0, Y0, CW, CH, W, H⟩ := cellArgs_geometry (dst := dst) (g := g) (encodable i inLabel)
  refine ⟨_, ?_, rfl, X0, Y0, CW, CH, W, H, rfl⟩
  rw [List.getElem?_map, each i ch g at_i hg]
  cases c.format <;> rfl

end Sys2Proof.Machine

/-! PROOFS. The copy step (R196). It completes when each of its bytes lies in both buffers, and then the destination reads as
the source did. -/
namespace Sys2Proof.Machine

theorem copyByte_ok_iff {src dst : Window} {i : Nat} {m m' : Memory} :
    copyByte src dst i m = .ok m' ↔
      (src.covers (src.base + i) 1 = true ∧ dst.covers (dst.base + i) 1 = true) ∧
        m' = m.put (dst.base + i) (m.read? (src.base + i)) := by
  rw [copyByte, ← Bool.and_eq_true]
  split
  · next covered => simp [covered, eq_comm]
  · next outside => simp [outside]

theorem copyBytes_succ_ok {src dst : Window} {n : Nat} {m m' : Memory} :
    copyBytes src dst (n + 1) m = .ok m' ↔ ∃ u, copyBytes src dst n m = .ok u ∧ copyByte src dst n u = .ok m' := by
  rw [copyBytes]
  split
  · next u hu => simp [hu]
  · next f hf => simp [hf]

/-- The copy completes when each of its bytes lies in both buffers (R244). -/
theorem copyBytes_completes {src dst : Window} {n : Nat} (m : Memory)
    (covered : ∀ i : Nat, i < n → src.covers (src.base + i) 1 = true ∧ dst.covers (dst.base + i) 1 = true) :
    ∃ m', copyBytes src dst n m = .ok m' := by
  induction n with
  | zero => exact ⟨m, rfl⟩
  | succ n ih =>
    obtain ⟨u, hu⟩ := ih fun i hi => covered i (Nat.lt_succ_of_lt hi)
    exact ⟨_, copyBytes_succ_ok.2 ⟨u, hu, copyByte_ok_iff.2 ⟨covered n (Nat.lt_succ_self n), rfl⟩⟩⟩

/-- A copy that completes has its bytes in the destination. -/
theorem copyBytes_le_len {src dst : Window} {n : Nat} {m m' : Memory} (h : copyBytes src dst n m = .ok m') : n ≤ dst.len := by
  cases n with
  | zero => exact Nat.zero_le _
  | succ n =>
    obtain ⟨u, -, last⟩ := copyBytes_succ_ok.1 h
    obtain ⟨⟨-, inDst⟩, -⟩ := copyByte_ok_iff.1 last
    obtain ⟨-, inLen, -⟩ := (covers_iff _ _ _).1 inDst
    omega

/-- Between disjoint ranges the destination then reads as the source did, and every other byte is as before. -/
theorem copyBytes_read {src dst : Window} {n : Nat} {m m' : Memory} (h : copyBytes src dst n m = .ok m')
    (disjoint : src.base + n ≤ dst.base ∨ dst.base + n ≤ src.base) :
    (∀ i, i < n → m'.read? (dst.base + i) = m.read? (src.base + i)) ∧
      ∀ addr, (addr < dst.base ∨ dst.base + n ≤ addr) → m'.read? addr = m.read? addr := by
  induction n generalizing m' with
  | zero => cases h; exact ⟨nofun, fun _ _ => rfl⟩
  | succ n ih =>
    obtain ⟨u, hu, last⟩ := copyBytes_succ_ok.1 h
    obtain ⟨-, rfl⟩ := copyByte_ok_iff.1 last
    obtain ⟨copied, kept⟩ := ih hu (by omega)
    have source : u.read? (src.base + n) = m.read? (src.base + n) := kept _ (by omega)
    refine ⟨fun i hi => ?_, fun addr outside => ?_⟩
    · rw [read_put, source]
      split
      · next same => rw [Nat.add_left_cancel same]
      · next other => exact copied i (by omega)
    · rw [read_put, if_neg (by omega)]
      exact kept addr (by omega)

/-- Settles O45: the copy completes byte by byte, and no byte of the source is overwritten before it is read. -/
theorem copyMovesTheFrame : Obligations.CopyMovesTheFrame := by
  intro src dst n m covered disjoint
  obtain ⟨m', copied⟩ := copyBytes_completes m covered
  exact ⟨m', copied, copyBytes_read copied disjoint⟩

end Sys2Proof.Machine

/-! PROOFS. The two-buffer burn is the in-place burn on the copied frame (R201). A command depends on memory, the Glyph Table and
the window alone (R20), so the in-place burn need not be of the same host. -/
namespace Sys2Proof.Machine

/-! ### What a command depends on -/

/-- The two states differ at most in what the block does not see: the host's record, its script and its last answer. -/
def SameBlock (s s' : State) : Prop := s'.mem = s.mem ∧ s'.rom = s.rom ∧ s'.window = s.window

theorem transaction_congr {s s' : State} (same : SameBlock s s') (order : List Pixel) (i : Instr) :
    transaction order i s' = transaction order i s := by
  obtain ⟨mem, rom, window⟩ := same
  cases i <;> simp only [transaction, rasterTransaction, drawCell, DrawArgs.windowIn, mem, rom, window]

theorem exec_sameBlock {i : Instr} {s s' t : State} (same : SameBlock s s') (h : exec i s = .next t) :
    ∃ t', exec i s' = .next t' ∧ SameBlock t t' := by
  rw [exec_eq] at h
  rw [exec_eq, transaction_congr same]
  obtain ⟨-, rom, window⟩ := same
  obtain ⟨ends, rfl⟩ | ⟨b, ends, rfl⟩ := conclude_next h
  · exact ⟨_, conclude_of_done ends, rfl, rom, window⟩
  · exact ⟨{ s' with mem := (transaction (modelOrder i) i s).mem, reply := some (.respond b) },
      by rw [conclude, ends], rfl, rom, window⟩

theorem runCommands_sameBlock {is : List Instr} {s s' t : State} (same : SameBlock s s') (h : runCommands is s = .next t) :
    ∃ t', runCommands is s' = .next t' ∧ SameBlock t t' := by
  induction is generalizing s s' with
  | nil => cases h; exact ⟨s', rfl, same⟩
  | cons i is ih =>
    unfold runCommands at h
    split at h
    · next u hu =>
      obtain ⟨u', hu', same'⟩ := exec_sameBlock same hu
      simp only [runCommands, hu']
      exact ih same' h
    · cases h
    · cases h

/-! ### The copied frame -/

/-- Buffers that do not overlap are disjoint over any length both have. -/
theorem disjoint_of_not_overlaps {v w : Window} {n : Nat} (apart : ¬ v.overlaps w = true) (inV : n ≤ v.len) (inW : n ≤ w.len) :
    v.base + n ≤ w.base ∨ w.base + n ≤ v.base := by
  simp only [Window.overlaps, decide_eq_true_eq] at apart
  omega

/-- A burn that answers past validation is in place, or between buffers that do not overlap (R245, D29). -/
theorem burnValidated_apart {src dst : Window} {addr : Word} {a : BurnArgs} {s t : State}
    (h : burnValidated src dst addr a s = .next t) : ¬ (src.base ≠ dst.base ∧ src.overlaps dst = true) := by
  intro overlapping
  rw [burnValidated, if_pos overlapping] at h
  cases h

/-- Settles O46: the copied frame makes the two memories one, and the label's commands run on it alike. -/
theorem inPlaceBurnEqualsBurnOnACopy : Obligations.InPlaceBurnEqualsBurnOnACopy := by
  intro s s' t a src dst wf wf' rom cfg hsrc hdst distinct h success copied' kept'
  have passed : burnStatus a s = .success := by
    simpa only [burn_reply h, Option.some.injEq, Reply.status.injEq] using success
  obtain ⟨-, -, -, passed_iff⟩ := burnStatus_eq_iff a s
  obtain ⟨-, -, hw, hh, size⟩ := passed_iff.1 passed
  rw [burn_pastValidation hsrc hdst hw hh size] at h
  have bases : src.toNat ≠ dst.toNat := fun same => distinct (BitVec.eq_of_toNat_eq same)
  have apart := fun overlapping => burnValidated_apart h ⟨bases, overlapping⟩
  obtain ⟨commands, m, u, hl, hm, hrun, rfl⟩ := burnValidated_next h
  rw [if_neg bases] at hm
  have fits := copyBytes_le_len hm
  obtain ⟨copied, kept⟩ := copyBytes_read hm (disjoint_of_not_overlaps apart size fits)
  have sameMemory : s'.mem = m := memory_ext wf' (copyBytes_wf hm wf) fun addr => by
    by_cases inFrame : addr < dst.toNat ∨ dst.toNat + s.cfg.frameSize ≤ addr
    · rw [kept' addr inFrame, kept addr inFrame]
    · obtain ⟨i, rfl⟩ := Nat.exists_eq_add_of_le (show dst.toNat ≤ addr by omega)
      rw [copied' i (by omega), copied i (by omega)]
  obtain ⟨u', hrun', memory, -⟩ := runCommands_sameBlock (s := { s with mem := m, window := a.dstLen })
    (s' := { s' with window := a.dstLen }) ⟨sameMemory, rom, rfl⟩ hrun
  rw [← cfg] at hw hh hl fits
  exact ⟨_, burnInPlace_of_runs hw hh fits hl hrun', memory, rfl⟩

end Sys2Proof.Machine

/-! PROOFS. A burn past validation (R200). A destination as long as the host must make it holds every byte of every cell the
label shows (R204, R250), and the copy has put the source's values there. -/
namespace Sys2Proof.Machine

theorem runCommands_cfg {is : List Instr} {s t : State} (h : runCommands is s = .next t) : t.cfg = s.cfg :=
  runCommands_keeps (P := fun u => u.cfg = s.cfg) (fun _ _ _ hx hu => (exec_sameContext hx).2.1.trans hu) h rfl

theorem burn_cfg {a : BurnArgs} {s t : State} (h : burn a s = .next t) : t.cfg = s.cfg := by
  obtain ⟨st, rfl⟩ | ⟨src, dst, -, -, hv⟩ := burn_next h
  · exact answer_cfg s st
  · obtain ⟨commands, m, u, -, -, hrun, rfl⟩ := burnValidated_next hv
    have hcfg := runCommands_cfg hrun
    exact (answer_cfg u .success).trans hcfg

/-! ### The destination -/

/-- The bytes the host must give a destination: the expected size, and one more for an Interleaved8 frame of odd width and
height (R204, R250). -/
def HostConfig.destinationSize (c : HostConfig) : Nat :=
  if c.format = .interleaved8 ∧ c.width % 2 = 1 ∧ c.height % 2 = 1 then c.frameSize + 1 else c.frameSize

theorem frameSize_le_destinationSize (c : HostConfig) : c.frameSize ≤ c.destinationSize := by
  unfold HostConfig.destinationSize
  split <;> omega

/-- The second chroma byte of the last pixel of a frame of odd width and height is the last the host must give (R250). -/
theorem i8_offsets_lt_destinationSize {a : DrawArgs} {c : HostConfig} (format : c.format = .interleaved8) (W : a.W = c.width)
    (H : a.H = c.height) {sx sy : Nat} (hx : sx < a.W) (hy : sy < a.H) :
    i8LumaOff a sx sy < c.destinationSize ∧ i8Chroma1 a sx sy < c.destinationSize ∧
      i8Chroma2 a sx sy < c.destinationSize := by
  have size : c.frameSize = 2 * a.W * a.H := by rw [frameSize_eq, format, W, H]; rfl
  have inDestination := frameSize_le_destinationSize c
  obtain ⟨luma, chroma1, inside | ⟨oddWidth, oddHeight, column, row⟩⟩ := i8_offsets_lt hx hy
  · omega
  · have overrun : c.destinationSize = c.frameSize + 1 := if_pos ⟨format, W ▸ oddWidth, H ▸ oddHeight⟩
    have last : i8Chroma2 a sx sy = 2 * a.W * a.H := by rw [column, row, i8Chroma2_last oddWidth oddHeight]
    omega

/-- Every access of a label can be made in a destination as long as the host must make it; for Packed10 the frame must hold
values (R48, R244). -/
theorem labelAccess_possible {c : HostConfig} {dst : Word} {rom : GlyphTable} {x y : Int} {time : TimeCode} {len : Nat}
    {m : Memory} (expressible : LabelExpressible c x y (label time).length) (size : c.destinationSize ≤ len)
    (inSpace : dst.toNat + c.destinationSize ≤ 2 ^ Config.addrBits)
    (holds : c.format = .packed10 → m.initialised dst.toNat c.frameSize) {z : Access} (hz : LabelAccess c dst rom x y time z) :
    z.Possible { base := dst.toNat, len := len } m := by
  have inDestination := frameSize_le_destinationSize c
  obtain ⟨sx, sy, g, px, py, shown, hz⟩ := hz
  obtain ⟨W, H⟩ := frameArgs_of_labelShows dst expressible shown
  obtain ⟨hx, hy⟩ := onFrame_of_labelShows dst expressible shown
  have base := frameArgs_B c dst
  cases format : c.format with
  | interleaved8 =>
    have offsets := i8_offsets_lt_destinationSize format W H hx hy
    rw [format] at hz
    revert z
    simp only [formatWriter, writePixelI8, List.forall_mem_cons, possible_store, covers_iff]
    exact ⟨by omega, by omega, by omega, nofun⟩
  | planar8 =>
    have frame : c.frameSize = 2 * (frameArgs c dst).W * (frameArgs c dst).H := by rw [frameSize_eq, format, W, H]; rfl
    have offsets := p8_offsets_lt hx hy
    rw [format] at hz
    revert z
    simp only [formatWriter, writePixelP8, List.forall_mem_cons, possible_store, covers_iff]
    exact ⟨by omega, by omega, by omega, nofun⟩
  | packed10 =>
    have frame : c.frameSize = expectedSize .packed10 (frameArgs c dst).W (frameArgs c dst).H := by
      rw [HostConfig.frameSize, format, W, H]
    have holds := holds format
    rw [format] at hz
    rw [frame] at inDestination holds
    exact writePixelP10_possible hx hy hz rfl (inDestination.trans size) (by omega) holds

/-! ### The burn -/

/-- `m` is the memory after the copy step of a burn, which an in-place one omits (R196, R201). -/
def FrameCopied (a : BurnArgs) (src dst : Word) (s : State) (m : Memory) : Prop :=
  (if src.toNat = dst.toNat then .ok s.mem else
    copyBytes { base := src.toNat, len := a.srcLen } { base := dst.toNat, len := a.dstLen } s.cfg.frameSize s.mem) = .ok m

section
variable {a : BurnArgs} {s : State} {src dst : Word} (size : s.cfg.frameSize ≤ a.srcLen)
  (apart : src = dst ∨ src.toNat + a.srcLen ≤ dst.toNat ∨ dst.toNat + a.dstLen ≤ src.toNat)
include size apart

/-- The frame is in the destination before the label is drawn: it was there, or the copy has put it there. -/
theorem exists_frameCopied (fits : s.cfg.frameSize ≤ a.dstLen) (srcInSpace : src.toNat + s.cfg.frameSize ≤ 2 ^ Config.addrBits)
    (dstInSpace : dst.toNat + s.cfg.frameSize ≤ 2 ^ Config.addrBits) :
    ∃ m, FrameCopied a src dst s m ∧
      ∀ i, i < s.cfg.frameSize → m.read? (dst.toNat + i) = s.mem.read? (src.toNat + i) := by
  unfold FrameCopied
  by_cases bases : src.toNat = dst.toNat
  · exact ⟨s.mem, if_pos bases, fun i _ => by rw [bases]⟩
  · have disjoint := apart.resolve_left fun same => bases (congrArg BitVec.toNat same)
    obtain ⟨m, copied, copiedBytes, -⟩ := copyMovesTheFrame { base := src.toNat, len := a.srcLen }
      { base := dst.toNat, len := a.dstLen } s.cfg.frameSize s.mem
      (fun i hi => by simp only [covers_iff]; omega) (by dsimp only; omega)
    exact ⟨m, (if_neg bases).trans copied, copiedBytes⟩

variable (hsrc : a.src = some src) (hdst : a.dst = some dst) (hw : s.cfg.width ≠ 0) (hh : s.cfg.height ≠ 0)
include hsrc hdst hw hh

/-- A burn past validation is the in-place burn on the copied frame (R196, R201). -/
theorem burn_eq_burnInPlace (fits : s.cfg.frameSize ≤ a.dstLen) {m : Memory} (copied : FrameCopied a src dst s m) :
    burn a s = burnInPlace (some dst) a.dstLen a.time a.x a.y { s with mem := m } := by
  have identicalOrDisjoint : ¬ (src.toNat ≠ dst.toNat ∧
      Window.overlaps { base := src.toNat, len := a.srcLen } { base := dst.toNat, len := a.dstLen } = true) := by
    rintro ⟨bases, overlapping⟩
    have disjoint := apart.resolve_left fun same => bases (congrArg BitVec.toNat same)
    simp only [Window.overlaps, decide_eq_true_eq] at overlapping
    omega
  have inPlace := burn_pastValidation (s := { s with mem := m })
    (a := { src := some dst, srcLen := a.dstLen, dst := some dst, dstLen := a.dstLen, time := a.time, x := a.x, y := a.y })
    rfl rfl hw hh fits
  rw [burn_pastValidation hsrc hdst hw hh size, burnInPlace, inPlace]
  unfold FrameCopied at copied
  simp only [burnValidated, if_neg identicalOrDisjoint, copied, ne_eq, not_true_eq_false, false_and, if_false, if_true]

/-- Past validation, a burn between buffers as the host must lend them answers success (R200, R204). -/
theorem burn_succeeds (fits : s.cfg.destinationSize ≤ a.dstLen)
    (srcInSpace : src.toNat + s.cfg.frameSize ≤ 2 ^ Config.addrBits)
    (dstInSpace : dst.toNat + s.cfg.destinationSize ≤ 2 ^ Config.addrBits)
    (expressible : LabelExpressible s.cfg a.x a.y (label a.time).length)
    (holds : s.cfg.format = .packed10 → s.mem.initialised src.toNat s.cfg.frameSize) :
    ∃ t, burn a s = .next t ∧ t.reply = some (.status .success) := by
  have inDestination := frameSize_le_destinationSize s.cfg
  obtain ⟨m, copied, copiedBytes⟩ := exists_frameCopied size apart (by omega) srcInSpace (by omega)
  have copyHolds : s.cfg.format = .packed10 → m.initialised dst.toNat s.cfg.frameSize := fun packed i hi => by
    rw [copiedBytes i hi]
    exact holds packed i hi
  obtain ⟨-, t, -, -, -, burnt, reply, -⟩ := burnInPlace_runs (buf := dst) (s := { s with mem := m }) hw hh
    (inDestination.trans fits) expressible fun z => labelAccess_possible expressible fits dstInSpace copyHolds
  exact ⟨t, (burn_eq_burnInPlace size apart hsrc hdst hw hh (by omega) copied).trans burnt, reply⟩

end

/-- Settles O49: the checks decide success, commands keep the record and the table, and a conforming call is carried out. -/
theorem burnPastValidationAnswersSuccess : Obligations.BurnPastValidationAnswersSuccess := by
  intro a s src dst hsrc hdst hw hh n hn size
  rw [← frameSize_eq] at hn
  subst hn
  refine ⟨fun t h => ⟨?_, burn_cfg h, burn_rom h⟩, fun need hneed => ?_⟩
  · rw [burn_pastValidation hsrc hdst hw hh size] at h
    exact burnValidated_reply h
  · obtain rfl : need = s.cfg.destinationSize := hneed
    exact fun fits srcInSpace dstInSpace apart =>
      burn_succeeds size apart hsrc hdst hw hh fits srcInSpace dstInSpace

end Sys2Proof.Machine

/-! PROOFS. Refusals (R222, R65, R84). Whether a command is refused is decided by its syntax alone: a descriptor by its reserved
encoding, a `RASTER` by its empty cell. Neither memory nor the visit order enters, and no access has been performed. -/
namespace Sys2Proof.Machine

/-! ### The checks of a descriptor -/

theorem reserved_eq_zero_iff (d : Descriptor) : d.reserved = 0 ↔ d.reservedClear = true := by
  have field : d.reserved.toNat = d.d0.toNat / 256 := by
    rw [Descriptor.reserved, BitVec.extractLsb'_toNat, Nat.shiftRight_eq_div_pow]
    omega
  rw [← BitVec.toNat_inj, field, Descriptor.reservedClear, beq_iff_eq]
  rfl

theorem op_lt_four_iff (d : Descriptor) : d.op.toNat < 4 ↔ d.opDefined = true := by
  rw [Descriptor.op, BitVec.extractLsb'_toNat, Nat.shiftRight_zero, Descriptor.opDefined, decide_eq_true_iff]

theorem wellFormed_iff (d : Descriptor) : d.wellFormed = true ↔ d.reserved = 0 ∧ d.op.toNat < 4 := by
  rw [reserved_eq_zero_iff, op_lt_four_iff, Descriptor.wellFormed, Bool.and_eq_true]

/-- The decoder turns away what `wellFormed` does (R65). -/
theorem wellFormed_of_decode_error {d : Descriptor} {e : DecodeError} (h : decode d = .error e) : d.wellFormed = false := by
  rw [← Bool.not_eq_true, wellFormed_iff]
  rintro ⟨clear, defined⟩
  have command : d.op.toNat = 0 ∨ d.op.toNat = 1 ∨ d.op.toNat = 2 ∨ d.op.toNat = 3 := by omega
  obtain hop | hop | hop | hop := command <;> simp [decode, clear, hop] at h

/-- A descriptor that decodes is well formed, and a `RASTER` has opcode 0 and the descriptor's operands (R61, R63). -/
theorem decode_ok {d : Descriptor} {i : Instr} (h : decode d = .ok i) :
    d.wellFormed = true ∧ ∀ a, i = .raster a → d.op = 0 ∧ a = d.rasterArgs := by
  rw [wellFormed_iff]
  unfold decode at h
  split at h
  · next clear =>
    split at h
    · next hop =>
      cases h
      refine ⟨⟨clear, by omega⟩, ?_⟩
      rintro a ⟨⟩
      exact ⟨BitVec.eq_of_toNat_eq hop, rfl⟩
    · next hop => cases h; exact ⟨⟨clear, by omega⟩, nofun⟩
    · next hop => cases h; exact ⟨⟨clear, by omega⟩, nofun⟩
    · next hop => cases h; exact ⟨⟨clear, by omega⟩, nofun⟩
    · cases h
  · cases h

/-! ### The refusal of a command -/

/-- The contract of the rasterizer, "both ≥ 1", fails at a zero dimension (R84). -/
theorem cellNonempty_eq_false_iff (a : RasterArgs) : a.cellNonempty = false ↔ a.cw = 0 ∨ a.ch = 0 := by
  simp [RasterArgs.cellNonempty, or_iff_not_imp_left]

/-- A `RASTER` is refused for its empty cell alone (R84, D13). -/
theorem rasterTransaction_refused_iff (a : RasterArgs) (s : State) (r : Refusal) :
    (rasterTransaction a s).ending = .refused r ↔ r = .badCell ∧ a.cellNonempty = false := by
  have check : a.cellNonempty = false ↔ a.cw.toNat = 0 ∨ a.ch.toNat = 0 := by
    rw [cellNonempty_eq_false_iff, ← BitVec.toNat_inj, ← BitVec.toNat_inj]
    rfl
  rw [check, rasterTransaction]
  split
  · next empty => rw [and_iff_left empty, Ending.refused.injEq, eq_comm]
  · next nonempty => split <;> simp [nonempty]

/-- `drawCell` refuses nothing (R65, R108). -/
theorem drawCell_not_refused (wp : WritePixel) (order : List Pixel) (a : DrawArgs) (s : State) (r : Refusal) :
    (drawCell wp order a s).ending ≠ .refused r := by
  obtain done | ⟨f, faults⟩ := drawCell_ending wp order a s
  · rw [done]; nofun
  · rw [faults]; nofun

/-- A command is refused exactly when it is not well formed, in every state and visit order (R65, R222). -/
theorem transaction_refused_iff (order : List Pixel) (i : Instr) (s : State) (r : Refusal) :
    (transaction order i s).ending = .refused r ↔ r = .badCell ∧ i.wellFormed = false := by
  cases i with
  | raster a => exact rasterTransaction_refused_iff a s r
  | drawI8 a => simpa [transaction, Instr.wellFormed] using drawCell_not_refused writePixelI8 order a s r
  | drawP8 a => simpa [transaction, Instr.wellFormed] using drawCell_not_refused writePixelP8 order a s r
  | drawP10 a => simpa [transaction, Instr.wellFormed] using drawCell_not_refused writePixelP10 order a s r

/-- The one command that can be ill formed is a `RASTER` with a zero cell dimension (R65). -/
theorem exists_raster_of_not_wellFormed {i : Instr} (h : i.wellFormed = false) :
    ∃ a, i = .raster a ∧ (a.cw = 0 ∨ a.ch = 0) := by
  cases i with
  | raster a => exact ⟨a, rfl, (cellNonempty_eq_false_iff a).1 h⟩
  | drawI8 a => cases h
  | drawP8 a => cases h
  | drawP10 a => cases h

theorem commandTransaction_of_decode_ok {d : Descriptor} {i : Instr} (order : List Pixel) (s : State) (hd : decode d = .ok i) :
    commandTransaction order d s = transaction order i s := by
  simp only [commandTransaction, hd]

theorem commandTransaction_of_decode_error {d : Descriptor} {e : DecodeError} (order : List Pixel) (s : State)
    (hd : decode d = .error e) :
    commandTransaction order d s = { mem := s.mem, ending := .refused .reservedEncoding } := by
  simp only [commandTransaction, hd]

/-- The run ends refused exactly when the transaction it concludes does (R222; log 23). -/
theorem conclude_refused_iff (s : State) (T : Transaction) (r : Refusal) :
    conclude s T = .refused r ↔ T.ending = .refused r := by
  obtain ⟨m, ending⟩ := T
  cases ending <;> simp [conclude]

/-- The model's own visit order does not enter into a refusal (R104, R222). -/
theorem exec_refused_iff (order : List Pixel) (i : Instr) (s : State) (r : Refusal) :
    exec i s = .refused r ↔ (transaction order i s).ending = .refused r := by
  rw [exec_eq, conclude_refused_iff, transaction_refused_iff, transaction_refused_iff]

/-- Settles O31: what is refused is a descriptor that does not decode or a `RASTER` with an empty cell, and in both cases the
transaction is the refusal over the memory it found. -/
theorem refusedCommandTouchesNothing : Obligations.RefusedCommandTouchesNothing := by
  refine ⟨fun order d s r h => ?_, fun order d len rest s r hs => ?_⟩
  · cases hd : decode d with
    | error e =>
      rw [commandTransaction_of_decode_error order s hd] at h ⊢
      cases h
      exact ⟨rfl, .inl ⟨rfl, wellFormed_of_decode_error hd⟩⟩
    | ok i =>
      rw [commandTransaction_of_decode_ok order s hd] at h ⊢
      obtain ⟨rfl, illFormed⟩ := (transaction_refused_iff order i s r).1 h
      obtain ⟨a, rfl, empty⟩ := exists_raster_of_not_wellFormed illFormed
      obtain ⟨wellFormed, raster⟩ := decode_ok hd
      obtain ⟨hop, rfl⟩ := raster a rfl
      exact ⟨rasterTransaction_mem d.rasterArgs s, .inr ⟨rfl, wellFormed, hop, empty⟩⟩
  · cases hd : decode d with
    | error e =>
      rw [step_of_decode_error hs hd, commandTransaction_of_decode_error order _ hd]
      simp
    | ok i =>
      rw [step_of_decode_ok hs hd, commandTransaction_of_decode_ok order _ hd]
      exact exec_refused_iff order i _ r

end Sys2Proof.Machine

/-! PROOFS. The descriptor format (R61, R63, R65). The header word is a number whose base-16 digits are the opcode and the glyph
index and whose other bits are the reserved ones, so the three fields read back what the encoder put there, and a header with
clear reserved bits is the encoder's. A descriptor then decodes to a command exactly when its fields are the command's. -/
namespace Sys2Proof.Machine

/-! ### The header word -/

theorem op_toNat (d : Descriptor) : d.op.toNat = d.d0.toNat % 16 := by
  rw [Descriptor.op, BitVec.extractLsb'_toNat, Nat.shiftRight_zero]

theorem glyph_toNat (d : Descriptor) : d.glyph.toNat = d.d0.toNat / 16 % 16 := by
  rw [Descriptor.glyph, BitVec.extractLsb'_toNat, Nat.shiftRight_eq_div_pow]

theorem reserved_eq_zero_iff_lt (d : Descriptor) : d.reserved = 0 ↔ d.d0.toNat < 256 := by
  rw [reserved_eq_zero_iff, Descriptor.reservedClear, beq_iff_eq]
  omega

/-- The reserved bits are clear exactly when the header is the encoder's, made of the descriptor's own fields (R61). -/
theorem reserved_eq_zero_iff_header (d : Descriptor) : d.reserved = 0 ↔ d.d0 = headerWord d.op d.glyph := by
  rw [reserved_eq_zero_iff_lt, ← BitVec.toNat_inj, Laws.EncodeHeader.header_toNat, op_toNat, glyph_toNat]
  omega

/-- The fields of a header are what the encoder put there (R61). -/
theorem fields_of_header {d : Descriptor} {op glyph : BitVec 4} (h : d.d0 = headerWord op glyph) :
    d.reserved = 0 ∧ d.op = op ∧ d.glyph = glyph := by
  have header := Laws.EncodeHeader.header_toNat op glyph
  rw [← h] at header
  refine ⟨(reserved_eq_zero_iff_lt d).2 (by omega), BitVec.eq_of_toNat_eq ?_, BitVec.eq_of_toNat_eq ?_⟩
  · rw [op_toNat]; omega
  · rw [glyph_toNat]; omega

theorem encode_header (i : Instr) : (encode i).d0 = headerWord i.opcode i.glyph := by cases i <;> rfl

/-! ### Decoding as a relation -/

/-- The operands of the command are those the descriptor's fields hold (R61, R62). -/
def OperandsIn (d : Descriptor) : Instr → Prop
  | .raster a => a = d.rasterArgs
  | .drawI8 a => a = d.drawArgs
  | .drawP8 a => a = d.drawArgs
  | .drawP10 a => a = d.drawArgs

/-- A descriptor decodes to a command exactly when its reserved bits are clear, its opcode is the command's and its operand
fields hold the command's operands (R61, R63, R65). -/
theorem decode_ok_iff (d : Descriptor) (i : Instr) :
    decode d = .ok i ↔ d.reserved = 0 ∧ d.op = i.opcode ∧ OperandsIn d i := by
  constructor
  · intro h
    unfold decode at h
    split at h
    · next clear =>
      split at h
      · next hop => cases h; exact ⟨clear, BitVec.eq_of_toNat_eq hop, rfl⟩
      · next hop => cases h; exact ⟨clear, BitVec.eq_of_toNat_eq hop, rfl⟩
      · next hop => cases h; exact ⟨clear, BitVec.eq_of_toNat_eq hop, rfl⟩
      · next hop => cases h; exact ⟨clear, BitVec.eq_of_toNat_eq hop, rfl⟩
      · cases h
    · cases h
  · rintro ⟨clear, hop, operands⟩
    rw [decode, if_pos clear, hop]
    cases i with
    | raster a => rw [show a = d.rasterArgs from operands]; rfl
    | drawI8 a => rw [show a = d.drawArgs from operands]; rfl
    | drawP8 a => rw [show a = d.drawArgs from operands]; rfl
    | drawP10 a => rw [show a = d.drawArgs from operands]; rfl

theorem operandsIn_encode (i : Instr) : OperandsIn (encode i) i := by
  obtain ⟨-, -, glyph⟩ := fields_of_header (encode_header i)
  cases i with
  | raster a => rw [OperandsIn, Descriptor.rasterArgs, glyph]; rfl
  | drawI8 a => rw [OperandsIn, Descriptor.drawArgs, glyph]; rfl
  | drawP8 a => rw [OperandsIn, Descriptor.drawArgs, glyph]; rfl
  | drawP10 a => rw [OperandsIn, Descriptor.drawArgs, glyph]; rfl

/-- Settles O2: the encoder's header has the command's opcode and glyph index, and its other words the command's operands. -/
theorem decodeInvertsEncode : Obligations.DecodeInvertsEncode := by
  intro i
  obtain ⟨clear, op, -⟩ := fields_of_header (encode_header i)
  exact (decode_ok_iff _ _).2 ⟨clear, op, operandsIn_encode i⟩

/-- A `DRAW` descriptor whose header the encoder would write is encoded back as it stands: `DRAW` ignores no word (R61). -/
theorem encodeDraw_drawArgs {d : Descriptor} {op : BitVec 4} (header : d.d0 = headerWord op d.glyph) :
    encodeDraw op d.drawArgs = d := by
  rw [encodeDraw, show d.drawArgs.glyph = d.glyph from rfl, ← header]
  rfl

/-- Settles O3: the header is made of the descriptor's own fields, and the command's operands are the descriptor's words. -/
theorem encodeInvertsDecode : Obligations.EncodeInvertsDecode := by
  intro d i h
  obtain ⟨clear, hop, operands⟩ := (decode_ok_iff d i).1 h
  have header := (reserved_eq_zero_iff_header d).1 clear
  rw [hop] at header ⊢
  cases i with
  | raster a =>
    obtain rfl : a = d.rasterArgs := operands
    rw [if_pos (by rfl), header]
    rfl
  | drawI8 a =>
    obtain rfl : a = d.drawArgs := operands
    exact encodeDraw_drawArgs header
  | drawP8 a =>
    obtain rfl : a = d.drawArgs := operands
    exact encodeDraw_drawArgs header
  | drawP10 a =>
    obtain rfl : a = d.drawArgs := operands
    exact encodeDraw_drawArgs header

/-! ### Which descriptors decode -/

/-- The decoder accepts exactly the well-formed descriptors (R65). -/
theorem exists_decode_ok_iff (d : Descriptor) : (∃ i, decode d = .ok i) ↔ d.wellFormed = true := by
  refine ⟨fun ⟨i, h⟩ => (decode_ok h).1, fun wellFormed => ?_⟩
  cases h : decode d with
  | ok i => exact ⟨i, rfl⟩
  | error e => cases wellFormed.symm.trans (wellFormed_of_decode_error h)

theorem wellFormed_iff_header (d : Descriptor) :
    d.wellFormed = true ↔ d.d0.toNat % 16 < 4 ∧ d.d0.toNat / 256 = 0 := by
  rw [Descriptor.wellFormed, Bool.and_eq_true, and_comm, Descriptor.opDefined, Descriptor.reservedClear,
    decide_eq_true_iff, beq_iff_eq]

/-- Settles O4: the decoder accepts a header with a defined opcode and clear reserved bits, and the step refuses what the decoder
does not accept. -/
theorem reservedDescriptorsAreRefused : Obligations.ReservedDescriptorsAreRefused := by
  refine fun d len rest s hs => ⟨fun reserved => ?_, fun header => ?_⟩
  · cases hd : decode d with
    | error e => exact step_of_decode_error hs hd
    | ok i =>
      have header := (wellFormed_iff_header d).1 ((exists_decode_ok_iff d).1 ⟨i, hd⟩)
      omega
  · exact (exists_decode_ok_iff d).2 ((wellFormed_iff_header d).2 header)

theorem decode_of_eq_encode {d : Descriptor} {i : Instr} (h : d = encode i) : decode d = .ok i :=
  h ▸ decodeInvertsEncode i

/-- Settles O1: each descriptor is, word for word, the encoding of its command. -/
theorem specDescriptorsDecode : Obligations.SpecDescriptorsDecode :=
  ⟨decode_of_eq_encode (by decide), decode_of_eq_encode (by decide), decode_of_eq_encode (by decide),
    decode_of_eq_encode (by decide)⟩

/-- Settles O5: the step takes the descriptor from the script and issues it. -/
theorem stepRunsTheDecodedCommand : Obligations.StepRunsTheDecodedCommand :=
  fun _ _ _ _ _ hs hd => step_of_decode_ok hs hd

end Sys2Proof.Machine

/-! PROOFS. The invariant (R40; logs 1, 5): memory is in canonical form and lists only addresses that exist. Every memory
operation keeps it, because each one writes inside the address space; so does every action of the host, and the empty memory of
reset has it. -/
namespace Sys2Proof.Machine

/-! ### Commands -/

theorem drawCell_inv (wp : WritePixel) (order : List Pixel) (a : DrawArgs) {s : State} (h : Inv s) :
    (drawCell wp order a s).mem.wf = true ∧ (drawCell wp order a s).mem.inSpace = true := by
  obtain ⟨wf, inSpace⟩ := h
  obtain ⟨-, hd⟩ | ⟨g, -, hd⟩ := drawCell_cases wp order a s
  · rw [hd]; exact ⟨wf, inSpace⟩
  · rw [hd]; exact ⟨runAccesses_wf _ _ wf, runAccesses_inSpace _ _ inSpace⟩

/-- A command leaves a canonical memory in each of its endings, in every visit order. -/
theorem transaction_inv (order : List Pixel) (i : Instr) {s : State} (h : Inv s) :
    (transaction order i s).mem.wf = true ∧ (transaction order i s).mem.inSpace = true := by
  cases i with
  | raster a => rw [transaction, rasterTransaction_mem]; exact h
  | drawI8 a => exact drawCell_inv writePixelI8 order a h
  | drawP8 a => exact drawCell_inv writePixelP8 order a h
  | drawP10 a => exact drawCell_inv writePixelP10 order a h

theorem exec_inv {i : Instr} {s t : State} (h : exec i s = .next t) (inv : Inv s) : Inv t := by
  obtain ⟨r, rfl⟩ := exec_next h
  exact transaction_inv (modelOrder i) i inv

theorem runCommands_inv {is : List Instr} {s t : State} (h : runCommands is s = .next t) (inv : Inv s) : Inv t :=
  runCommands_keeps (fun _ _ _ => exec_inv) h inv

/-! ### The actions of the host -/

theorem issue_inv {d : Descriptor} {len : Nat} {s t : State} (h : issue d len s = .next t) (inv : Inv s) : Inv t := by
  obtain ⟨i, -, hi⟩ := issue_next h
  exact exec_inv hi inv

/-- The memory the label is drawn on, copied or in place (R196, R201). -/
theorem copyStep_inv {src dst : Window} {n : Nat} {s : State} {m : Memory} (inv : Inv s)
    (h : (if src.base = dst.base then .ok s.mem else copyBytes src dst n s.mem) = .ok m) :
    m.wf = true ∧ m.inSpace = true := by
  split at h
  · cases h; exact inv
  · obtain ⟨wf, inSpace⟩ := inv
    exact ⟨copyBytes_wf h wf, copyBytes_inSpace h inSpace⟩

theorem burn_inv {a : BurnArgs} {s t : State} (h : burn a s = .next t) (inv : Inv s) : Inv t := by
  obtain ⟨st, rfl⟩ | ⟨src, dst, -, -, hv⟩ := burn_next h
  · exact inv
  · obtain ⟨commands, m, u, -, hm, hrun, rfl⟩ := burnValidated_next hv
    have copied := copyStep_inv inv hm
    have drawn : Inv u := runCommands_inv hrun copied
    exact drawn

theorem fill_inv {addr : Word} {bytes : List Byte} {s t : State} (h : fill addr bytes s = .next t) (inv : Inv s) : Inv t := by
  obtain ⟨m, hm, rfl⟩ := fill_next h
  obtain ⟨wf, inSpace⟩ := inv
  exact ⟨fillBytes_wf hm wf, fillBytes_inSpace hm inSpace⟩

theorem perform_inv {x : HostAction} {s t : State} (h : perform x s = .next t) (inv : Inv s) : Inv t := by
  cases x with
  | command d len => exact issue_inv h inv
  | configure w ht f c => cases h; exact inv
  | burn a => exact burn_inv h inv
  | burnInPlace buf len time x y => exact burn_inv h inv
  | fill addr bytes => exact fill_inv h inv
  | reset => cases h; exact inv

/-- Settles O8: the step is idle or one of the host's actions, and each of them keeps the invariant. -/
theorem stepKeepsMemoryCanonical : Obligations.StepKeepsMemoryCanonical := by
  intro s t inv h
  obtain ⟨-, rfl⟩ | ⟨x, rest, -, hx⟩ := step_next h
  · exact inv
  · exact perform_inv hx inv

/-- Settles O7: the empty memory rises strictly and lists no address at all. -/
theorem resetMeetsTheInvariant : Obligations.ResetMeetsTheInvariant :=
  ⟨reset_mem_wf, (inSpace_iff _).2 nofun⟩

/-! ### Reset -/

theorem resetGlyph_getElem (g : Fin 12) (r : Fin 16) : (resetGlyph g)[r] = Config.glyphRom g r := by
  fin_cases r <;> rfl

theorem resetRom_getElem (g : Fin 12) : resetRom[g] = resetGlyph g := by
  fin_cases g <;> rfl

/-- The Glyph Table after reset is `GLYPH_ROM` (R29, R86). -/
theorem romRow_resetRom (g : Fin 12) (r : Fin 16) : romRow resetRom g r = Config.glyphRom g r := by
  rw [romRow, resetRom_getElem, resetGlyph_getElem]

theorem step_reset_action {s : State} {rest : List HostAction} (hs : s.inputs = .reset :: rest) :
    step s = .next (resetIdle { s with inputs := rest }) := by
  simp only [step, hs, perform]

/-- Settles O6: a reset state has nothing to do and an unconfigured host, and a reset of the idle block is `resetIdle`. -/
theorem resetLeavesTheBlockIdle : Obligations.ResetLeavesTheBlockIdle := by
  refine ⟨rfl, rfl, rfl, romRow_resetRom, rfl, rfl, fun a hsrc hdst => ?_, fun s rest hs => ?_⟩
  · obtain ⟨src, hsrc⟩ := Option.isSome_iff_exists.1 hsrc
    obtain ⟨dst, hdst⟩ := Option.isSome_iff_exists.1 hdst
    exact burn_unconfigured hsrc hdst (.inl rfl)
  · exact ⟨_, step_reset_action hs, rfl, rfl, rfl, rfl, rfl⟩

end Sys2Proof.Machine

/-! PROOFS. Little-endian words (R44, R45): a word access is its four byte accesses, the lowest address the least significant. -/
namespace Sys2Proof.Machine

theorem toNat_append_eq_add {n m : Nat} (hi : BitVec n) (lo : BitVec m) :
    (hi ++ lo).toNat = hi.toNat * 2 ^ m + lo.toNat := by
  rw [BitVec.toNat_append, ← Nat.shiftLeft_add_eq_or_of_lt lo.isLt, Nat.shiftLeft_eq]

/-- A little-endian word weighs its bytes by their address (R44, D8). -/
theorem wordOfBytes_toNat (b0 b1 b2 b3 : Byte) :
    (wordOfBytes b0 b1 b2 b3).toNat = b0.toNat + b1.toNat * 2 ^ 8 + b2.toNat * 2 ^ 16 + b3.toNat * 2 ^ 24 := by
  rw [wordOfBytes, toNat_append_eq_add, toNat_append_eq_add, toNat_append_eq_add]
  omega

/-- Settles O14: the word read back is the word written, its bytes are the word's, and the value of a word weighs its bytes by
their address. -/
theorem wordsAreLittleEndian : Obligations.WordsAreLittleEndian := by
  refine fun m a => ⟨fun v => ⟨readWord_writeWord_same m a v, fun i hi => ?_, fun x outside => ?_⟩,
    fun b0 b1 b2 b3 h0 h1 h2 h3 => ⟨wordOfBytes b0 b1 b2 b3, ?_, wordOfBytes_toNat b0 b1 b2 b3⟩⟩
  · exact read_of_readWord (readWord_writeWord_same m a v) hi
  · exact read_writeWord_outside m v outside
  · simp only [Memory.readWord?, h0, h1, h2, h3]

end Sys2Proof.Machine

/-! PROOFS. Faults (R41, R223, R225, R226). A run that faults splits at its offending access: those before it were performed,
those after it were not. The offending access lies outside the window or reads a word without a value, and what the earlier ones
did has no part in either. -/
namespace Sys2Proof.Machine

/-! ### The offending access -/

/-- A run that faults has performed the accesses before the offending one and none after (R226, D18). -/
theorem runAccesses_fault_split {w : Window} {xs : List Access} {m : Memory} {f : Fault}
    (h : (runAccesses w xs m).ending = .fault f) :
    ∃ pre x post, xs = pre ++ x :: post ∧
      runAccesses w pre m = { mem := (runAccesses w xs m).mem, ending := .done } ∧
      x.perform w (runAccesses w xs m).mem = .error f := by
  induction xs generalizing m with
  | nil => cases h
  | cons x xs ih =>
    cases hx : x.perform w m with
    | ok m' =>
      rw [runAccesses_cons_ok _ hx] at h ⊢
      obtain ⟨pre, y, post, rfl, before, offends⟩ := ih h
      exact ⟨x :: pre, y, post, rfl, (runAccesses_cons_ok pre hx).trans before, offends⟩
    | error f' =>
      rw [runAccesses_cons_error _ hx] at h ⊢
      obtain rfl := Ending.fault.inj h
      exact ⟨[], x, xs, rfl, rfl, hx⟩

/-- Settles O30: a `DRAW` that faults has a glyph, so it is a run of its accesses. -/
theorem faultedCommandKeepsEarlierStores : Obligations.FaultedCommandKeepsEarlierStores := by
  intro wp order a s f h
  obtain ⟨-, hd⟩ | ⟨g, hg, hd⟩ := drawCell_cases wp order a s
  · rw [hd] at h; cases h
  · rw [hd] at h ⊢
    obtain ⟨pre, x, post, split⟩ := runAccesses_fault_split h
    exact ⟨g, pre, x, post, hg, split⟩

/-- An access fails at the window, or at a word without a value (R41, R48). -/
theorem perform_error {w : Window} {m : Memory} {x : Access} {f : Fault} (h : x.perform w m = .error f) :
    f = .outOfWindow ∨ (x.loads = true ∧ m.readWord? x.addr = none) := by
  cases x with
  | store a v => exact .inl ((memWrite8_error _ _ _ _ _).1 h).2
  | setField a s v =>
    obtain ⟨-, cause⟩ | ⟨-, noValue, -⟩ := (set10_error _ _ _ _ _ _).1 h
    · exact .inl cause
    · exact .inr ⟨rfl, noValue⟩

/-- Read-modify-writes of words that all hold values can fault only at the window. -/
theorem fields_fault {w : Window} {xs : List Access} (fields : ∀ x ∈ xs, x.loads = true) {m : Memory} {f : Fault}
    (readable : ∀ x ∈ xs, (m.readWord? x.addr).isSome = true) (h : (runAccesses w xs m).ending = .fault f) :
    f = .outOfWindow := by
  obtain ⟨pre, x, post, rfl, -, offends⟩ := runAccesses_fault_split h
  obtain cause | ⟨-, noValue⟩ := perform_error offends
  · exact cause
  · have held := readWord_isSome_congr (runAccesses_isSome w fields m) x.addr
    rw [noValue, readable x (by simp)] at held
    cases held

/-! ### A `DRAW` with a glyph -/

theorem conclude_of_fault {s : State} {T : Transaction} {f : Fault} (h : T.ending = .fault f) : conclude s T = .fault f := by
  simp only [conclude, h]

section
variable {wp : WritePixel} {a : DrawArgs} {s : State} {g : Fin 12} {order : List Pixel} {kind : Bool}
variable (hg : glyph? a.glyph = some g) (ho : VisitOrder a order)
include hg ho

/-- A `DRAW` with an access that cannot be made at the start faults (R225). -/
theorem draw_faults (loads : WriterLoads wp kind) {x : Access} (hx : x ∈ cellAccesses wp s.rom g a a.visits)
    (impossible : ¬ x.Possible (a.windowIn s) s.mem) : ∃ f, (drawCell wp order a s).ending = .fault f := by
  obtain done | faults := drawCell_ending wp order a s
  · have possible := (forVisits_iff (.refl _)).1 ((drawCell_done_iff hg ho loads).1 done) x hx
    exact absurd possible impossible
  · exact faults

/-- A `DRAW` whose accesses can all be made at the start completes (R225). -/
theorem draw_completes_of_possible (loads : WriterLoads wp kind)
    (possible : ∀ x ∈ cellAccesses wp s.rom g a a.visits, x.Possible (a.windowIn s) s.mem) :
    Completes (conclude s (drawCell wp order a s)) := by
  obtain ⟨t, ht, -⟩ := draw_completes hg ho loads ((forVisits_iff (.refl _)).2 possible)
  exact ⟨t, ht⟩

/-- A `DRAW` that only stores faults when a store lies outside the window, and completes when none does. -/
theorem storing_draw_ends (loads : WriterLoads wp false) :
    ((∃ x ∈ cellAccesses wp s.rom g a a.visits, (a.windowIn s).covers x.addr x.size = false) →
      conclude s (drawCell wp order a s) = .fault .outOfWindow) ∧
    ((∀ x ∈ cellAccesses wp s.rom g a a.visits, (a.windowIn s).covers x.addr x.size = true) →
      Completes (conclude s (drawCell wp order a s))) := by
  refine ⟨fun ⟨x, hx, outside⟩ => ?_, fun covered => ?_⟩
  · obtain ⟨p, hp, hxp⟩ := List.mem_flatMap.1 hx
    exact storing_draw_faults hg ho loads hp hxp (Bool.not_eq_true _ ▸ outside)
  · refine draw_completes_of_possible hg ho loads fun x hx => ⟨covered x hx, fun reads => ?_⟩
    cases (cellAccesses_loads loads x hx).symm.trans reads

end

/-- Settles O29: whether an access can be made does not change while its command runs, so the accesses at the start decide. -/
theorem drawFaultsExactlyWhenAnAccessCannotBeMade : Obligations.DrawFaultsExactlyWhenAnAccessCannotBeMade := by
  intro a s g hg
  simp only [exec_drawP10]
  have fields := cellAccesses_loads (rom := s.rom) (g := g) (a := a) (order := a.visits) writePixelP10_loads
  have faults {x : Access} := draw_faults (s := s) (x := x) hg (List.Perm.refl _) writePixelP10_loads
  refine ⟨fun wi hwi => ?_, fun ⟨x, hx, cannot⟩ => ?_, fun ⟨x, hx, outside⟩ readable => ?_, fun can => ?_⟩
  · obtain rfl | rfl := List.mem_pair.1 hwi
    · simp only [exec_drawI8]
      exact storing_draw_ends hg (i8Order_perm a) writePixelI8_loads
    · simp only [exec_drawP8]
      exact storing_draw_ends hg (List.Perm.refl _) writePixelP8_loads
  · obtain ⟨f, hf⟩ := faults hx fun ⟨covered, readable⟩ => by
      have held := readable (fields x hx)
      obtain outside | noValue := cannot
      · cases covered.symm.trans outside
      · simp [noValue] at held
    exact ⟨f, conclude_of_fault hf⟩
  · obtain ⟨f, hf⟩ := faults hx fun ⟨covered, _⟩ => by cases covered.symm.trans outside
    have cause : f = .outOfWindow := by
      rw [drawCell_eq_run hg] at hf
      exact fields_fault fields readable hf
    rw [conclude_of_fault hf, cause]
  · refine draw_completes_of_possible hg (List.Perm.refl _) writePixelP10_loads fun x hx => ?_
    obtain ⟨covered, held⟩ := can x hx
    exact ⟨covered, fun _ => held⟩

end Sys2Proof.Machine
